-- ==== Sys2Proof/Word.lean ====
section
/-! DEFINITION. The two words of the model: a character code (R86) and a string of fuse values. -/

namespace Sys2Proof

/-- An 8-bit character code (R86), and one byte of the host's command list. -/
abbrev Byte := BitVec 8

/-- One line of the fuse-map file, without its line feed (R87). -/
abbrev Line := List Byte

/-- A string of fuse values, first transmitted bit first: a matrix row (R117), the OLMC string (R118) or a run (R85). -/
abbrev Bits := List Bool

end Sys2Proof
end

