-- ==== Sys2Proof/Config.lean ====
section
/-! DEFINITION. The parameters of the hardware: one record with one instance (R6, R7), and the one value the spec
leaves free at every use (R32). -/

namespace Sys2Proof.Config

/-- The sizes of R6. -/
structure Sizes where
  faLen : Nat
  nRows : Nat
  nCols : Nat
  colStride : Nat
  olmcBase : Nat
  nPorts : Nat
  olmcBits : Nat
  addrBits : Nat
  pdAddr : Nat
  addrDigits : Nat
  deriving DecidableEq, Repr

/-- The five timing constants of R30, in microseconds (D12); each is a lower bound (R215). -/
structure Timing where
  tMode : Nat
  tEraseSettle : Nat
  tEraseStrobe : Nat
  tWriteStrobe : Nat
  tWriteSettle : Nat
  deriving DecidableEq, Repr

/-- The record marker: two characters (R7, D5). -/
structure Marker where
  first : Byte
  second : Byte
  deriving DecidableEq, Repr

/-- PINMAP (R28): one integer per physical pin. WRITE and DATA_IN share a pin (R29), so seven integers serve the
eight roles. -/
structure PinMap where
  program : Nat
  writeDataIn : Nat
  erase : Nat
  accessOlmc : Nat
  clock : Nat
  dataOut : Nat
  strobe : Nat
  deriving DecidableEq, Repr

/-- The seven pins are distinct (R29, D10). -/
def PinMap.distinct (m : PinMap) : Bool :=
  decide [m.program, m.writeDataIn, m.erase, m.accessOlmc, m.clock, m.dataOut, m.strobe].Nodup

/-- Every parameter of the hardware. -/
structure Params where
  sizes : Sizes
  timing : Timing
  marker : Marker
  pinMap : PinMap
  deriving DecidableEq, Repr

/-- The sizes of the only instance (R6). -/
abbrev sizes : Sizes where
  faLen := 8448
  nRows := 44
  nCols := 132
  colStride := 44
  olmcBase := 5808
  nPorts := 10
  olmcBits := 20
  addrBits := 6
  pdAddr := 59
  addrDigits := 5

/-- The only instance. The sizes and times are R6's. PRESUMED (log 9): the marker `*L`, the default the opcode table
writes. DESIGN CHOICE (log 10): the pin numbers, which no behaviour depends on (D10). -/
def params : Params where
  sizes := sizes
  timing :=
    { tMode := 5000, tEraseSettle := 10000, tEraseStrobe := 30000, tWriteStrobe := 5000, tWriteSettle := 10000 }
  marker := { first := 0x2A#8, second := 0x4C#8 }
  pinMap := { program := 0, writeDataIn := 1, erase := 2, accessOlmc := 3, clock := 4, dataOut := 5, strobe := 6 }

/-- `FA_LEN`: the cells of the Flat Fuse Array. -/
abbrev faLen : Nat := sizes.faLen
/-- `N_ROWS`: the Logic Matrix rows. -/
abbrev nRows : Nat := sizes.nRows
/-- `N_COLS`: the bits of a row. -/
abbrev nCols : Nat := sizes.nCols
/-- `COL_STRIDE`: the flat distance between a row's successive columns. -/
abbrev colStride : Nat := sizes.colStride
/-- `OLMC_BASE`: the first OLMC cell. -/
abbrev olmcBase : Nat := sizes.olmcBase
/-- `N_PORTS`: the output ports. -/
abbrev nPorts : Nat := sizes.nPorts
/-- `OLMC_BITS`: the length of the OLMC string. -/
abbrev olmcBits : Nat := sizes.olmcBits
/-- `ADDR_BITS`: the row-address bits of a frame. -/
abbrev addrBits : Nat := sizes.addrBits
/-- `PD_ADDR`: the address of the power-down-disable row. -/
abbrev pdAddr : Nat := sizes.pdAddr
/-- `ADDR_DIGITS`: the decimal digits of a base address. -/
abbrev addrDigits : Nat := sizes.addrDigits

@[simp] theorem faLen_eq : faLen = 8448 := rfl
@[simp] theorem nRows_eq : nRows = 44 := rfl
@[simp] theorem nCols_eq : nCols = 132 := rfl
@[simp] theorem colStride_eq : colStride = 44 := rfl
@[simp] theorem olmcBase_eq : olmcBase = 5808 := rfl
@[simp] theorem nPorts_eq : nPorts = 10 := rfl
@[simp] theorem olmcBits_eq : olmcBits = 20 := rfl
@[simp] theorem addrBits_eq : addrBits = 6 := rfl
@[simp] theorem pdAddr_eq : pdAddr = 59 := rfl
@[simp] theorem addrDigits_eq : addrDigits = 5 := rfl

/-- A row address: `ADDR_BITS` bits (R56, R98). -/
abbrev RowAddr : Type := BitVec addrBits

/-- The level the device drives on DATA_OUT at its `k`-th sample: a free value under no law (R32, D22, U7; log 8). -/
opaque dataOutLevel : Nat → Bool

end Sys2Proof.Config
end

