-- ==== Sys2Proof/Syntax.lean ====
section
/-! DEFINITION. The operations of the block: one constructor of `Instr` for each row of the operation map (R107). -/

namespace Sys2Proof

/-- The eight roles of the Device Line Set (R28), in the source's order. -/
inductive Role where
  | program
  | write
  | erase
  | accessOlmc
  | clock
  | dataIn
  | dataOut
  | strobe
  deriving DecidableEq, Repr

/-- An operation of the block. -/
inductive Instr where
  /-- `LD.CLEAR` (R110). -/
  | ldClear
  /-- `LD.LINE` (R111). -/
  | ldLine (line : Line)
  /-- `LD.SKIP` (R113). -/
  | ldSkip (line : Line)
  /-- `LD.PATCH` (R112). -/
  | ldPatch (line : Line)
  /-- `LD.EOF` (R116). -/
  | ldEof
  /-- `LD.IOERR` (R115). -/
  | ldIoErr
  /-- `LD.ROW` (R117). -/
  | ldRow (r : Nat)
  /-- `LD.OLMC` (R118). -/
  | ldOlmc
  /-- `PARSE` (R119): the file's lines in order; `ioError` says that the file could not be read on after them. -/
  | parse (lines : List Line) (ioError : Bool)
  /-- `SETUP` (R130). -/
  | setup
  /-- `SETL` (R131). -/
  | setl (role : Role) (v : Bool)
  /-- `WAIT` (R132), in microseconds. -/
  | wait (t : Nat)
  /-- `XBIT` (R133). -/
  | xbit (b : Bool)
  /-- `STROBE` (R134), in microseconds. -/
  | strobe (d : Nat)
  /-- `SHIFTROW` (R135). -/
  | shiftRow (data : Bits) (a : Config.RowAddr)
  /-- `PROGRAM` (R151). -/
  | program (rows : List Bits) (olmc : Bits)
  /-- `S1` (R152). -/
  | s1
  /-- `S2` (R153). -/
  | s2
  /-- `S3` = `F.ERASE` (R154). -/
  | s3
  /-- `S4` (R155), over the latched rows (R36). -/
  | s4
  /-- `F.ROW` (R156). -/
  | fRow (r : Config.RowAddr) (data : Bits)
  /-- `S5` = `F.OLMC` (R160), over the latched OLMC bits (R36). -/
  | s5
  /-- `S6` = `F.PDROW` (R162). -/
  | s6
  /-- `S7` (R163). -/
  | s7
  /-- `S8` (R164). -/
  | s8
  /-- `ABORT` (R186). -/
  | abort
  deriving DecidableEq, Repr

end Sys2Proof
end

