-- ==== Sys2Proof/WellFormed.lean ====
section
/-! DEFINITION. Which terms of `Instr` are operations of the block: the operand ranges of R107 and of the rules it
names, and the bounds of the model's command encoding (log 1). -/

namespace Sys2Proof

/-- The line feed, at which lines are cut (R87). -/
def lineFeed : Byte := 0x0A#8

/-- A line is presented without its line feed (R87). -/
def Line.wf (l : Line) : Bool := l.all (fun b => b != lineFeed)

/-- A duration fits the four bytes the command encoding gives it (log 1). -/
def durationFits (t : Nat) : Bool := decide (t < 2 ^ 32)

/-- The instruction's operands are in the ranges its rule gives. The rows and the OLMC string of `PROGRAM` are not
checked here: a wrong length is refused when the command is admitted (R151). -/
def Instr.wf : Instr → Bool
  | .ldClear => true
  | .ldLine l => Line.wf l
  | .ldSkip l => Line.wf l
  | .ldPatch l => Line.wf l
  | .ldEof => true
  | .ldIoErr => true
  | .ldRow r => decide (r < Config.nRows)
  | .ldOlmc => true
  | .parse ls _ => ls.all Line.wf
  | .setup => true
  | .setl role _ => decide (role ≠ .dataOut)
  | .wait t => durationFits t
  | .xbit _ => true
  | .strobe d => durationFits d
  | .shiftRow data _ => decide (data.length = Config.nCols)
  | .program _ _ => true
  | .s1 => true
  | .s2 => true
  | .s3 => true
  | .s4 => true
  | .fRow r data => decide (r.toNat < Config.nRows) && decide (data.length = Config.nCols)
  | .s5 => true
  | .s6 => true
  | .s7 => true
  | .s8 => true
  | .abort => true

end Sys2Proof
end

