-- ==== Sys2Proof/Decode.lean ====
section
/-! DEFINITION. The command words: a decoder that is total on bytes and rejects by name, and the encoder beside it.
The spec gives bits to the four frames only, as the command word `CW[7:0] = (ERASE, ACCESS_OLMC, A[5:0])` (R101); it
gives the host commands no binary encoding (R107, D2). DESIGN CHOICE (log 1): the other operations take codes from the
block `CW[7:6] = 11`, which no frame uses (R103), and payloads follow the first byte, one byte to a wire position. -/

namespace Sys2Proof

/-- Why the bytes at the head of the command list stand for no operation. -/
inductive Reject where
  /-- There is no byte to read. -/
  | noByte
  /-- The bytes end inside an operand. -/
  | truncated
  /-- The first byte is a code the model gives no operation (log 1). -/
  | unassignedCode (b : Byte)
  /-- A row address that no row frame carries: 44 to 58 and 60 to 63 (R102, U5). -/
  | reservedRowAddress (a : Config.RowAddr)
  /-- A row number above 43 (R117). -/
  | rowOutOfRange (r : Byte)
  /-- An address byte that does not fit six bits (R135). -/
  | addressOutOfRange (b : Byte)
  /-- A role code that is no output role (R131). -/
  | notAnOutputRole (b : Byte)
  /-- A payload byte that is no bit. -/
  | notABit (b : Byte)
  /-- A byte that neither continues nor ends a list. -/
  | badListTag (b : Byte)
  deriving DecidableEq, Repr

/-- What a decoder of one operand answers: the operand and the bytes after it. -/
abbrev Decoded (α : Type) := Except Reject (α × List Byte)

/-- Carries on with the next operand. -/
def Decoded.andThen {α β : Type} (x : Decoded α) (f : α → List Byte → Decoded β) : Decoded β :=
  match x with
  | .ok (a, rest) => f a rest
  | .error e => .error e

@[simp] theorem Decoded.andThen_ok {α β : Type} (a : α) (rest : List Byte) (f : α → List Byte → Decoded β) :
    Decoded.andThen (.ok (a, rest)) f = f a rest := rfl

@[simp] theorem Decoded.andThen_error {α β : Type} (e : Reject) (f : α → List Byte → Decoded β) :
    Decoded.andThen (.error e) f = .error e := rfl

/-- One payload bit: `00` is 0 and `01` is 1. -/
def decodeBit : List Byte → Decoded Bool
  | [] => .error .truncated
  | b :: rest => if b = 0x00#8 then .ok (false, rest) else if b = 0x01#8 then .ok (true, rest) else .error (.notABit b)

/-- `n` payload bits, in wire order (R94). -/
def decodeBits : Nat → List Byte → Decoded Bits
  | 0, bytes => .ok ([], bytes)
  | n + 1, bytes =>
    (decodeBit bytes).andThen fun b rest =>
      (decodeBits n rest).andThen fun bs rest' => .ok (b :: bs, rest')

/-- The byte that ends a bit string of any length. -/
def endOfBits : Byte := 0x02#8

/-- A bit string of any length, up to `endOfBits`. -/
def decodeBitString : List Byte → Decoded Bits
  | [] => .error .truncated
  | b :: rest =>
    if b = endOfBits then .ok ([], rest)
    else if b = 0x00#8 then (decodeBitString rest).andThen fun bs rest' => .ok (false :: bs, rest')
    else if b = 0x01#8 then (decodeBitString rest).andThen fun bs rest' => .ok (true :: bs, rest')
    else .error (.notABit b)

/-- A line, up to its line feed (R87). -/
def decodeLine : List Byte → Decoded Line
  | [] => .error .truncated
  | b :: rest =>
    if b = lineFeed then .ok ([], rest)
    else (decodeLine rest).andThen fun l rest' => .ok (b :: l, rest')

/-- The byte before each item of a list. -/
def itemTag : Byte := 0x01#8
/-- The byte that ends a list; after the lines of `PARSE` it means that the file's end was reached. -/
def endTag : Byte := 0x00#8
/-- The byte that ends the lines of `PARSE` where the file could not be read on (R115). -/
def ioErrorTag : Byte := 0x02#8

/-- The lines of `PARSE` and how they end. `fuel` bounds the number of tags read. -/
def decodeFile : Nat → List Byte → Decoded (List Line × Bool)
  | 0, _ => .error .truncated
  | _ + 1, [] => .error .truncated
  | fuel + 1, b :: rest =>
    if b = endTag then .ok (([], false), rest)
    else if b = ioErrorTag then .ok (([], true), rest)
    else if b = itemTag then
      (decodeLine rest).andThen fun l rest' =>
        (decodeFile fuel rest').andThen fun f rest'' => .ok ((l :: f.1, f.2), rest'')
    else .error (.badListTag b)

/-- The rows of `PROGRAM`. `fuel` bounds the number of tags read. -/
def decodeRows : Nat → List Byte → Decoded (List Bits)
  | 0, _ => .error .truncated
  | _ + 1, [] => .error .truncated
  | fuel + 1, b :: rest =>
    if b = endTag then .ok ([], rest)
    else if b = itemTag then
      (decodeBitString rest).andThen fun r rest' =>
        (decodeRows fuel rest').andThen fun rs rest'' => .ok (r :: rs, rest'')
    else .error (.badListTag b)

/-- A duration in microseconds: four bytes, the least significant first. -/
def decodeDuration : List Byte → Decoded Nat
  | b0 :: b1 :: b2 :: b3 :: rest =>
    .ok (b0.toNat + 2 ^ 8 * b1.toNat + 2 ^ 16 * b2.toNat + 2 ^ 24 * b3.toNat, rest)
  | _ => .error .truncated

/-- The code of a role: its place in the source's list (R28). -/
def roleCode : Role → Byte
  | .program => 0x00#8
  | .write => 0x01#8
  | .erase => 0x02#8
  | .accessOlmc => 0x03#8
  | .clock => 0x04#8
  | .dataIn => 0x05#8
  | .dataOut => 0x06#8
  | .strobe => 0x07#8

/-- An output role (R131): DATA_OUT is none. -/
def decodeOutputRole : List Byte → Decoded Role
  | [] => .error .truncated
  | b :: rest =>
    match b.toNat with
    | 0 => .ok (.program, rest)
    | 1 => .ok (.write, rest)
    | 2 => .ok (.erase, rest)
    | 3 => .ok (.accessOlmc, rest)
    | 4 => .ok (.clock, rest)
    | 5 => .ok (.dataIn, rest)
    | 7 => .ok (.strobe, rest)
    | _ => .error (.notAnOutputRole b)

/-- A row number of `LD.ROW` (R117). -/
def decodeRowNumber : List Byte → Decoded Nat
  | [] => .error .truncated
  | b :: rest => if b.toNat < Config.nRows then .ok (b.toNat, rest) else .error (.rowOutOfRange b)

/-- A row address in a byte of its own. -/
def decodeAddress : List Byte → Decoded Config.RowAddr
  | [] => .error .truncated
  | b :: rest => if b.toNat < 2 ^ Config.addrBits then .ok (b.setWidth Config.addrBits, rest) else .error (.addressOutOfRange b)

/-- An operation without operands. -/
def plain (i : Instr) (rest : List Byte) : Decoded Instr := .ok (i, rest)

/-- The operations of the block `CW[7:6] = 11` (log 1). -/
def decodeCommand (b : Byte) (rest : List Byte) : Decoded Instr :=
  match b.toNat with
  | 0xC0 => plain .ldClear rest
  | 0xC1 => (decodeLine rest).andThen fun l => plain (.ldLine l)
  | 0xC2 => (decodeLine rest).andThen fun l => plain (.ldSkip l)
  | 0xC3 => (decodeLine rest).andThen fun l => plain (.ldPatch l)
  | 0xC4 => plain .ldEof rest
  | 0xC5 => plain .ldIoErr rest
  | 0xC6 => (decodeRowNumber rest).andThen fun r => plain (.ldRow r)
  | 0xC7 => plain .ldOlmc rest
  | 0xC8 => (decodeFile (rest.length + 1) rest).andThen fun f => plain (.parse f.1 f.2)
  | 0xC9 => plain .setup rest
  | 0xCA => (decodeOutputRole rest).andThen fun r rest' => (decodeBit rest').andThen fun v => plain (.setl r v)
  | 0xCB => (decodeDuration rest).andThen fun t => plain (.wait t)
  | 0xCC => (decodeBit rest).andThen fun v => plain (.xbit v)
  | 0xCD => (decodeDuration rest).andThen fun d => plain (.strobe d)
  | 0xCE =>
    (decodeBits Config.nCols rest).andThen fun data rest' =>
      (decodeAddress rest').andThen fun a => plain (.shiftRow data a)
  | 0xCF =>
    (decodeRows (rest.length + 1) rest).andThen fun rows rest' =>
      (decodeBitString rest').andThen fun olmc => plain (.program rows olmc)
  | 0xD1 => plain .s1 rest
  | 0xD2 => plain .s2 rest
  | 0xD4 => plain .s4 rest
  | 0xD7 => plain .s7 rest
  | 0xD8 => plain .s8 rest
  | 0xDF => plain .abort rest
  | _ => .error (.unassignedCode b)

/-- The two control bits of a command word: ERASE and ACCESS_OLMC (R101). -/
def frameMask : Byte := 0xC0#8

/-- Reads one operation off the head of the bytes. The four frames are told apart by R101's masks and matches; the
address bits of an erase or OLMC frame are any. -/
def decode : List Byte → Decoded Instr
  | [] => .error .noByte
  | b :: rest =>
    if b &&& frameMask = 0x80#8 then plain .s3 rest
    else if b &&& frameMask = 0x40#8 then plain .s5 rest
    else if b = BitVec.ofNat 8 Config.pdAddr then plain .s6 rest
    else if b &&& frameMask = 0x00#8 then
      if b.toNat < Config.nRows then
        (decodeBits Config.nCols rest).andThen fun data => plain (.fRow (b.setWidth Config.addrBits) data)
      else .error (.reservedRowAddress (b.setWidth Config.addrBits))
    else decodeCommand b rest

/-! ### The encoder -/

/-- One payload bit. -/
def encodeBit (b : Bool) : Byte := if b then 0x01#8 else 0x00#8

/-- Payload bits of a known number. -/
def encodeBits (bs : Bits) : List Byte := bs.map encodeBit

/-- A bit string of any length. -/
def encodeBitString (bs : Bits) : List Byte := bs.map encodeBit ++ [endOfBits]

/-- A line and its line feed. -/
def encodeLine (l : Line) : List Byte := l ++ [lineFeed]

/-- The lines of `PARSE` and how they end. -/
def encodeFile : List Line → Bool → List Byte
  | [], ioError => [if ioError then ioErrorTag else endTag]
  | l :: ls, ioError => itemTag :: encodeLine l ++ encodeFile ls ioError

/-- The rows of `PROGRAM`. -/
def encodeRows : List Bits → List Byte
  | [] => [endTag]
  | r :: rs => itemTag :: encodeBitString r ++ encodeRows rs

/-- A duration: four bytes, the least significant first. -/
def encodeDuration (t : Nat) : List Byte :=
  [BitVec.ofNat 8 t, BitVec.ofNat 8 (t / 2 ^ 8), BitVec.ofNat 8 (t / 2 ^ 16), BitVec.ofNat 8 (t / 2 ^ 24)]

/-- The bytes of a well-formed instruction. -/
def encode : Instr → List Byte
  | .ldClear => [0xC0#8]
  | .ldLine l => 0xC1#8 :: encodeLine l
  | .ldSkip l => 0xC2#8 :: encodeLine l
  | .ldPatch l => 0xC3#8 :: encodeLine l
  | .ldEof => [0xC4#8]
  | .ldIoErr => [0xC5#8]
  | .ldRow r => [0xC6#8, BitVec.ofNat 8 r]
  | .ldOlmc => [0xC7#8]
  | .parse ls ioError => 0xC8#8 :: encodeFile ls ioError
  | .setup => [0xC9#8]
  | .setl role v => [0xCA#8, roleCode role, encodeBit v]
  | .wait t => 0xCB#8 :: encodeDuration t
  | .xbit b => [0xCC#8, encodeBit b]
  | .strobe d => 0xCD#8 :: encodeDuration d
  | .shiftRow data a => 0xCE#8 :: encodeBits data ++ [a.setWidth 8]
  | .program rows olmc => 0xCF#8 :: encodeRows rows ++ encodeBitString olmc
  | .s1 => [0xD1#8]
  | .s2 => [0xD2#8]
  | .s3 => [0x80#8]
  | .s4 => [0xD4#8]
  | .fRow r data => r.setWidth 8 :: encodeBits data
  | .s5 => [0x40#8]
  | .s6 => [BitVec.ofNat 8 Config.pdAddr]
  | .s7 => [0xD7#8]
  | .s8 => [0xD8#8]
  | .abort => [0xDF#8]

/-! ### The host's view of a table word -/

/-- The bytes of a word of `nbits` bits, bit 0 the least significant bit of the first byte. -/
def wordBytes (nbits w : Nat) : List Byte :=
  (List.range ((nbits + 7) / 8)).map fun k => BitVec.ofNat 8 (w / 256 ^ k)

/-- The zero bytes that stand for the operand bytes the table gives no bits: a row frame has 132. -/
def zeroPayload : List Byte := List.replicate Config.nCols 0x00#8

/-- The bytes a table word stands for: its own and zeros after them. -/
def tableBytes (nbits w : Nat) : List Byte := wordBytes nbits w ++ zeroPayload

/-- The instruction the decoder reads from a table word. -/
def decodeTableWord (nbits w : Nat) : Option Instr :=
  match decode (tableBytes nbits w) with
  | .ok (i, _) => some i
  | .error _ => none

end Sys2Proof
end

