-- ==== Sys2Proof/Machine/State.lean ====
section
/-! DEFINITION. The state of the block as plain data, and its value after reset (R210, 10_state section 8). -/

namespace Sys2Proof.Machine

/-- A physical pin: seven carry the eight roles, WRITE and DATA_IN sharing one (R29). -/
inductive Pin where
  | program
  | writeDataIn
  | erase
  | accessOlmc
  | clock
  | dataOut
  | strobe
  deriving DecidableEq, Repr

/-- `DIRN[p]` (R31). -/
inductive Dirn where
  | unconfigured
  | input
  | output
  deriving DecidableEq, Repr

/-- What the block holds for one pin (R31): its direction, and the level last written to it. -/
structure PinState where
  dirn : Dirn
  level : Bool
  deriving DecidableEq, Repr

/-- The seven pins. -/
structure Pins where
  program : PinState
  writeDataIn : PinState
  erase : PinState
  accessOlmc : PinState
  clock : PinState
  dataOut : PinState
  strobe : PinState
  deriving DecidableEq, Repr

/-- The sequence state (R33): the source's names, and `aborted` for a failed or stopped run (D18, D19). -/
inductive Seq where
  | idle
  | programmingModeEntered
  | writeModeEnabled
  | erased
  | matrixWritten
  | olmcWritten
  | powerDownRowWritten
  | writeModeDisabled
  | programmingModeExited
  | aborted
  deriving DecidableEq, Repr

/-- A loader fault and what it records (60_exceptions section 1). -/
inductive LoaderFault where
  /-- `FormatError(addr)`: the line number and the field's characters (R180). -/
  | formatAddr (line : Nat) (field : List Byte)
  /-- `FormatError(range)`: the line number, the base and the run length (R181). -/
  | formatRange (line base runLen : Nat)
  /-- `IOError` (R182). -/
  | ioError
  deriving DecidableEq, Repr

/-- The loader status `ldr` (R23). -/
inductive Ldr where
  | empty
  | loading
  | valid
  | fault (f : LoaderFault)
  deriving DecidableEq, Repr

/-- One collaborator call (00_scope section 5). A read carries the bit it returned: `none` before the answer, and for
a read that failed (log 6). -/
inductive Event where
  | dir (role : Role) (d : Dirn)
  | wr (role : Role) (v : Bool)
  | rd (role : Role) (got : Option Bool)
  | wait (t : Nat)
  deriving DecidableEq, Repr

/-- What `GpioFailure` records: the event index and the call that failed (60_exceptions section 1). -/
structure GpioFailure where
  index : Nat
  call : Event
  deriving DecidableEq, Repr

/-- What the environment does at the block's next call (R184, R187, R195 to R198; log 5). -/
inductive EnvMove where
  /-- The call returns. -/
  | ok
  /-- The call reports a failure; `landed` says whether its pin took the effect all the same (U2). -/
  | fail (landed : Bool)
  /-- The block is stopped before the call (R187; D20's second option). -/
  | stop
  deriving DecidableEq, Repr

/-- Why a command is turned away with no event and no state change (D26, D27, U17): the model's own note (log 3). -/
inductive TurnAway where
  /-- `seq` is not `Idle` (D26). -/
  | notIdle
  /-- The array is complete: `ldr` is `Valid` (R111, D24). -/
  | arrayComplete
  /-- No view is readable: `ldr` is not `Valid` (R117, R118, R151). -/
  | notValid
  /-- `setup_done` is 0 (R151). -/
  | noSetup
  /-- `prog_used` is 1 (R151, R186). -/
  | progUsed
  /-- The step is not the next of the sequence (R150, R220). -/
  | outOfSequence
  /-- An operand is outside the range its rule gives. -/
  | badOperand
  deriving DecidableEq, Repr

/-- What the host gets back from the last operation (R228; log 4). -/
inductive Reply where
  /-- Nothing, as after a command that was turned away. -/
  | nothing
  /-- The loader's fault value (R190). -/
  | loaderFault (f : LoaderFault)
  /-- `GpioFailure` (R184). -/
  | gpioFailure (f : GpioFailure)
  /-- The sequence was stopped from outside (R187): the model's own answer, since the spec names none (logs 4, 7). -/
  | stopped
  /-- The result of `LD.ROW` (R117). -/
  | row (bits : Bits)
  /-- The result of `LD.OLMC` (R118). -/
  | olmc (bits : Bits)
  /-- The result of `PARSE` (R119). -/
  | views (rows : List Bits) (olmc : Bits)
  /-- The result of `XBIT` (R133). -/
  | sampled (b : Bool)
  /-- A user abort: a normal non-error end (R186). -/
  | ended
  deriving DecidableEq, Repr

/-- What stops the model itself. No step raises either. -/
inductive Fault where
  /-- `HardwareFault`: conceptual, raised by nothing (R183); safe. -/
  | hardwareFault
  /-- The level of a pin that is not an output was read: it has none (R31, U11). Raised by `readLine` only, which no
  operation calls; safe. -/
  | noLineLevel
  deriving DecidableEq, Repr

/-- Why a step is refused. -/
inductive Refusal where
  /-- An instruction without a meaning; raised by no arm. Safe. -/
  | notModelled (mnemonic : String)
  /-- The command bytes stand for no operation, a reserved row address among them (R102, U4, U5; log 1). Raised by
  `step`; safe, the machine stops. -/
  | malformedCommand (why : Reject)
  deriving DecidableEq, Repr

/-- The state of the block. -/
structure State where
  /-- The Flat Fuse Array `FA` (R21, R22): the cells that do not read 0, addresses rising (log 15). -/
  fa : List Host.Cell
  /-- The loader status (R23). -/
  ldr : Ldr
  /-- The decoded base address (R26). -/
  base : BitVec 17
  /-- The run length `n` (R26). -/
  runLen : Nat
  /-- The line counter (R26). -/
  lineNo : Nat
  /-- The record marker, a parameter (R7, D5). -/
  marker : Config.Marker
  /-- PINMAP, a control register (R28, D10). -/
  pinMap : Config.PinMap
  /-- The timing constants, control registers (R30). -/
  timing : Config.Timing
  /-- `DIRN` and `LINE` (R31). -/
  pins : Pins
  /-- The sequence state (R33). -/
  seq : Seq
  /-- The row address being shifted (R34). -/
  row : Config.RowAddr
  /-- The index of the next bit of the frame (R34). -/
  col : BitVec 8
  /-- The position inside `exchangeBit` (R34). -/
  ustep : BitVec 2
  /-- How many events the running operation has issued (R34, R165, R166). -/
  evIdx : Nat
  /-- The latest DATA_OUT sample (R35). -/
  sample : Bool
  /-- The latched rows (R36). -/
  rows : List Bits
  /-- The latched OLMC bits (R36). -/
  olmc : Bits
  /-- `setup_done` (R37). -/
  setupDone : Bool
  /-- `prog_used` (R37). -/
  progUsed : Bool
  /-- The latest `GpioFailure`'s record (R184). -/
  gpioFault : Option GpioFailure
  /-- The trace, oldest event first (00_scope section 5, D3). -/
  trace : List Event
  /-- What the host got back from the last operation (R228; log 4). -/
  reply : Reply
  /-- Why the last command was turned away, if it was: the model's own note. The host gets back nothing (R228; log 3). -/
  turnedAway : Option TurnAway
  /-- Input: the host's commands not yet taken (R228; log 1). -/
  cmd : List Byte
  /-- Input: the environment's moves at the calls to come; where it is empty, calls return (log 5). -/
  env : List EnvMove
  /-- The model's counter of DATA_OUT samples (log 8). -/
  draws : Nat
  deriving DecidableEq, Repr

/-- A pin before `SETUP`: unconfigured (R31). DESIGN CHOICE (log 11): the unspecified level is 0. -/
def PinState.reset : PinState := { dirn := .unconfigured, level := false }

/-- The pins before `SETUP` (R31). -/
def Pins.reset : Pins where
  program := .reset
  writeDataIn := .reset
  erase := .reset
  accessOlmc := .reset
  clock := .reset
  dataOut := .reset
  strobe := .reset

/-- The block right after reset (R210, 10_state section 8). DESIGN CHOICE (log 11): every register the spec leaves
unspecified is 0 or empty. -/
def State.reset : State where
  fa := []
  ldr := .empty
  base := 0#17
  runLen := 0
  lineNo := 0
  marker := Config.params.marker
  pinMap := Config.params.pinMap
  timing := Config.params.timing
  pins := .reset
  seq := .idle
  row := 0#Config.addrBits
  col := 0#8
  ustep := 0#2
  evIdx := 0
  sample := false
  rows := []
  olmc := List.replicate Config.olmcBits false
  setupDone := false
  progUsed := false
  gpioFault := none
  trace := []
  reply := .nothing
  turnedAway := none
  cmd := []
  env := []
  draws := 0

end Sys2Proof.Machine
end

