-- ==== Sys2Proof/Machine/Ops.lean ====
section
/-! DEFINITION. The named operations over memory, pins and the environment; taking a fault, and what stands in for a
return from one (R190, R191). -/

namespace Sys2Proof.Machine

/-! ### The Flat Fuse Array -/

/-- What an unlisted cell reads as: the array is created fully zero-initialized (R21). -/
def Memory.unlisted : Byte := 0x00#8

/-- The byte a fuse value is held as: one bit per cell (R22). -/
def Memory.ofBit (b : Bool) : Byte := if b then 0x01#8 else 0x00#8

/-- Reads one cell. -/
def Memory.read : List Host.Cell → Nat → Byte
  | [], _ => Memory.unlisted
  | (a, v) :: m, i => if i = a then v else Memory.read m i

/-- Writes one cell and keeps the canonical form: writing what an unlisted cell reads as removes the entry. -/
def Memory.write : List Host.Cell → Nat → Byte → List Host.Cell
  | [], i, x => if x = Memory.unlisted then [] else [(i, x)]
  | (a, v) :: m, i, x =>
    if i < a then (if x = Memory.unlisted then (a, v) :: m else (i, x) :: (a, v) :: m)
    else if i = a then (if x = Memory.unlisted then m else (i, x) :: m)
    else (a, v) :: Memory.write m i x

/-- The canonical form from cell `lo` up: addresses strictly rising and inside the array (R51), every listed cell 1. -/
def Memory.wfFrom : Nat → List Host.Cell → Bool
  | _, [] => true
  | lo, (a, v) :: m => decide (lo ≤ a) && decide (a < Config.faLen) && decide (v = Memory.ofBit true) && wfFrom (a + 1) m

/-- The canonical form of the array. -/
def Memory.wf (m : List Host.Cell) : Bool := Memory.wfFrom 0 m

/-- `FA[i]` (R21, R22). -/
def fuse (m : List Host.Cell) (i : Nat) : Bool := decide (Memory.read m i ≠ Memory.unlisted)

/-- `FA[i] <- b`. -/
def setFuse (m : List Host.Cell) (i : Nat) (b : Bool) : List Host.Cell := Memory.write m i (Memory.ofBit b)

/-- `MemRead(addr, n)` (00_scope section 5). -/
def memRead (m : List Host.Cell) (addr n : Nat) : Bits := (List.range n).map fun j => fuse m (addr + j)

/-- `MemWrite(addr, n, v)`: `FA[addr + j] <- v[j]` (00_scope section 5, R53). -/
def memWrite : List Host.Cell → Nat → Bits → List Host.Cell
  | m, _, [] => m
  | m, addr, b :: bs => memWrite (setFuse m addr b) (addr + 1) bs

/-! ### The Device Line Set -/

/-- The pin of a role: WRITE and DATA_IN share one (R29). -/
def pinOf : Role → Pin
  | .program => .program
  | .write => .writeDataIn
  | .erase => .erase
  | .accessOlmc => .accessOlmc
  | .clock => .clock
  | .dataIn => .writeDataIn
  | .dataOut => .dataOut
  | .strobe => .strobe

/-- The platform's number of a pin. -/
def pinNumber (m : Config.PinMap) : Pin → Nat
  | .program => m.program
  | .writeDataIn => m.writeDataIn
  | .erase => m.erase
  | .accessOlmc => m.accessOlmc
  | .clock => m.clock
  | .dataOut => m.dataOut
  | .strobe => m.strobe

/-- `PINMAP(role)` (R28). -/
def pinId (m : Config.PinMap) (role : Role) : Nat := pinNumber m (pinOf role)

/-- What the block holds for a pin. -/
def Pins.get (p : Pins) : Pin → PinState
  | .program => p.program
  | .writeDataIn => p.writeDataIn
  | .erase => p.erase
  | .accessOlmc => p.accessOlmc
  | .clock => p.clock
  | .dataOut => p.dataOut
  | .strobe => p.strobe

/-- Replaces what the block holds for a pin. -/
def Pins.set (p : Pins) (pin : Pin) (x : PinState) : Pins :=
  match pin with
  | .program => { p with program := x }
  | .writeDataIn => { p with writeDataIn := x }
  | .erase => { p with erase := x }
  | .accessOlmc => { p with accessOlmc := x }
  | .clock => { p with clock := x }
  | .dataOut => { p with dataOut := x }
  | .strobe => { p with strobe := x }

/-- `LINE[PINMAP(role)] <- v` (R31, R196). -/
def Pins.drive (p : Pins) (role : Role) (v : Bool) : Pins :=
  p.set (pinOf role) { p.get (pinOf role) with level := v }

/-- `DIRN[PINMAP(role)] <- d` (R195). -/
def Pins.direct (p : Pins) (role : Role) (d : Dirn) : Pins :=
  p.set (pinOf role) { p.get (pinOf role) with dirn := d }

/-- The level held for a role's pin. -/
def Pins.level (p : Pins) (role : Role) : Bool := (p.get (pinOf role)).level

/-- The direction held for a role's pin. -/
def Pins.dirn (p : Pins) (role : Role) : Dirn := (p.get (pinOf role)).dirn

/-- Reads `LINE` for a role: a pin that is not an output has no level (R31, D17, U11). No operation of the block reads
its outputs. -/
def readLine (s : State) (role : Role) : Except Fault Bool :=
  if s.pins.dirn role = .output then .ok (s.pins.level role) else .error .noLineLevel

/-! ### The host's answer -/

/-- Ends an operation with its answer to the host (R228). -/
def answer (r : Reply) (s : State) : State := { s with reply := r, turnedAway := none }

/-- A command the block has no step for: no event, no state change, and the host gets back nothing (R228, D26, U17). The
model notes why (log 3). -/
def refuse (why : TurnAway) (s : State) : State := { s with reply := .nothing, turnedAway := some why }

/-- Turns a command away; the machine goes on to the next. -/
def turnAway (why : TurnAway) (s : State) : Host.Outcome State Fault Refusal := .next (refuse why s)

/-! ### Faults -/

/-- Takes a loader fault: `ldr` holds it, and control returns to the host with its value (R180 to R182, R190). -/
def takeLoaderFault (f : LoaderFault) (s : State) : State := answer (.loaderFault f) { s with ldr := .fault f }

/-- Whose operation issues the events: the sequence of `program`, or a command outside it. -/
inductive Owner where
  | sequence
  | command
  deriving DecidableEq, Repr

/-- What a call does to the pins (R195 to R198). -/
def pinEffect (e : Event) (p : Pins) : Pins :=
  match e with
  | .dir role d => p.direct role d
  | .wr role v => p.drive role v
  | .rd _ _ => p
  | .wait _ => p

/-- Records one issued event in the trace (00_scope section 5). -/
def record (e : Event) (s : State) : State := { s with trace := s.trace ++ [e], evIdx := s.evIdx + 1 }

/-- `seq` when a run of `owner` ends early: `Aborted` inside `program`, else unchanged (R184, R187). -/
def endedSeq (owner : Owner) (q : Seq) : Seq :=
  match owner with
  | .sequence => .aborted
  | .command => q

/-- Takes `GpioFailure` (R184): the failing call is recorded, its own effect is as the environment says (U2), `seq`
becomes `Aborted` inside `program`, and control returns to the host with the event index and the call. -/
def takeGpioFailure (owner : Owner) (e : Event) (landed : Bool) (s : State) : State :=
  answer (.gpioFailure { index := s.evIdx, call := e })
    { record e s with
      pins := if landed then pinEffect e s.pins else s.pins
      seq := endedSeq owner s.seq
      gpioFault := some { index := s.evIdx, call := e } }

/-- The sequence is stopped from outside at an event boundary (R187, D20). DESIGN CHOICE (logs 4, 7): the host gets back
`stopped`; R187 names no answer, and R228 gives `program` only nothing or `GpioFailure`. -/
def takeStop (owner : Owner) (s : State) : State := answer .stopped { s with seq := endedSeq owner s.seq }

/-- There is no return from a fault (R191): the way out is a reset of the block (R185, R210). The inputs, the
parameters and the sample counter are not the block's to clear (log 17). -/
def hostReset (s : State) : State :=
  { State.reset with
    marker := s.marker, pinMap := s.pinMap, timing := s.timing, cmd := s.cmd, env := s.env, draws := s.draws }

/-! ### Issuing events -/

/-- Drops the environment's move that has been used. -/
def popMove (s : State) : State := { s with env := s.env.tail }

/-- The environment's move at this call. A wait cannot fail (R198), and only a running sequence can be stopped from
outside (R187; log 7). -/
def moveAt (owner : Owner) (e : Event) (s : State) : EnvMove :=
  match s.env.head?, e, owner with
  | some (.fail _), .wait _, _ => .ok
  | some .stop, _, .command => .ok
  | some m, _, _ => m
  | none, _, _ => .ok

/-- The event as the trace shows it once the call has returned: a read carries the device's level (R197). -/
def answered (e : Event) (s : State) : Event :=
  match e with
  | .rd role _ => .rd role (some (Config.dataOutLevel s.draws))
  | .dir role d => .dir role d
  | .wr role v => .wr role v
  | .wait t => .wait t

/-- A read puts the device's level in `sample` (R35); other calls leave it. -/
def sampledBy (e : Event) (s : State) : Bool :=
  match e with
  | .rd _ _ => Config.dataOutLevel s.draws
  | .dir _ _ => s.sample
  | .wr _ _ => s.sample
  | .wait _ => s.sample

/-- A read uses up one free value. -/
def drawsOf (e : Event) (n : Nat) : Nat :=
  match e with
  | .rd _ _ => n + 1
  | .dir _ _ => n
  | .wr _ _ => n
  | .wait _ => n

/-- A call that returned: its effect, and its event in the trace. -/
def returned (e : Event) (s : State) : State :=
  { record (answered e s) s with
    pins := pinEffect e s.pins
    sample := sampledBy e s
    draws := drawsOf e s.draws }

/-- How a run of events ends: it went through, or a failure or a stop ended it. -/
inductive Run where
  | through (s : State)
  | ended (s : State)
  deriving DecidableEq, Repr

/-- Issues one event (D1): the step of the block between two event boundaries. -/
def issue (owner : Owner) (e : Event) (s : State) : Run :=
  match moveAt owner e s with
  | .ok => .through (returned e (popMove s))
  | .fail landed => .ended (takeGpioFailure owner e landed (popMove s))
  | .stop => .ended (takeStop owner (popMove s))

/-- What an operation is made of: events, and writes of working registers between them. -/
inductive Act where
  | call (e : Event)
  | setRow (a : Config.RowAddr)
  | setCol (c : BitVec 8)
  | setUstep (u : BitVec 2)
  | setSeq (q : Seq)
  deriving DecidableEq, Repr

/-- Writes a working register; no event. -/
def place (a : Act) (s : State) : State :=
  match a with
  | .call _ => s
  | .setRow x => { s with row := x }
  | .setCol x => { s with col := x }
  | .setUstep x => { s with ustep := x }
  | .setSeq x => { s with seq := x }

/-- Performs acts in order; the first failing call ends the run and no later event is issued (R65, R184, R190). -/
def perform (owner : Owner) : List Act → State → Run
  | [], s => .through s
  | .call e :: acts, s =>
    match issue owner e s with
    | .through s' => perform owner acts s'
    | .ended s' => .ended s'
  | .setRow x :: acts, s => perform owner acts (place (.setRow x) s)
  | .setCol x :: acts, s => perform owner acts (place (.setCol x) s)
  | .setUstep x :: acts, s => perform owner acts (place (.setUstep x) s)
  | .setSeq x :: acts, s => perform owner acts (place (.setSeq x) s)

/-- Ends an operation: what is left to do where its events went through; a run that ended early is left as it is. -/
def conclude (r : Run) (k : State → State) : Host.Outcome State Fault Refusal :=
  match r with
  | .through s => .next (k s)
  | .ended s => .next s

end Sys2Proof.Machine
end

