-- ==== Sys2Proof/Machine/Operands.lean ====
section
/-! DEFINITION. The operand forms: the fields of a fuse record (R81 to R85, R90), the split of a file into lines (R87),
the two views of the array (R24, R25) and the address bits of a row frame (R56, R98). -/

namespace Sys2Proof.Machine

/-! ### Fuse records -/

/-- Whether a line is a fuse record (R82): its first two characters are the marker. -/
def isRecord (m : Config.Marker) (line : Line) : Bool := decide (line.take 2 = [m.first, m.second])

/-- A decimal digit, codes 0x30 to 0x39 (R83). -/
def isDigit (ch : Byte) : Bool := decide (0x30 ≤ ch.toNat) && decide (ch.toNat ≤ 0x39)

/-- The value of a decimal digit. -/
def digitValue (ch : Byte) : Nat := ch.toNat - 0x30

/-- The address field `line[2..7)` (R83). -/
def addressField (line : Line) : List Byte := (line.drop 2).take Config.addrDigits

/-- Exactly five characters, each a decimal digit (R83, D11). -/
def addressWellFormed (field : List Byte) : Bool :=
  decide (field.length = Config.addrDigits) && field.all isDigit

/-- The value of a decimal numeral, most significant digit first (R54, R83). -/
def decimalValue (field : List Byte) : Nat := field.foldl (fun n ch => n * 10 + digitValue ch) 0

/-- The six whitespace codes (R85, D9). -/
def isWhitespace (ch : Byte) : Bool := decide (ch.toNat = 0x20) || (decide (0x09 ≤ ch.toNat) && decide (ch.toNat ≤ 0x0D))

/-- Removes trailing whitespace (R85). -/
def rtrim : List Byte → List Byte
  | [] => []
  | ch :: rest =>
    match rtrim rest with
    | [] => if isWhitespace ch then [] else [ch]
    | t :: ts => ch :: t :: ts

/-- The run of a record: past the marker, the address and the delimiter, trailing whitespace removed; the delimiter is not
examined (R84, R85). -/
def runField (line : Line) : List Byte := rtrim (line.drop (2 + Config.addrDigits + 1))

/-- `bool(ch)` (R90): `'0'` is 0, anything else is 1. -/
def boolOfChar (ch : Byte) : Bool := decide (ch ≠ 0x30#8)

/-- Cuts a file at its line feeds; a last line without one is still a line (R87). -/
def splitLines : List Byte → List Line
  | [] => []
  | ch :: rest =>
    if ch = lineFeed then [] :: splitLines rest
    else
      match splitLines rest with
      | [] => [[ch]]
      | l :: ls => (ch :: l) :: ls

/-! ### The views of the array -/

/-- Row `r` of the Logic Matrix (R24, R117): column `c` is `FA[c*44 + r]`. -/
def matrixRow (m : List Host.Cell) (r : Nat) : Bits :=
  (List.range Config.nCols).map fun c => fuse m (c * Config.colStride + r)

/-- The OLMC string (R25, R118): for each port in ascending order, the higher-addressed bit first. -/
def olmcString (m : List Host.Cell) : Bits :=
  (List.range Config.nPorts).flatMap fun p =>
    [fuse m (Config.olmcBase + 2 * p + 1), fuse m (Config.olmcBase + 2 * p)]

/-- The 44 rows of the Logic Matrix (R119). -/
def matrixRows (m : List Host.Cell) : List Bits := (List.range Config.nRows).map (matrixRow m)

/-! ### Row addresses -/

/-- Bit `i` of a row address (R64, R98): `(a div 2^i) mod 2`. -/
def addressBit (a : Config.RowAddr) (i : Nat) : Bool := decide (a.toNat / 2 ^ i % 2 = 1)

/-- The `ADDR_BITS` address bits in the order they are shifted: the highest first (R56). -/
def addressBits (a : Config.RowAddr) : Bits := (List.range Config.addrBits).reverse.map (addressBit a)

end Sys2Proof.Machine
end

