-- ==== Sys2Proof/Machine/Flags.lean ====
section
/-! DEFINITION. The status flags (R37): what each admits. The block has no arithmetic flags; a flag is read only where a
command is admitted, so every use of `ldr`, `setup_done`, `seq` and `prog_used` as a condition stands here. -/

namespace Sys2Proof.Machine

/-- Runs an operation where nothing turns the command away. -/
def admitted (check : Option TurnAway) (s : State) (k : State → Host.Outcome State Fault Refusal) :
    Host.Outcome State Fault Refusal :=
  match check with
  | none => k s
  | some why => turnAway why s

/-- A command of the loader, and `SETUP`: only in `seq = Idle` (D26, R68, R130); the primitives too (log 13). That nobody
else writes a line while `seq` is not `Idle`, nor changes the inputs or the control registers during `program`, is an
assumption about the host (R193, R228; log 25). -/
def whenIdle (s : State) : Option TurnAway := if s.seq = .idle then none else some .notIdle

/-- A line is taken in `seq = Idle` and not once the array is complete (R111, D24, D26). -/
def whenLineTaken (s : State) : Option TurnAway :=
  if s.seq ≠ .idle then some .notIdle else if s.ldr = .valid then some .arrayComplete else none

/-- A view is read in `ldr = Valid` (R117, R118), in `seq = Idle` as every loader operation (D26). -/
def whenReadable (s : State) : Option TurnAway :=
  if s.seq ≠ .idle then some .notIdle else if s.ldr ≠ .valid then some .notValid else none

/-- `ldr` holds a fault (R23). -/
def Ldr.faulted : Ldr → Bool
  | .fault _ => true
  | .empty => false
  | .loading => false
  | .valid => false

/-- The end of the file makes an unfaulted parse valid (R116). -/
def Ldr.atEof : Ldr → Ldr
  | .empty => .valid
  | .loading => .valid
  | .valid => .valid
  | .fault f => .fault f

/-- The operands of `PROGRAM` have the sizes R151 asks for. -/
def programOperands (rows : List Bits) (olmc : Bits) : Bool :=
  decide (rows.length ≤ Config.nRows) && rows.all (fun r => decide (r.length = Config.nCols)) &&
    decide (olmc.length = Config.olmcBits)

/-- The admission of `PROGRAM` (R151, D15, D26, D27). It asks for no line level: that the lines are still low, as `SETUP`
left them (R152, R167), is not checked (log 13). -/
def whenProgram (rows : List Bits) (olmc : Bits) (s : State) : Option TurnAway :=
  if s.ldr ≠ .valid then some .notValid
  else if s.setupDone = false then some .noSetup
  else if s.seq ≠ .idle then some .notIdle
  else if s.progUsed then some .progUsed
  else if programOperands rows olmc = false then some .badOperand
  else none

/-- The admission of `ABORT`: before `program` (R186). -/
def whenAbort (s : State) : Option TurnAway :=
  if s.seq ≠ .idle then some .notIdle else if s.progUsed then some .progUsed else none

/-- A step of the sequence is taken where `seq` names the step before it (R34, R150, R220). -/
def whenAt (q : Seq) (s : State) : Option TurnAway := if s.seq = q then none else some .outOfSequence

/-- Turns away an operand outside its range after the other checks. -/
def withOperand (ok : Bool) (check : Option TurnAway) : Option TurnAway :=
  match check with
  | some why => some why
  | none => if ok then none else some .badOperand

/-- The sequence state after each (R33, R150): `seq` only ever advances along this list, or to `aborted` (R34). -/
def Seq.succ : Seq → Seq
  | .idle => .programmingModeEntered
  | .programmingModeEntered => .writeModeEnabled
  | .writeModeEnabled => .erased
  | .erased => .matrixWritten
  | .matrixWritten => .olmcWritten
  | .olmcWritten => .powerDownRowWritten
  | .powerDownRowWritten => .writeModeDisabled
  | .writeModeDisabled => .programmingModeExited
  | .programmingModeExited => .idle
  | .aborted => .aborted

/-- The fault codes of 60_exceptions section 1, constructor tags only (D23). -/
def LoaderFault.code : LoaderFault → Nat
  | .formatAddr _ _ => 1
  | .formatRange _ _ _ => 2
  | .ioError => 3

/-- The code of `HardwareFault`, which nothing raises (R183). -/
def hardwareFaultCode : Nat := 4

/-- The code of `GpioFailure`. -/
def gpioFailureCode : Nat := 5

end Sys2Proof.Machine
end

