-- ==== Sys2Proof/Machine/Loader.lean ====
section
/-! DEFINITION. The operations of the Fuse Map Loader (R110 to R119). None touches a line of the Device Line Set. -/

namespace Sys2Proof.Machine

/-- The array cleared and the parse begun (R110). -/
def clearLoader (s : State) : State := answer .nothing { s with fa := [], ldr := .empty, lineNo := 0 }

/-- `LD.CLEAR` (R110). -/
def execLdClear (s : State) : Host.Outcome State Fault Refusal :=
  admitted (whenIdle s) s fun s => .next (clearLoader s)

/-- Applies a fuse record (R112): the address is checked first, then the range of the whole record, and only then is
any cell written (R61, R114). -/
def patch (line : Line) (s : State) : State :=
  if addressWellFormed (addressField line) = false then
    takeLoaderFault (.formatAddr s.lineNo (addressField line)) s
  else
    let b := decimalValue (addressField line)
    let run := runField line
    let s := { s with base := BitVec.ofNat 17 b, runLen := run.length }
    if Config.faLen < b + run.length then takeLoaderFault (.formatRange s.lineNo b run.length) s
    else answer .nothing { s with fa := memWrite s.fa b (run.map boolOfChar) }

/-- A line counted (R111). -/
def countLine (s : State) : State := { s with ldr := .loading, lineNo := s.lineNo + 1 }

/-- Takes one line (R111, past its admission): dropped after a fault (R23, D24), else counted, and patched or skipped. -/
def takeLine (line : Line) (s : State) : State :=
  if s.ldr.faulted then answer .nothing s
  else if isRecord s.marker line then patch line (countLine s)
  else answer .nothing (countLine s)

/-- `LD.LINE` (R111). -/
def execLdLine (line : Line) (s : State) : Host.Outcome State Fault Refusal :=
  admitted (whenLineTaken s) s fun s => .next (takeLine line s)

/-- `LD.SKIP` (R113): a line that is no record changes nothing. Presented by itself it passes `LD.LINE`'s admission and
counts no line (log 12). -/
def execLdSkip (line : Line) (s : State) : Host.Outcome State Fault Refusal :=
  admitted (withOperand (!isRecord s.marker line) (whenLineTaken s)) s fun s => .next (answer .nothing s)

/-- The record of `LD.PATCH`, taken by itself: a line has been taken, so `ldr` is `Loading` (R23; log 12). -/
def takePatch (line : Line) (s : State) : State :=
  if s.ldr.faulted then answer .nothing s else patch line { s with ldr := .loading }

/-- `LD.PATCH` (R112). Presented by itself it passes `LD.LINE`'s admission and counts no line (log 12). -/
def execLdPatch (line : Line) (s : State) : Host.Outcome State Fault Refusal :=
  admitted (withOperand (isRecord s.marker line) (whenLineTaken s)) s fun s => .next (takePatch line s)

/-- The end of the file taken (R116). -/
def takeEof (s : State) : State := answer .nothing { s with ldr := s.ldr.atEof }

/-- `LD.EOF` (R116). -/
def execLdEof (s : State) : Host.Outcome State Fault Refusal :=
  admitted (whenIdle s) s fun s => .next (takeEof s)

/-- A file access failure taken: the first fault stays (R115, R189). -/
def takeIoError (s : State) : State :=
  if s.ldr.faulted then answer .nothing s else takeLoaderFault .ioError s

/-- `LD.IOERR` (R115). -/
def execLdIoErr (s : State) : Host.Outcome State Fault Refusal :=
  admitted (whenIdle s) s fun s => .next (takeIoError s)

/-- `LD.ROW` (R117). -/
def execLdRow (r : Nat) (s : State) : Host.Outcome State Fault Refusal :=
  admitted (withOperand (decide (r < Config.nRows)) (whenReadable s)) s fun s =>
    .next (answer (.row (matrixRow s.fa r)) s)

/-- `LD.OLMC` (R118). -/
def execLdOlmc (s : State) : Host.Outcome State Fault Refusal :=
  admitted (whenReadable s) s fun s => .next (answer (.olmc (olmcString s.fa)) s)

/-- What `PARSE` gives back (R119): the two views, or the fault. -/
def parseResult (s : State) : Reply :=
  match s.ldr with
  | .valid => .views (matrixRows s.fa) (olmcString s.fa)
  | .fault f => .loaderFault f
  | .empty => .nothing
  | .loading => .nothing

/-- The file taken whole (R119): cleared, each line in order, a read failure where the host could not read on, the end. -/
def parseFile (lines : List Line) (ioError : Bool) (s : State) : State :=
  let s := lines.foldl (fun s l => takeLine l s) (clearLoader s)
  takeEof (if ioError then takeIoError s else s)

/-- `PARSE` (R119). -/
def execParse (lines : List Line) (ioError : Bool) (s : State) : Host.Outcome State Fault Refusal :=
  admitted (whenIdle s) s fun s =>
    .next (answer (parseResult (parseFile lines ioError s)) (parseFile lines ioError s))

end Sys2Proof.Machine
end

