-- ==== Sys2Proof/Machine/Primitives.lean ====
section
/-! DEFINITION. The Device Programmer's primitives (R130 to R135): each as the acts it is made of, and as a command of
its own, which is taken in `seq = Idle` only, since nobody else may touch the lines during `program` (R193, R223;
log 13). -/

namespace Sys2Proof.Machine

/-! ### Acts -/

/-- One line write (R131). -/
def setlActs (role : Role) (v : Bool) : List Act := [.call (.wr role v)]

/-- One wait (R132). -/
def waitActs (t : Nat) : List Act := [.call (.wait t)]

/-- An output configured: direction first, then level 0 (R130, D16). -/
def setupOutput (role : Role) : List Act := [.call (.dir role .output), .call (.wr role false)]

/-- `setupLines` (R130): the roles in the source's order (D16). -/
def setupActs : List Act :=
  setupOutput .program ++ setupOutput .write ++ setupOutput .erase ++ setupOutput .accessOlmc ++ setupOutput .clock ++
    setupOutput .dataIn ++ [.call (.dir .dataOut .input)] ++ setupOutput .strobe

/-- `exchangeBit` (R133): sample, CLOCK low, DATA_IN, CLOCK high, with `ustep` at each position (R34). -/
def xbitActs (b : Bool) : List Act :=
  [.setUstep 0#2, .call (.rd .dataOut none), .setUstep 1#2, .call (.wr .clock false), .setUstep 2#2,
    .call (.wr .dataIn b), .setUstep 3#2, .call (.wr .clock true), .setUstep 0#2]

/-- `strobePulse` (R134): no wait at all where the duration is 0 (D28). -/
def strobeActs (d : Nat) : List Act :=
  setlActs .strobe false ++ (if 0 < d then waitActs d else []) ++ setlActs .strobe true

/-- Bits shifted one after another, the first at position `c` of the frame (R34, R135). -/
def shiftActs : Nat → Bits → List Act
  | _, [] => []
  | c, b :: bs => .setCol (BitVec.ofNat 8 c) :: xbitActs b ++ shiftActs (c + 1) bs

/-- A row frame without its strobe (R135): the data bits, then the address bits, positions 132 to 137. -/
def shiftRowActs (data : Bits) (a : Config.RowAddr) : List Act :=
  .setRow a :: shiftActs 0 data ++ shiftActs Config.nCols (addressBits a)

/-! ### Commands -/

/-- A command's own run of acts: its events count from 0 (log 16). -/
def runCommand (acts : List Act) (k : State → State) (s : State) : Host.Outcome State Fault Refusal :=
  conclude (perform .command acts { s with evIdx := 0 }) k

/-- `SETUP` (R130). -/
def execSetup (s : State) : Host.Outcome State Fault Refusal :=
  admitted (whenIdle s) s (runCommand setupActs fun s => answer .nothing { s with setupDone := true })

/-- `SETL` (R131): any role but DATA_OUT. -/
def execSetl (role : Role) (v : Bool) (s : State) : Host.Outcome State Fault Refusal :=
  admitted (withOperand (decide (role ≠ .dataOut)) (whenIdle s)) s (runCommand (setlActs role v) (answer .nothing))

/-- `WAIT` (R132). -/
def execWait (t : Nat) (s : State) : Host.Outcome State Fault Refusal :=
  admitted (whenIdle s) s (runCommand (waitActs t) (answer .nothing))

/-- `XBIT` (R133): it returns the sampled bit. -/
def execXbit (b : Bool) (s : State) : Host.Outcome State Fault Refusal :=
  admitted (whenIdle s) s (runCommand (xbitActs b) fun s => answer (.sampled s.sample) s)

/-- `STROBE` (R134). As a command in `Idle` it strobes at whatever levels the lines have (log 13): R96, R102 and R103 say
what the sequence never puts in the trace, not what these commands may (U6). -/
def execStrobe (d : Nat) (s : State) : Host.Outcome State Fault Refusal :=
  admitted (whenIdle s) s (runCommand (strobeActs d) (answer .nothing))

/-- `SHIFTROW` (R135). -/
def execShiftRow (data : Bits) (a : Config.RowAddr) (s : State) : Host.Outcome State Fault Refusal :=
  admitted (withOperand (decide (data.length = Config.nCols)) (whenIdle s)) s
    (runCommand (shiftRowActs data a) (answer .nothing))

end Sys2Proof.Machine
end

