-- ==== Sys2Proof/Machine/Sequence.lean ====
section
/-! DEFINITION. The erase-then-program sequence (R150 to R164) and the host's abort (R186). Each step is the acts of its
rule; `PROGRAM` performs the eight in order. A step presented by itself is taken where `seq` names the step before it, and
step 1 where `PROGRAM` is admitted (log 12). -/

namespace Sys2Proof.Machine

/-! ### Acts -/

/-- Step 1, enter programming mode (R152). -/
def s1Acts (t : Config.Timing) : List Act :=
  setlActs .clock true ++ setlActs .strobe true ++ waitActs t.tMode ++ setlActs .program true ++ waitActs t.tMode ++
    [.setSeq .programmingModeEntered]

/-- Step 2, enable write mode (R153). -/
def s2Acts : List Act :=
  setlActs .write true ++ setlActs .accessOlmc false ++ setlActs .erase false ++ [.setSeq .writeModeEnabled]

/-- Step 3, the erase frame (R154). -/
def s3Acts (t : Config.Timing) : List Act :=
  setlActs .erase true ++ waitActs t.tEraseSettle ++ strobeActs t.tEraseStrobe ++ waitActs t.tEraseSettle ++
    setlActs .erase false ++ [.setSeq .erased]

/-- The strobe that closes a written frame, and its settling time (R156, R160, R162). -/
def commitActs (t : Config.Timing) : List Act := strobeActs t.tWriteStrobe ++ waitActs t.tWriteSettle

/-- One matrix row (R156). -/
def fRowActs (t : Config.Timing) (r : Config.RowAddr) (data : Bits) : List Act := shiftRowActs data r ++ commitActs t

/-- The rows in ascending order, the first at address `r` (R155). -/
def rowsActs (t : Config.Timing) : Nat → List Bits → List Act
  | _, [] => []
  | r, data :: rest => fRowActs t (BitVec.ofNat Config.addrBits r) data ++ rowsActs t (r + 1) rest

/-- Step 4, the matrix (R155); nothing stands between rows or after the last (R158). -/
def s4Acts (t : Config.Timing) (rows : List Bits) : List Act := rowsActs t 0 rows ++ [.setSeq .matrixWritten]

/-- Step 5, the OLMC frame (R160). -/
def s5Acts (t : Config.Timing) (olmc : Bits) : List Act :=
  setlActs .accessOlmc true ++ shiftActs 0 olmc ++ commitActs t ++ setlActs .accessOlmc false ++ [.setSeq .olmcWritten]

/-- The all-zero row of the power-down-disable frame (R97). -/
def zeroRow : Bits := List.replicate Config.nCols false

/-- Step 6, the power-down-disable row at its fixed address (R162). -/
def s6Acts (t : Config.Timing) : List Act :=
  shiftRowActs zeroRow (BitVec.ofNat Config.addrBits Config.pdAddr) ++ commitActs t ++ [.setSeq .powerDownRowWritten]

/-- Step 7, disable write mode (R163). -/
def s7Acts : List Act := setlActs .write false ++ setlActs .dataIn false ++ [.setSeq .writeModeDisabled]

/-- Step 8, exit programming mode; the return to `Idle` has no event (R164). -/
def s8Acts (t : Config.Timing) : List Act :=
  setlActs .program false ++ waitActs t.tMode ++ setlActs .strobe false ++ setlActs .clock false ++ waitActs t.tMode ++
    [.setSeq .programmingModeExited, .setSeq .idle]

/-- The eight steps, each exactly once (R151, R220). -/
def programActs (t : Config.Timing) (rows : List Bits) (olmc : Bits) : List Act :=
  s1Acts t ++ s2Acts ++ s3Acts t ++ s4Acts t rows ++ s5Acts t olmc ++ s6Acts t ++ s7Acts ++ s8Acts t

/-! ### Commands -/

/-- A step of the sequence. -/
def runStep (acts : List Act) (s : State) : Host.Outcome State Fault Refusal :=
  conclude (perform .sequence acts s) (answer .nothing)

/-- The inputs latched, the one `program` call spent, the events counted from 0 (R36, R37, R151). -/
def startProgram (rows : List Bits) (olmc : Bits) (s : State) : State :=
  { s with progUsed := true, rows := rows, olmc := olmc, evIdx := 0 }

/-- `PROGRAM` (R151). -/
def execProgram (rows : List Bits) (olmc : Bits) (s : State) : Host.Outcome State Fault Refusal :=
  admitted (whenProgram rows olmc s) s fun s =>
    runStep (programActs s.timing rows olmc) (startProgram rows olmc s)

/-- `S1` (R152) starts the sequence. Presented by itself it passes the admission of `PROGRAM` (R2, R151), spends the one
call, latches the loader's views (R36, R68) and counts the events from 0 (log 12). -/
def execS1 (s : State) : Host.Outcome State Fault Refusal :=
  admitted (whenProgram (matrixRows s.fa) (olmcString s.fa) s) s fun s =>
    runStep (s1Acts s.timing) (startProgram (matrixRows s.fa) (olmcString s.fa) s)

/-- `S2` (R153). -/
def execS2 (s : State) : Host.Outcome State Fault Refusal :=
  admitted (whenAt .programmingModeEntered s) s fun s => runStep s2Acts s

/-- `S3` = `F.ERASE` (R154). -/
def execS3 (s : State) : Host.Outcome State Fault Refusal :=
  admitted (whenAt .writeModeEnabled s) s fun s => runStep (s3Acts s.timing) s

/-- `S4` (R155), over the latched rows (R36). -/
def execS4 (s : State) : Host.Outcome State Fault Refusal :=
  admitted (whenAt .erased s) s fun s => runStep (s4Acts s.timing s.rows) s

/-- `F.ROW` (R156): one iteration of step 4, during which `seq` stays `Erased` (R150). No address above 43 is a matrix
row's (R102). -/
def execFRow (r : Config.RowAddr) (data : Bits) (s : State) : Host.Outcome State Fault Refusal :=
  admitted
    (withOperand (decide (r.toNat < Config.nRows) && decide (data.length = Config.nCols)) (whenAt .erased s)) s
    fun s => runStep (fRowActs s.timing r data) s

/-- `S5` = `F.OLMC` (R160), over the latched OLMC bits (R36). -/
def execS5 (s : State) : Host.Outcome State Fault Refusal :=
  admitted (whenAt .matrixWritten s) s fun s => runStep (s5Acts s.timing s.olmc) s

/-- `S6` = `F.PDROW` (R162). -/
def execS6 (s : State) : Host.Outcome State Fault Refusal :=
  admitted (whenAt .olmcWritten s) s fun s => runStep (s6Acts s.timing) s

/-- `S7` (R163). -/
def execS7 (s : State) : Host.Outcome State Fault Refusal :=
  admitted (whenAt .powerDownRowWritten s) s fun s => runStep s7Acts s

/-- `S8` (R164). -/
def execS8 (s : State) : Host.Outcome State Fault Refusal :=
  admitted (whenAt .writeModeDisabled s) s fun s => runStep (s8Acts s.timing) s

/-- `ABORT` (R186): before `program`, it issues no event and changes no line. -/
def execAbort (s : State) : Host.Outcome State Fault Refusal :=
  admitted (whenAbort s) s fun s => .next (answer .ended s)

end Sys2Proof.Machine
end

