-- ==== Sys2Proof/Machine/Dispatch.lean ====
section
/-! DEFINITION. One arm for each operation of the map (R107). -/

namespace Sys2Proof.Machine

def exec (i : Instr) (s : State) : Host.Outcome State Fault Refusal :=
  match i with
  | .ldClear => Sys2Proof.Machine.execLdClear s
  | .ldLine line => Sys2Proof.Machine.execLdLine line s
  | .ldSkip line => Sys2Proof.Machine.execLdSkip line s
  | .ldPatch line => Sys2Proof.Machine.execLdPatch line s
  | .ldEof => Sys2Proof.Machine.execLdEof s
  | .ldIoErr => Sys2Proof.Machine.execLdIoErr s
  | .ldRow r => Sys2Proof.Machine.execLdRow r s
  | .ldOlmc => Sys2Proof.Machine.execLdOlmc s
  | .parse lines ioError => Sys2Proof.Machine.execParse lines ioError s
  | .setup => Sys2Proof.Machine.execSetup s
  | .setl role v => Sys2Proof.Machine.execSetl role v s
  | .wait t => Sys2Proof.Machine.execWait t s
  | .xbit b => Sys2Proof.Machine.execXbit b s
  | .strobe d => Sys2Proof.Machine.execStrobe d s
  | .shiftRow data a => Sys2Proof.Machine.execShiftRow data a s
  | .program rows olmc => Sys2Proof.Machine.execProgram rows olmc s
  | .s1 => Sys2Proof.Machine.execS1 s
  | .s2 => Sys2Proof.Machine.execS2 s
  | .s3 => Sys2Proof.Machine.execS3 s
  | .s4 => Sys2Proof.Machine.execS4 s
  | .fRow r data => Sys2Proof.Machine.execFRow r data s
  | .s5 => Sys2Proof.Machine.execS5 s
  | .s6 => Sys2Proof.Machine.execS6 s
  | .s7 => Sys2Proof.Machine.execS7 s
  | .s8 => Sys2Proof.Machine.execS8 s
  | .abort => Sys2Proof.Machine.execAbort s

end Sys2Proof.Machine
end

