-- ==== Sys2Proof/Machine/Fetch.lean ====
section
/-! DEFINITION. Taking the next command off the host's list. The block has no instruction memory (R50) and no entry
point: after reset it waits for host commands (R212). -/

namespace Sys2Proof.Machine

/-- The host's reset (R210, R228), a command of the model's list that is no operation of the map (log 17). -/
def resetByte : Byte := 0xFF#8

/-- What stands at the head of the command list. -/
inductive Fetched where
  /-- No command: the block waits (R212). -/
  | waiting
  /-- The host resets the block; `s` has the byte taken off. -/
  | reset (s : State)
  /-- An operation; `s` has its bytes taken off. -/
  | operation (i : Instr) (s : State)
  /-- Bytes that stand for no operation. -/
  | malformed (why : Reject)

/-- Reads the head of the command list. DESIGN CHOICE (logs 2, 17): a reset is taken between two operations; inside a running
`PROGRAM` or step it is a stop (R187) followed by a reset. -/
def fetch (s : State) : Fetched :=
  match s.cmd with
  | [] => .waiting
  | b :: rest =>
    if b = resetByte then .reset { s with cmd := rest }
    else
      match decode (b :: rest) with
      | .ok (i, rest') => .operation i { s with cmd := rest' }
      | .error why => .malformed why

/-- Where the sequence fetches a step: the fixed sequence takes step `k` when `seq` names the step before it (R33, R150),
so `seq` is the program counter of these operations. Other operations are taken wherever `seq` stands. -/
def fetchSeq (i : Instr) (q : Seq) : Seq :=
  match i with
  | .s1 => .idle
  | .s2 => .programmingModeEntered
  | .s3 => .writeModeEnabled
  | .s4 => .erased
  | .fRow _ _ => .erased
  | .s5 => .matrixWritten
  | .s6 => .olmcWritten
  | .s7 => .powerDownRowWritten
  | .s8 => .writeModeDisabled
  | .ldClear => q
  | .ldLine _ => q
  | .ldSkip _ => q
  | .ldPatch _ => q
  | .ldEof => q
  | .ldIoErr => q
  | .ldRow _ => q
  | .ldOlmc => q
  | .parse _ _ => q
  | .setup => q
  | .setl _ _ => q
  | .wait _ => q
  | .xbit _ => q
  | .strobe _ => q
  | .shiftRow _ _ => q
  | .program _ _ => q
  | .abort => q

/-- Puts the operation that the bytes begin with at the head of the command list, and the sequence where it fetches that
operation; bytes that stand for none are put there as they are (log 18). -/
def placeCommand (bytes : List Byte) (s : State) : State :=
  match decode bytes with
  | .ok (i, rest) => { s with cmd := bytes.take (bytes.length - rest.length) ++ s.cmd, seq := fetchSeq i s.seq }
  | .error _ => { s with cmd := bytes ++ s.cmd }

end Sys2Proof.Machine
end

