-- ==== Sys2Proof/Machine/Step.lean ====
section
/-! DEFINITION. One step of the block: one operation (log 2). Its events are issued one at a time by `issue` (D1). -/

namespace Sys2Proof.Machine

/-- Takes the next command and runs it. -/
def step (s : State) : Host.Outcome State Fault Refusal :=
  match fetch s with
  | .waiting => .next s
  | .reset s' => .next (hostReset s')
  | .operation i s' => exec i s'
  | .malformed why => .refused (.malformedCommand why)

/-- The state with a table word placed where the next step fetches its operation (log 18). -/
def State.withFetchWord (s : State) (nbits w : Nat) : State := placeCommand (tableBytes nbits w) s

end Sys2Proof.Machine
end

