-- ==== Sys2Proof/Safety.lean ====
section
/-! DEFINITION. The terms claims are stated in: calls that return, what a list of events does when its calls return,
the event list of `program` (R166), the frames a reader of the trace finds (R93, R101), the end of a run (R168) and the
invariant of the machine. -/

namespace Sys2Proof.Safety

open Sys2Proof.Machine

/-! ### Calls that return -/

/-- The environment lets the block's next `n` calls return (R195 to R198): a premise on the inputs alone. -/
def CallsReturn (n : Nat) (s : State) : Prop := ∀ m ∈ s.env.take n, m = EnvMove.ok

/-- Whether an event is a read. -/
def isRead : Event → Bool
  | .rd _ _ => true
  | .dir _ _ => false
  | .wr _ _ => false
  | .wait _ => false

/-- Whether an event is a wait. -/
def isWait : Event → Bool
  | .wait _ => true
  | .dir _ _ => false
  | .wr _ _ => false
  | .rd _ _ => false

/-- Whether an event is a line write. -/
def isWrite : Event → Bool
  | .wr _ _ => true
  | .dir _ _ => false
  | .rd _ _ => false
  | .wait _ => false

/-- The duration of a wait. -/
def waitOf : Event → Nat
  | .wait t => t
  | .dir _ _ => 0
  | .wr _ _ => 0
  | .rd _ _ => 0

/-- The events as the trace shows them from the `n`-th sample on: each read carries the device's level (R197). -/
def answeredFrom : Nat → List Event → List Event
  | _, [] => []
  | n, .rd role _ :: es => .rd role (some (Config.dataOutLevel n)) :: answeredFrom (n + 1) es
  | n, .dir role d :: es => .dir role d :: answeredFrom n es
  | n, .wr role v :: es => .wr role v :: answeredFrom n es
  | n, .wait t :: es => .wait t :: answeredFrom n es

/-- The pins after a list of events that returned: a level holds until the next write to its pin (R31, R65). -/
def pinsAfter (es : List Event) (p : Pins) : Pins := es.foldl (fun p e => pinEffect e p) p

/-- `sample` after `k` reads (R35). -/
def sampleAfter (k : Nat) (s : State) : Bool := if k = 0 then s.sample else Config.dataOutLevel (s.draws + k - 1)

/-- The state after a list of events whose calls all returned (R65): the events are in the trace in order, each took
effect on its pin, and nothing else changed. -/
def afterEvents (es : List Event) (s : State) : State :=
  { s with
    trace := s.trace ++ answeredFrom s.draws es
    evIdx := s.evIdx + es.length
    env := s.env.drop es.length
    pins := pinsAfter es s.pins
    sample := sampleAfter (es.countP isRead) s
    draws := s.draws + es.countP isRead }

/-- An event without the bit a read returned: what R166 lists. -/
def unanswered : Event → Event
  | .rd role _ => .rd role none
  | .dir role d => .dir role d
  | .wr role v => .wr role v
  | .wait t => .wait t

/-! ### The event list of `program` (R166) -/

/-- `X(b)`: the four events of one bit (R92). -/
def bitEvents (b : Bool) : List Event :=
  [.rd .dataOut none, .wr .clock false, .wr .dataIn b, .wr .clock true]

/-- Bits shifted in order. -/
def bitsEvents (bs : Bits) : List Event := bs.flatMap bitEvents

/-- The strobe of a written frame and its settling time (R156). -/
def commitEvents : List Event := [.wr .strobe false, .wait 5000, .wr .strobe true, .wait 10000]

/-- Step 1 (R152). -/
def s1Events : List Event := [.wr .clock true, .wr .strobe true, .wait 5000, .wr .program true, .wait 5000]
/-- Step 2 (R153). -/
def s2Events : List Event := [.wr .write true, .wr .accessOlmc false, .wr .erase false]
/-- Step 3 (R154). -/
def s3Events : List Event :=
  [.wr .erase true, .wait 10000, .wr .strobe false, .wait 30000, .wr .strobe true, .wait 10000, .wr .erase false]
/-- The six bits of a row address, bit 5 first (R56, R98). -/
def addressOrder (a : Config.RowAddr) : Bits :=
  [a.getLsbD 5, a.getLsbD 4, a.getLsbD 3, a.getLsbD 2, a.getLsbD 1, a.getLsbD 0]
/-- One row (R156): its data, its address bit 5 first, its strobe. -/
def rowEvents (r : Config.RowAddr) (data : Bits) : List Event :=
  bitsEvents data ++ bitsEvents (addressOrder r) ++ commitEvents
/-- Step 4 from row `r` on (R155). -/
def rowsEvents : Nat → List Bits → List Event
  | _, [] => []
  | r, data :: rest => rowEvents (BitVec.ofNat 6 r) data ++ rowsEvents (r + 1) rest
/-- Step 5 (R160). -/
def s5Events (olmc : Bits) : List Event :=
  [.wr .accessOlmc true] ++ bitsEvents olmc ++ commitEvents ++ [.wr .accessOlmc false]
/-- Step 6 (R162): 132 zeros, then 59 as `1 1 1 0 1 1`. -/
def s6Events : List Event :=
  bitsEvents (List.replicate 132 false) ++ bitsEvents [true, true, true, false, true, true] ++ commitEvents
/-- Step 7 (R163). -/
def s7Events : List Event := [.wr .write false, .wr .dataIn false]
/-- Step 8 (R164). -/
def s8Events : List Event := [.wr .program false, .wait 5000, .wr .strobe false, .wr .clock false, .wait 5000]

/-- The whole list of R166. -/
def programEvents (rows : List Bits) (olmc : Bits) : List Event :=
  s1Events ++ s2Events ++ s3Events ++ rowsEvents 0 rows ++ s5Events olmc ++ s6Events ++ s7Events ++ s8Events

/-- The fifteen events of `SETUP` (R130, in D16's order). -/
def setupEvents : List Event :=
  [.dir .program .output, .wr .program false, .dir .write .output, .wr .write false, .dir .erase .output,
    .wr .erase false, .dir .accessOlmc .output, .wr .accessOlmc false, .dir .clock .output, .wr .clock false,
    .dir .dataIn .output, .wr .dataIn false, .dir .dataOut .input, .dir .strobe .output, .wr .strobe false]

/-- The primitives but `SETUP`: a single line write, a wait, and R133 to R135. -/
def isPrimitive : Instr → Bool
  | .setl _ _ => true
  | .wait _ => true
  | .xbit _ => true
  | .strobe _ => true
  | .shiftRow _ _ => true
  | .ldClear => false
  | .ldLine _ => false
  | .ldSkip _ => false
  | .ldPatch _ => false
  | .ldEof => false
  | .ldIoErr => false
  | .ldRow _ => false
  | .ldOlmc => false
  | .parse _ _ => false
  | .setup => false
  | .program _ _ => false
  | .s1 => false
  | .s2 => false
  | .s3 => false
  | .s4 => false
  | .fRow _ _ => false
  | .s5 => false
  | .s6 => false
  | .s7 => false
  | .s8 => false
  | .abort => false

/-- The steps of the sequence and the row frame, presented by themselves (log 12). -/
def isStep : Instr → Bool
  | .s1 => true
  | .s2 => true
  | .s3 => true
  | .s4 => true
  | .fRow _ _ => true
  | .s5 => true
  | .s6 => true
  | .s7 => true
  | .s8 => true
  | .ldClear => false
  | .ldLine _ => false
  | .ldSkip _ => false
  | .ldPatch _ => false
  | .ldEof => false
  | .ldIoErr => false
  | .ldRow _ => false
  | .ldOlmc => false
  | .parse _ _ => false
  | .setup => false
  | .setl _ _ => false
  | .wait _ => false
  | .xbit _ => false
  | .strobe _ => false
  | .shiftRow _ _ => false
  | .program _ _ => false
  | .abort => false

/-- The events an operation issues where it is admitted and its calls return, at the source's times. -/
def eventsFor : Instr → State → List Event
  | .setup, _ => setupEvents
  | .setl role v, _ => [.wr role v]
  | .wait t, _ => [.wait t]
  | .xbit b, _ => bitEvents b
  | .strobe d, _ => if d = 0 then [.wr .strobe false, .wr .strobe true] else [.wr .strobe false, .wait d, .wr .strobe true]
  | .shiftRow data a, _ => bitsEvents data ++ bitsEvents (addressOrder a)
  | .program rows olmc, _ => programEvents rows olmc
  | .s1, _ => s1Events
  | .s2, _ => s2Events
  | .s3, _ => s3Events
  | .s4, s => rowsEvents 0 s.rows
  | .fRow r data, _ => rowEvents r data
  | .s5, s => s5Events s.olmc
  | .s6, _ => s6Events
  | .s7, _ => s7Events
  | .s8, _ => s8Events
  | .ldClear, _ => []
  | .ldLine _, _ => []
  | .ldSkip _, _ => []
  | .ldPatch _, _ => []
  | .ldEof, _ => []
  | .ldIoErr, _ => []
  | .ldRow _, _ => []
  | .ldOlmc, _ => []
  | .parse _ _, _ => []
  | .abort, _ => []

/-- The event index an operation's first event has: 0, but for the steps after the first, which count on (log 16). -/
def firstIndex : Instr → State → Nat
  | .s2, s => s.evIdx
  | .s3, s => s.evIdx
  | .s4, s => s.evIdx
  | .fRow _ _, s => s.evIdx
  | .s5, s => s.evIdx
  | .s6, s => s.evIdx
  | .s7, s => s.evIdx
  | .s8, s => s.evIdx
  | .s1, _ => 0
  | .setup, _ => 0
  | .setl _ _, _ => 0
  | .wait _, _ => 0
  | .xbit _, _ => 0
  | .strobe _, _ => 0
  | .shiftRow _ _, _ => 0
  | .program _ _, _ => 0
  | .ldClear, _ => 0
  | .ldLine _, _ => 0
  | .ldSkip _, _ => 0
  | .ldPatch _, _ => 0
  | .ldEof, _ => 0
  | .ldIoErr, _ => 0
  | .ldRow _, _ => 0
  | .ldOlmc, _ => 0
  | .parse _ _, _ => 0
  | .abort, _ => 0

/-- The six output pins configured and DATA_OUT an input (R130). -/
def Configured (p : Pins) : Prop :=
  p.dirn .program = .output ∧ p.dirn .write = .output ∧ p.dirn .erase = .output ∧ p.dirn .accessOlmc = .output ∧
    p.dirn .clock = .output ∧ p.dirn .dataIn = .output ∧ p.dirn .dataOut = .input ∧ p.dirn .strobe = .output

/-- The levels of the six output pins (R167's columns). -/
def Levels (p : Pins) (program shared erase accessOlmc clock strobe : Bool) : Prop :=
  p.level .program = program ∧ p.level .write = shared ∧ p.level .dataIn = shared ∧ p.level .erase = erase ∧
    p.level .accessOlmc = accessOlmc ∧ p.level .clock = clock ∧ p.level .strobe = strobe

/-! ### Reading frames from a trace (R93, R101, R105) -/

/-- A frame: the levels of ERASE and ACCESS_OLMC at its strobe, the bits shifted since the strobe before, and the width
of the strobe. -/
structure Frame where
  erase : Bool
  accessOlmc : Bool
  bits : Bits
  width : Nat
  deriving DecidableEq, Repr

/-- The command word `CW[7:0]`: ERASE, ACCESS_OLMC, and the last six bits shifted (R101). DESIGN CHOICE (log 23): where
fewer than six bits have been shifted, as at the erase strobe, the missing bits are 0 here; R101 says they are any, and no
statement rests on them. -/
def Frame.commandWord (f : Frame) : BitVec 8 :=
  BitVec.ofNat 8
    ((f.bits.drop (f.bits.length - 6)).foldl (fun n b => 2 * n + b.toNat) 0 + 64 * f.accessOlmc.toNat +
      128 * f.erase.toNat)

/-- What a reader of the trace remembers between two events. -/
structure Reader where
  data : Bool
  erase : Bool
  accessOlmc : Bool
  strobe : Bool
  /-- A `RD(DATA_OUT)` has begun a bit (R92). -/
  inBit : Bool
  /-- The pulse has begun: STROBE went from high to low (R134). -/
  inPulse : Bool
  bits : Bits
  width : Nat
  frames : List Frame
  deriving DecidableEq, Repr

/-- All lines low, as `SETUP` leaves them (R130). -/
def Reader.start : Reader :=
  { data := false, erase := false, accessOlmc := false, strobe := false, inBit := false, inPulse := false, bits := [],
    width := 0, frames := [] }

/-- The reader sees STROBE written: high to low begins a pulse, low to high closes it and the frame (R93, R134). -/
def Reader.seeStrobe (r : Reader) (v : Bool) : Reader :=
  if v then
    if r.inPulse then
      { r with strobe := true, inPulse := false, bits := [], width := 0,
               frames := r.frames ++ [{ erase := r.erase, accessOlmc := r.accessOlmc, bits := r.bits, width := r.width }] }
    else { r with strobe := true }
  else { r with strobe := false, inPulse := r.strobe || r.inPulse }

/-- The reader sees CLOCK written: the rising edge that ends a bit takes the level of the shared pin (R92). -/
def Reader.seeClock (r : Reader) (v : Bool) : Reader :=
  if v && r.inBit then { r with inBit := false, bits := r.bits ++ [r.data] } else r

/-- The reader sees one event. -/
def Reader.see (r : Reader) (e : Event) : Reader :=
  match e with
  | .wr .strobe v => r.seeStrobe v
  | .wr .clock v => r.seeClock v
  | .wr .write v => { r with data := v }
  | .wr .dataIn v => { r with data := v }
  | .wr .erase v => { r with erase := v }
  | .wr .accessOlmc v => { r with accessOlmc := v }
  | .wr .program _ => r
  | .wr .dataOut _ => r
  | .rd _ _ => { r with inBit := true }
  | .wait t => if r.inPulse then { r with width := r.width + t } else r
  | .dir _ _ => r

/-- The frames of a trace that begins with all lines low. -/
def framesOf (es : List Event) : List Frame := (es.foldl Reader.see Reader.start).frames

/-- The row frames from address `r` on (R94). -/
def rowFrames : Nat → List Bits → List Frame
  | _, [] => []
  | r, data :: rest =>
    { erase := false, accessOlmc := false, bits := data ++ addressOrder (BitVec.ofNat 6 r), width := 5000 } ::
      rowFrames (r + 1) rest

/-! ### Operations one after another -/

/-- The state after operations that each answer a next state. -/
def execAll : List Instr → State → Option State
  | [], s => some s
  | i :: is, s =>
    match exec i s with
    | .next s' => execAll is s'
    | .fault _ => none
    | .refused _ => none

/-- The command is turned away: no event, no state change, and the host gets back nothing (R228, D26, U17); the model notes
why (log 3). -/
def TurnedAway (i : Instr) (s : State) : Prop := ∃ why, exec i s = .next { s with reply := .nothing, turnedAway := some why }

/-- The state without what the device's samples put in it (R32, R35). -/
def withoutSamples (s : State) : State :=
  { s with
    sample := false
    draws := 0
    trace := s.trace.map unanswered
    reply :=
      match s.reply with
      | .sampled _ => .sampled false
      | r => r }

/-- An event without the bit it puts on DATA_IN. -/
def withoutData : Event → Event
  | .wr .dataIn _ => .wr .dataIn false
  | e => e

/-- The operations of the Fuse Map Loader (R107). -/
def isLoader : Instr → Bool
  | .ldClear => true
  | .ldLine _ => true
  | .ldSkip _ => true
  | .ldPatch _ => true
  | .ldEof => true
  | .ldIoErr => true
  | .ldRow _ => true
  | .ldOlmc => true
  | .parse _ _ => true
  | .setup => false
  | .setl _ _ => false
  | .wait _ => false
  | .xbit _ => false
  | .strobe _ => false
  | .shiftRow _ _ => false
  | .program _ _ => false
  | .s1 => false
  | .s2 => false
  | .s3 => false
  | .s4 => false
  | .fRow _ _ => false
  | .s5 => false
  | .s6 => false
  | .s7 => false
  | .s8 => false
  | .abort => false

/-! ### The end of a run (R168) -/

/-- The four ends of a run. -/
inductive RunEnd where
  | completed
  | loaderFault (f : LoaderFault)
  | userAbort
  | aborted
  deriving DecidableEq, Repr

/-- Whether the state at an end is final (R168's last column): an aborted run's never is (U1). -/
def RunEnd.isFinal : RunEnd → Bool
  | .completed => true
  | .loaderFault _ => true
  | .userAbort => true
  | .aborted => false

/-- Whether an end is a success: a completed run's is, and no other (R168). -/
def RunEnd.isSuccess : RunEnd → Bool
  | .completed => true
  | .loaderFault _ => false
  | .userAbort => false
  | .aborted => false

/-- The event drives a line high. -/
def drivesHigh : Event → Bool
  | .wr _ v => v
  | .dir _ _ => false
  | .rd _ _ => false
  | .wait _ => false

/-- An end of the sequence: `Aborted`, or back at `Idle` with the whole list of R166 as the latest events. DESIGN CHOICE
(log 24): `Aborted` is read from `seq` alone, so it is the end also where a F.ROW presented by itself (log 12) has left a
trace that is no prefix of R166's list, of which R168 says nothing. -/
def sequenceEnd (t : State) : Option RunEnd :=
  if t.seq = .aborted then some .aborted
  else if t.seq = .idle ∧ t.progUsed = true ∧ programEvents t.rows t.olmc <:+ t.trace.map unanswered then some .completed
  else none

/-- A failed parse: a loader fault once the file has ended, and no line ever driven high. -/
def loaderEnd (t : State) : Option RunEnd :=
  match t.ldr with
  | .fault f => if t.trace.any drivesHigh then none else some (.loaderFault f)
  | .empty => none
  | .loading => none
  | .valid => none

/-- An accepted abort: nothing in the trace but events of `SETUP`. DESIGN CHOICE (log 24): they are told by their value, not
by who issued them, so a trace of SETL writes that drive lines low counts too. -/
def abortEnd (t : State) : Option RunEnd :=
  if t.reply = .ended ∧ ∀ e ∈ t.trace, e ∈ setupEvents then some .userAbort else none

/-- The end, if any, that an operation brings a run to where it answers `t`: each row of R168's table with the operations
that reach it. A loader fault ends a run at `LD.EOF` or `LD.IOERR` (or `PARSE`, which performs them), not before. -/
def endOf (i : Instr) (t : State) : Option RunEnd :=
  if t.turnedAway.isSome then none
  else
    match i with
    | .ldEof => loaderEnd t
    | .ldIoErr => loaderEnd t
    | .parse _ _ => loaderEnd t
    | .abort => abortEnd t
    | .program _ _ => sequenceEnd t
    | .s1 => sequenceEnd t
    | .s2 => sequenceEnd t
    | .s3 => sequenceEnd t
    | .s4 => sequenceEnd t
    | .fRow _ _ => sequenceEnd t
    | .s5 => sequenceEnd t
    | .s6 => sequenceEnd t
    | .s7 => sequenceEnd t
    | .s8 => sequenceEnd t
    | .ldClear => none
    | .ldLine _ => none
    | .ldSkip _ => none
    | .ldPatch _ => none
    | .ldRow _ => none
    | .ldOlmc => none
    | .setup => none
    | .setl _ _ => none
    | .wait _ => none
    | .xbit _ => none
    | .strobe _ => none
    | .shiftRow _ _ => none

/-- The end of a run of operations. A final end stands, whatever is presented after it; an end that is not final stands
unless a later operation reaches another, and none does: `Aborted` is terminal (R185). DESIGN CHOICE (log 24): R168 gives
its rows no order where two hold of one state; the first that an operation reaches is taken. -/
def runEnd : List Instr → State → Option RunEnd
  | [], _ => none
  | i :: is, s =>
    match exec i s with
    | .next t =>
      match endOf i t with
      | some e => if e.isFinal then some e else (runEnd is t).or (some e)
      | none => runEnd is t
    | .fault _ => none
    | .refused _ => none

/-! ### The invariant -/

/-- Between two steps of a running sequence the lines are as R167 says: PROGRAM, CLOCK and STROBE high, and from step 2
on ERASE and ACCESS_OLMC low. `ProgrammingModeExited` is left at once, with no event (R164). -/
def LinesFollowSeq (q : Seq) (p : Pins) : Prop :=
  match q with
  | .idle => True
  | .aborted => True
  | .programmingModeExited => False
  | .programmingModeEntered => p.level .program = true ∧ p.level .clock = true ∧ p.level .strobe = true
  | .writeModeEnabled => Levels p true (p.level .write) false false true true
  | .erased => Levels p true (p.level .write) false false true true
  | .matrixWritten => Levels p true (p.level .write) false false true true
  | .olmcWritten => Levels p true (p.level .write) false false true true
  | .powerDownRowWritten => Levels p true (p.level .write) false false true true
  | .writeModeDisabled => Levels p true false false false true true

/-- What holds at reset and after every step. -/
structure Inv (s : State) : Prop where
  /-- The array is in its canonical form (R21, R22, R51). -/
  memory : Memory.wf s.fa = true
  /-- Before any line is taken the array is zero (R23). -/
  cleared : s.ldr = .empty → s.fa = []
  /-- The control registers hold their configured values (R27, R30), and the pins are distinct (R29). -/
  timing : s.timing = Config.params.timing
  pinsDistinct : s.pinMap.distinct = true
  /-- `setup_done` means that the lines are configured (R37, R130). -/
  configured : s.setupDone = true → Configured s.pins
  /-- The lines follow the sequence (R167). -/
  lines : LinesFollowSeq s.seq s.pins
  /-- The sequence is started by a `Valid` parse, set-up lines and the one call (R2, R151), which stay until a reset. -/
  started : s.seq ≠ .idle → s.ldr = .valid ∧ s.setupDone = true ∧ s.progUsed = true
  /-- The latched inputs have the sizes `PROGRAM` admits (R36, R151). -/
  latched : programOperands s.rows s.olmc = true

end Sys2Proof.Safety
end

