-- ==== Sys2Proof/Certificates/Slice0/Obligations.lean ====
section
/-! DEFINITION. The statements about the machine, for the provers. Where a statement asks that calls return
(`CallsReturn`), that is a premise on the environment's inputs alone; the failing cases have statements of their own.
THE MODEL'S OWN CHOICES in them: `reply` is the model's register for what R228 says the host gets back (log 4);
`TurnedAway` is its form of a refused command, for which the host gets back nothing, and `turnedAway` its note of why one
was refused (log 3); the end of a run is the first that is reached, and `aborted` is read from `seq` alone (log 24); a
step of the sequence presented by itself is turned away unless `seq` names the step before it, and step 1 where `PROGRAM`
would not be admitted (log 12), and a primitive is turned away unless `seq` is `Idle` (log 13); `evIdx` counts as log 16
says; the samples are free values (log 8). -/

open Sys2Proof Sys2Proof.Machine Sys2Proof.Safety

/-! ### Reset and the invariant -/

/-- R210: the values of 10_state section 8, right after reset and after a host reset from any state, which keeps the
configured constants (log 17). -/
def Obligations.ResetGivesStartOfLife : Prop :=
  ∀ s r : State, r = State.reset ∨ r = hostReset s →
    (∀ i, fuse r.fa i = false) ∧ r.ldr = .empty ∧ r.seq = .idle ∧ r.ustep = 0#2 ∧ r.setupDone = false ∧
      r.progUsed = false ∧ r.trace = [] ∧ (∀ role, r.pins.dirn role = .unconfigured) ∧
      (r = State.reset → r.timing = ⟨5000, 10000, 30000, 5000, 10000⟩) ∧
      (r = hostReset s → r.timing = s.timing ∧ r.pinMap = s.pinMap ∧ r.marker = s.marker)

/-- The invariant holds at reset. -/
def Obligations.InvariantAtReset : Prop := Inv State.reset

/-- The invariant is kept by every step, of every operation, however its calls end. -/
def Obligations.InvariantKeptByEveryStep : Prop := ∀ s s' : State, Inv s → step s = .next s' → Inv s'

/-! ### Encoding and fetch -/

/-- Decoding the encoding of a well-formed operation gives it back, and the bytes after it. -/
def Obligations.DecodeEncodeRoundTrip : Prop :=
  ∀ (i : Instr) (rest : List Byte), i.wf = true → decode (encode i ++ rest) = .ok (i, rest)

/-- Whatever the decoder reads is well formed. -/
def Obligations.DecodeYieldsWellFormed : Prop :=
  ∀ (bytes rest : List Byte) (i : Instr), decode bytes = .ok (i, rest) → i.wf = true

/-- R101's masks and matches tell the four frames apart; the row addresses R102 reserves are refused by name. -/
def Obligations.CommandWordsClassifyFrames : Prop :=
  ∀ (b : Byte) (rest : List Byte),
    (b &&& 0xC0#8 = 0x80#8 → decode (b :: rest) = .ok (.s3, rest)) ∧
    (b &&& 0xC0#8 = 0x40#8 → decode (b :: rest) = .ok (.s5, rest)) ∧
    (b = 0x3B#8 → decode (b :: rest) = .ok (.s6, rest)) ∧
    (b.toNat ≤ 43 → ∀ data : Bits, data.length = 132 →
      decode (b :: (data.map encodeBit ++ rest)) = .ok (.fRow (b.setWidth 6) data, rest)) ∧
    (43 < b.toNat → b.toNat ≤ 63 → b ≠ 0x3B#8 →
      decode (b :: rest) = .error (.reservedRowAddress (b.setWidth 6)))

/-- A few words written out from R101 and from the model's command codes (log 1). -/
def Obligations.SampleWordsDecode : Prop :=
  decodeTableWord 8 0x80 = some .s3 ∧ decodeTableWord 8 0x40 = some .s5 ∧ decodeTableWord 8 0x3B = some .s6 ∧
    decodeTableWord 8 0x2B = some (.fRow 43#6 (List.replicate 132 false)) ∧ decodeTableWord 8 0x2C = none ∧
    decode [0xC1#8, 0x2A#8, 0x4C#8, 0x0A#8] = .ok (.ldLine [0x2A#8, 0x4C#8], []) ∧
    decode [0xCA#8, 0x02#8, 0x01#8] = .ok (.setl .erase true, []) ∧
    decode [0xCB#8, 0x88#8, 0x13#8, 0x00#8, 0x00#8] = .ok (.wait 5000, []) ∧
    decode [0xDF#8] = .ok (.abort, [])

/-- A step runs the decoded operation, its bytes taken off the list and nothing else changed. -/
def Obligations.StepRunsDecodedOperation : Prop :=
  ∀ (s : State) (i : Instr) (rest : List Byte), s.cmd.head? ≠ some resetByte → decode s.cmd = .ok (i, rest) →
    step s = exec i { s with cmd := rest }

/-- With no command the block waits (R212); a reset byte resets it; other bytes that stand for no operation stop the
model by name (log 1). -/
def Obligations.StepWithoutOperation : Prop :=
  ∀ s : State,
    (s.cmd = [] → step s = .next s) ∧
    (∀ rest, s.cmd = resetByte :: rest → step s = .next (hostReset { s with cmd := rest })) ∧
    (∀ why, s.cmd ≠ [] → s.cmd.head? ≠ some resetByte → decode s.cmd = .error why →
      step s = .refused (.malformedCommand why))

/-- Every operation answers a next state in every state, and no step raises a fault, `HardwareFault` least of all. -/
def Obligations.OperationsAlwaysAnswer : Prop :=
  (∀ (i : Instr) (s : State), ∃ t, exec i s = .next t) ∧ ∀ (s : State) (f : Machine.Fault), step s ≠ .fault f

/-! ### The loader -/

/-- R110. -/
def Obligations.LdClearZeroesTheArray : Prop :=
  ∀ s : State,
    (s.seq = .idle → ∃ t, exec .ldClear s = .next t ∧ (∀ i, fuse t.fa i = false) ∧
      t = { s with fa := [], ldr := .empty, lineNo := 0, reply := .nothing, turnedAway := none }) ∧
    (s.seq ≠ .idle → TurnedAway .ldClear s)

/-- R111: refused past the end of the file or while `seq` is not `Idle`, dropped after a fault, else counted and handed
to `LD.PATCH` if its first two characters are the marker, and skipped if not. -/
def Obligations.LdLineTakesOneLine : Prop :=
  ∀ (line : Line) (s : State),
    ((s.seq ≠ .idle ∨ s.ldr = .valid) → TurnedAway (.ldLine line) s) ∧
    (s.seq = .idle → (∃ f, s.ldr = .fault f) →
      exec (.ldLine line) s = .next { s with reply := .nothing, turnedAway := none }) ∧
    (s.seq = .idle → s.ldr = .empty ∨ s.ldr = .loading →
      (2 ≤ line.length ∧ line.take 2 = [s.marker.first, s.marker.second] →
        exec (.ldLine line) s = exec (.ldPatch line) { s with ldr := .loading, lineNo := s.lineNo + 1 }) ∧
      (¬(2 ≤ line.length ∧ line.take 2 = [s.marker.first, s.marker.second]) →
        exec (.ldLine line) s =
          .next { s with ldr := .loading, lineNo := s.lineNo + 1, reply := .nothing, turnedAway := none }))

/-- R180: a base-address field that is not five decimal digits. Nothing but the status changes. -/
def Obligations.MalformedAddressFaults : Prop :=
  ∀ (line : Line) (s : State), s.seq = .idle → s.ldr = .empty ∨ s.ldr = .loading →
    line.take 2 = [s.marker.first, s.marker.second] →
    ¬(((line.drop 2).take 5).length = 5 ∧ ∀ ch ∈ (line.drop 2).take 5, 0x30 ≤ ch.toNat ∧ ch.toNat ≤ 0x39) →
      exec (.ldPatch line) s =
        .next { s with
          ldr := .fault (.formatAddr s.lineNo ((line.drop 2).take 5))
          reply := .loaderFault (.formatAddr s.lineNo ((line.drop 2).take 5)), turnedAway := none }

/-- R181: a record that would touch cell 8448 or beyond. No cell is written (R61). -/
def Obligations.OutOfRangeRecordFaults : Prop :=
  ∀ (line : Line) (s : State) (d0 d1 d2 d3 d4 : Byte) (b : Nat), s.seq = .idle → s.ldr = .empty ∨ s.ldr = .loading →
    line.take 2 = [s.marker.first, s.marker.second] → (line.drop 2).take 5 = [d0, d1, d2, d3, d4] →
    (∀ ch ∈ [d0, d1, d2, d3, d4], 0x30 ≤ ch.toNat ∧ ch.toNat ≤ 0x39) →
    b = (d0.toNat - 0x30) * 10000 + (d1.toNat - 0x30) * 1000 + (d2.toNat - 0x30) * 100 + (d3.toNat - 0x30) * 10 +
      (d4.toNat - 0x30) →
    8448 < b + (rtrim (line.drop 8)).length →
      exec (.ldPatch line) s =
        .next { s with
          base := BitVec.ofNat 17 b
          runLen := (rtrim (line.drop 8)).length
          ldr := .fault (.formatRange s.lineNo b (rtrim (line.drop 8)).length)
          reply := .loaderFault (.formatRange s.lineNo b (rtrim (line.drop 8)).length), turnedAway := none }

/-- R53, R58, R90: a record in range writes its run, leftmost character at the base address, `'0'` as 0 and anything else
as 1, and leaves every other cell and everything else of the state as it was. -/
def Obligations.RecordWritesItsRun : Prop :=
  ∀ (line : Line) (s : State) (d0 d1 d2 d3 d4 : Byte) (b : Nat), s.seq = .idle → s.ldr = .empty ∨ s.ldr = .loading →
    Memory.wf s.fa = true → line.take 2 = [s.marker.first, s.marker.second] →
    (line.drop 2).take 5 = [d0, d1, d2, d3, d4] →
    (∀ ch ∈ [d0, d1, d2, d3, d4], 0x30 ≤ ch.toNat ∧ ch.toNat ≤ 0x39) →
    b = (d0.toNat - 0x30) * 10000 + (d1.toNat - 0x30) * 1000 + (d2.toNat - 0x30) * 100 + (d3.toNat - 0x30) * 10 +
      (d4.toNat - 0x30) →
    b + (rtrim (line.drop 8)).length ≤ 8448 →
      ∃ t, exec (.ldPatch line) s = .next t ∧
        t = { s with
          fa := t.fa, base := BitVec.ofNat 17 b, runLen := (rtrim (line.drop 8)).length, ldr := .loading,
          reply := .nothing, turnedAway := none } ∧
        Memory.wf t.fa = true ∧
        (∀ j ch, (rtrim (line.drop 8))[j]? = some ch → fuse t.fa (b + j) = decide (ch ≠ 0x30#8)) ∧
        ∀ a, a < b ∨ b + (rtrim (line.drop 8)).length ≤ a → fuse t.fa a = fuse s.fa a

/-- What `LD.PATCH` does by itself with a line that is no record, past the end of the file, or after a fault (log 12). -/
def Obligations.LdPatchOutsideItsStates : Prop :=
  ∀ (line : Line) (s : State),
    (s.seq ≠ .idle ∨ s.ldr = .valid ∨ line.take 2 ≠ [s.marker.first, s.marker.second] → TurnedAway (.ldPatch line) s) ∧
    (s.seq = .idle → (∃ f, s.ldr = .fault f) → line.take 2 = [s.marker.first, s.marker.second] →
      exec (.ldPatch line) s = .next { s with reply := .nothing, turnedAway := none })

/-- R85: the run is the line from position 8 on without its trailing whitespace; what is removed is all of it and nothing
else, and a line of eight characters or fewer has an empty run. -/
def Obligations.RunLosesTrailingWhitespaceOnly : Prop :=
  (∀ l : List Byte,
    (∃ ws, l = rtrim l ++ ws ∧
      ∀ ch ∈ ws, ch ∈ [0x09#8, 0x0A#8, 0x0B#8, 0x0C#8, 0x0D#8, 0x20#8]) ∧
    ∀ ch, (rtrim l).getLast? = some ch → ch ∉ [0x09#8, 0x0A#8, 0x0B#8, 0x0C#8, 0x0D#8, 0x20#8]) ∧
  ∀ line : Line, runField line = rtrim (line.drop 8) ∧ (line.length ≤ 8 → runField line = [])

/-- R87: a file is cut at its line feeds, each line without its line feed, and a last line without one is still a line; a
carriage return stays in its line and goes with the run's trailing whitespace; no line is the end of the file. -/
def Obligations.FilesAreCutAtLineFeeds : Prop :=
  (∀ (lines : List Line) (last : Line), (∀ l ∈ lines, Line.wf l = true) → Line.wf last = true →
    splitLines (lines.flatMap fun l => l ++ [0x0A#8]) = lines ∧
    (last ≠ [] → splitLines ((lines.flatMap fun l => l ++ [0x0A#8]) ++ last) = lines ++ [last])) ∧
  (∀ line : Line, Line.wf line = true →
    splitLines (line ++ [0x0D#8, 0x0A#8]) = [line ++ [0x0D#8]] ∧ runField (line ++ [0x0D#8]) = runField line) ∧
  ∀ (line : Line) (s t : State), s.ldr ≠ .valid → exec (.ldLine line) s = .next t → t.ldr ≠ .valid

/-- R113: a line that is no record changes nothing. -/
def Obligations.LdSkipChangesNothing : Prop :=
  ∀ (line : Line) (s : State),
    (s.seq = .idle → s.ldr ≠ .valid → line.take 2 ≠ [s.marker.first, s.marker.second] →
      exec (.ldSkip line) s = .next { s with reply := .nothing, turnedAway := none }) ∧
    (s.seq ≠ .idle ∨ s.ldr = .valid ∨ line.take 2 = [s.marker.first, s.marker.second] → TurnedAway (.ldSkip line) s)

/-- R116: the end of the file makes an unfaulted parse valid; a fault stays, and ends the run where no line has been driven
high (R168), whatever is presented after it, an accepted `ABORT` included: that the first end stands is log 24. That a
`Valid` parse stays is log 14; the admission is D26's. -/
def Obligations.LdEofValidates : Prop :=
  ∀ s : State,
    (s.seq = .idle → s.ldr = .empty ∨ s.ldr = .loading →
      exec .ldEof s = .next { s with ldr := .valid, reply := .nothing, turnedAway := none }) ∧
    (s.seq = .idle → s.ldr ≠ .empty → s.ldr ≠ .loading →
      exec .ldEof s = .next { s with reply := .nothing, turnedAway := none }) ∧
    (∀ f, s.seq = .idle → s.ldr = .fault f → s.trace.any drivesHigh = false →
      ∀ is, runEnd (.ldEof :: is) s = some (.loaderFault f)) ∧
    (s.seq ≠ .idle → TurnedAway .ldEof s)

/-- R115: a file access failure faults the parse, unless it has faulted already. -/
def Obligations.LdIoErrFaults : Prop :=
  ∀ s : State,
    (s.seq = .idle → (∀ f, s.ldr ≠ .fault f) →
      exec .ldIoErr s = .next { s with ldr := .fault .ioError, reply := .loaderFault .ioError, turnedAway := none }) ∧
    (s.seq = .idle → (∃ f, s.ldr = .fault f) → exec .ldIoErr s = .next { s with reply := .nothing, turnedAway := none }) ∧
    (s.seq ≠ .idle → TurnedAway .ldIoErr s)

/-- R117: row `r` has 132 bits, column `c` from cell `c*44 + r`; refused unless the parse is valid, and while `seq` is not
`Idle` (log 14). -/
def Obligations.LdRowReadsItsCells : Prop :=
  ∀ (r : Nat) (s : State),
    (s.seq = .idle → s.ldr = .valid → r ≤ 43 →
      ∃ bits : Bits, exec (.ldRow r) s = .next { s with reply := .row bits, turnedAway := none } ∧ bits.length = 132 ∧
        ∀ c, c < 132 → bits[c]? = some (fuse s.fa (c * 44 + r))) ∧
    (s.seq ≠ .idle ∨ s.ldr ≠ .valid ∨ 43 < r → TurnedAway (.ldRow r) s)

/-- R118, R25: the OLMC string has 20 bits, each pair swapped; refused unless the parse is valid, and while `seq` is not
`Idle` (log 14). -/
def Obligations.LdOlmcReadsSwappedPairs : Prop :=
  ∀ s : State,
    (s.seq = .idle → s.ldr = .valid →
      ∃ bits : Bits, exec .ldOlmc s = .next { s with reply := .olmc bits, turnedAway := none } ∧ bits.length = 20 ∧
        ∀ k, k < 20 → bits[k]? = some (fuse s.fa (5808 + (k ^^^ 1)))) ∧
    (s.seq ≠ .idle ∨ s.ldr ≠ .valid → TurnedAway .ldOlmc s)

/-- R119: `PARSE` is `LD.CLEAR`, each line in order, `LD.IOERR` where the file could not be read on, `LD.EOF`; it gives
back the 44 rows and the OLMC string of a valid parse, or the fault. -/
def Obligations.ParseIsItsOperations : Prop :=
  ∀ (lines : List Line) (ioError : Bool) (s : State),
    (s.seq = .idle →
      ∃ t, execAll ([.ldClear] ++ lines.map .ldLine ++ (if ioError then [.ldIoErr] else []) ++ [.ldEof]) s = some t ∧
        ((t.ldr = .valid ∧
            exec (.parse lines ioError) s =
              .next { t with
                reply := .views ((List.range 44).map (matrixRow t.fa)) (olmcString t.fa), turnedAway := none }) ∨
          ∃ f, t.ldr = .fault f ∧
            exec (.parse lines ioError) s = .next { t with reply := .loaderFault f, turnedAway := none })) ∧
    (s.seq ≠ .idle → TurnedAway (.parse lines ioError) s)

/-- What `PARSE` gives depends on the lines and the marker alone, whatever the state it begins in. -/
def Obligations.ParseIsDeterministic : Prop :=
  ∀ (lines : List Line) (ioError : Bool) (s s' t t' : State), s.seq = .idle → s'.seq = .idle → s.marker = s'.marker →
    exec (.parse lines ioError) s = .next t → exec (.parse lines ioError) s' = .next t' →
      t.fa = t'.fa ∧ t.ldr = t'.ldr ∧ t.lineNo = t'.lineNo ∧ t.reply = t'.reply

/-- A loader fault is sticky, and the array of a valid parse does not change: only `LD.CLEAR`, and `PARSE` which begins
with it, change them; `LD.IOERR` alone takes a valid parse back. -/
def Obligations.LoaderOutcomeIsSticky : Prop :=
  ∀ (i : Instr) (s t : State), i ≠ .ldClear → (∀ ls e, i ≠ .parse ls e) → exec i s = .next t →
    (∀ f, s.ldr = .fault f → t.ldr = .fault f ∧ t.fa = s.fa ∧ t.lineNo = s.lineNo) ∧
    (s.ldr = .valid → t.fa = s.fa ∧ (i ≠ .ldIoErr → t.ldr = .valid))

/-! ### The primitives -/

/-- R130: fifteen events, in an order the statement leaves open (U20): the six output pins are low outputs, DATA_OUT is
an input, `setup_done` is set and no loader state is touched. A second `SETUP` issues the same events and leaves the same
pins. -/
def Obligations.SetupConfiguresTheLines : Prop :=
  ∀ s : State,
    (s.seq = .idle → CallsReturn 15 s →
      ∃ (t : State) (es : List Event), exec .setup s = .next t ∧ es.Perm setupEvents ∧
        t = { afterEvents es { s with evIdx := 0 } with setupDone := true, reply := .nothing, turnedAway := none } ∧
        Configured t.pins ∧ Levels t.pins false false false false false false) ∧
    (s.seq = .idle → CallsReturn 30 s → ∀ t u, exec .setup s = .next t → exec .setup t = .next u →
      u.pins = t.pins ∧ u.setupDone = true ∧ ∃ es, t.trace = s.trace ++ es ∧ u.trace = t.trace ++ es) ∧
    (s.seq ≠ .idle → TurnedAway .setup s)

/-- R131: one event, one pin, issued even where the level is already there. -/
def Obligations.SetlDrivesOnePin : Prop :=
  ∀ (role : Role) (v : Bool) (s : State),
    (s.seq = .idle → role ≠ .dataOut → CallsReturn 1 s →
      ∃ t, exec (.setl role v) s = .next t ∧
        t = { afterEvents [.wr role v] { s with evIdx := 0 } with reply := .nothing, turnedAway := none } ∧
        t.pins.level role = v ∧ ∀ other, pinOf other ≠ pinOf role → t.pins.get (pinOf other) = s.pins.get (pinOf other)) ∧
    (s.seq ≠ .idle ∨ role = .dataOut → TurnedAway (.setl role v) s)

/-- R132: one event; no line changes; a wait does not fail. -/
def Obligations.WaitRecordsItsDuration : Prop :=
  ∀ (t : Nat) (s : State),
    (s.seq = .idle →
      exec (.wait t) s =
        .next { s with
          trace := s.trace ++ [.wait t], evIdx := 1, env := s.env.tail, reply := .nothing, turnedAway := none }) ∧
    (s.seq ≠ .idle → TurnedAway (.wait t) s)

/-- R133: sample, CLOCK low, DATA_IN, CLOCK high; the sampled bit is the result. -/
def Obligations.XbitTransfersOneBit : Prop :=
  ∀ (b : Bool) (s : State),
    (s.seq = .idle → CallsReturn 4 s →
      ∃ t, exec (.xbit b) s = .next t ∧
        t = { s with
          sample := Config.dataOutLevel s.draws
          draws := s.draws + 1
          trace := s.trace ++
            [.rd .dataOut (some (Config.dataOutLevel s.draws)), .wr .clock false, .wr .dataIn b, .wr .clock true]
          pins := ((s.pins.drive .clock false).drive .dataIn b).drive .clock true
          ustep := 0#2
          evIdx := 4
          env := s.env.drop 4
          reply := .sampled (Config.dataOutLevel s.draws), turnedAway := none } ∧
        t.pins.level .clock = true ∧ t.pins.level .dataIn = b ∧ t.pins.level .write = b) ∧
    (s.seq ≠ .idle → TurnedAway (.xbit b) s)

/-- R134: STROBE low, a wait if the duration is not 0, STROBE high. -/
def Obligations.StrobePulses : Prop :=
  ∀ (d : Nat) (s : State),
    (s.seq = .idle → d = 0 → CallsReturn 2 s →
      ∃ t, exec (.strobe d) s = .next t ∧ t.pins.level .strobe = true ∧
        t = { afterEvents [.wr .strobe false, .wr .strobe true] { s with evIdx := 0 } with
          reply := .nothing, turnedAway := none }) ∧
    (s.seq = .idle → 0 < d → CallsReturn 3 s →
      ∃ t, exec (.strobe d) s = .next t ∧ t.pins.level .strobe = true ∧
        t = { afterEvents [.wr .strobe false, .wait d, .wr .strobe true] { s with evIdx := 0 } with
          reply := .nothing, turnedAway := none }) ∧
    (s.seq ≠ .idle → TurnedAway (.strobe d) s)

/-- R135: 138 bits, 552 events: the data left to right, then the address bit 5 first; the shared pin keeps bit 0. -/
def Obligations.ShiftRowShiftsDataThenAddress : Prop :=
  ∀ (data : Bits) (a : BitVec 6) (s : State),
    (s.seq = .idle → data.length = 132 → CallsReturn 552 s →
      ∃ t, exec (.shiftRow data a) s = .next t ∧
        t = { afterEvents (bitsEvents data ++ bitsEvents (addressOrder a)) { s with evIdx := 0 } with
          row := a, col := 137#8, ustep := 0#2, reply := .nothing, turnedAway := none } ∧
        t.evIdx = 552 ∧ t.pins.level .dataIn = a.getLsbD 0 ∧ t.pins.level .clock = true) ∧
    (s.seq ≠ .idle ∨ data.length ≠ 132 → TurnedAway (.shiftRow data a) s)

/-- WRITE and DATA_IN are one pin (R29): the level of either is the latest write to either, and their PINMAP entries are
equal; roles with different pins have different numbers where the map is as R29 asks. -/
def Obligations.WriteAndDataInShareAPin : Prop :=
  ∀ (p : Pins) (m : Config.PinMap) (v : Bool),
    (p.drive .write v).level .dataIn = v ∧ (p.drive .dataIn v).level .write = v ∧
      pinId m .write = pinId m .dataIn ∧
      (m.distinct = true → ∀ r r', pinId m r = pinId m r' → r = r' ∨ (r ∈ [Role.write, .dataIn] ∧ r' ∈ [Role.write, .dataIn]))

/-! ### The sequence -/

/-- R152. Presented by itself step 1 starts the sequence (log 12): it is admitted as `PROGRAM` is (R2, R151), spends the one
call and latches the loader's views (R36). -/
def Obligations.S1EntersProgrammingMode : Prop :=
  ∀ s : State, s.timing = Config.params.timing →
    (s.ldr = .valid → s.setupDone = true → s.seq = .idle → s.progUsed = false → CallsReturn 5 s →
      ∃ t, exec .s1 s = .next t ∧
        t = { afterEvents [.wr .clock true, .wr .strobe true, .wait 5000, .wr .program true, .wait 5000]
            { s with progUsed := true, rows := matrixRows s.fa, olmc := olmcString s.fa, evIdx := 0 } with
          seq := .programmingModeEntered, reply := .nothing, turnedAway := none } ∧
        t.pins.level .clock = true ∧ t.pins.level .strobe = true ∧ t.pins.level .program = true) ∧
    (s.ldr ≠ .valid ∨ s.setupDone = false ∨ s.seq ≠ .idle ∨ s.progUsed = true → TurnedAway .s1 s)

/-- R153. -/
def Obligations.S2EnablesWriteMode : Prop :=
  ∀ s : State,
    (s.seq = .programmingModeEntered → CallsReturn 3 s →
      ∃ t, exec .s2 s = .next t ∧
        t = { afterEvents [.wr .write true, .wr .accessOlmc false, .wr .erase false] s with
          seq := .writeModeEnabled, reply := .nothing, turnedAway := none } ∧
        t.pins.level .write = true ∧ t.pins.level .accessOlmc = false ∧ t.pins.level .erase = false) ∧
    (s.seq ≠ .programmingModeEntered → TurnedAway .s2 s)

/-- R154. -/
def Obligations.S3Erases : Prop :=
  ∀ s : State, s.timing = Config.params.timing →
    (s.seq = .writeModeEnabled → CallsReturn 7 s →
      ∃ t, exec .s3 s = .next t ∧
        t = { afterEvents
            [.wr .erase true, .wait 10000, .wr .strobe false, .wait 30000, .wr .strobe true, .wait 10000,
              .wr .erase false] s with seq := .erased, reply := .nothing, turnedAway := none } ∧
        t.pins.level .erase = false ∧ t.pins.level .strobe = true) ∧
    (s.seq ≠ .writeModeEnabled → TurnedAway .s3 s)

/-- R155: `n` rows of 556 events, addresses from 0; no event for no rows. -/
def Obligations.S4ProgramsTheRows : Prop :=
  ∀ s : State, s.timing = Config.params.timing → s.rows.length ≤ 44 → (∀ r ∈ s.rows, r.length = 132) →
    (s.seq = .erased → CallsReturn (556 * s.rows.length) s →
      ∃ t, exec .s4 s = .next t ∧ (rowsEvents 0 s.rows).length = 556 * s.rows.length ∧
        (s.rows = [] → t = { s with seq := .matrixWritten, reply := .nothing, turnedAway := none }) ∧
        (s.rows ≠ [] →
          t = { afterEvents (rowsEvents 0 s.rows) s with
            seq := .matrixWritten, row := BitVec.ofNat 6 (s.rows.length - 1), col := 137#8, ustep := 0#2,
            reply := .nothing, turnedAway := none })) ∧
    (s.seq ≠ .erased → TurnedAway .s4 s)

/-- R156, R157: 556 events; `seq` stays `Erased`; the shared pin keeps bit 0 of the address. Addresses above 43 are no
row's (R102). -/
def Obligations.FRowProgramsOneRow : Prop :=
  ∀ (r : BitVec 6) (data : Bits) (s : State), s.timing = Config.params.timing →
    (s.seq = .erased → r.toNat ≤ 43 → data.length = 132 → CallsReturn 556 s →
      ∃ t, exec (.fRow r data) s = .next t ∧
        t = { afterEvents
            (bitsEvents data ++ bitsEvents (addressOrder r) ++
              [.wr .strobe false, .wait 5000, .wr .strobe true, .wait 10000]) s with
          row := r, col := 137#8, ustep := 0#2, reply := .nothing, turnedAway := none } ∧
        t.evIdx = s.evIdx + 556 ∧ t.pins.level .write = r.getLsbD 0) ∧
    (s.seq ≠ .erased ∨ 43 < r.toNat ∨ data.length ≠ 132 → TurnedAway (.fRow r data) s)

/-- R160: 86 events; ACCESS_OLMC high around the 20 bits, the strobe and the wait; the shared pin keeps `olmc[19]`. -/
def Obligations.S5ProgramsTheOlmcWord : Prop :=
  ∀ s : State, s.timing = Config.params.timing → s.olmc.length = 20 →
    (s.seq = .matrixWritten → CallsReturn 86 s →
      ∃ t, exec .s5 s = .next t ∧
        t = { afterEvents
            ([.wr .accessOlmc true] ++ bitsEvents s.olmc ++
              [.wr .strobe false, .wait 5000, .wr .strobe true, .wait 10000] ++ [.wr .accessOlmc false]) s with
          seq := .olmcWritten, col := 19#8, ustep := 0#2, reply := .nothing, turnedAway := none } ∧
        t.evIdx = s.evIdx + 86 ∧ t.pins.level .accessOlmc = false ∧ s.olmc[19]? = some (t.pins.level .write)) ∧
    (s.seq ≠ .matrixWritten → TurnedAway .s5 s)

/-- R162: 132 zeros, address 59, 556 events, whatever was loaded. -/
def Obligations.S6WritesThePowerDownRow : Prop :=
  ∀ s : State, s.timing = Config.params.timing →
    (s.seq = .olmcWritten → CallsReturn 556 s →
      ∃ t, exec .s6 s = .next t ∧
        t = { afterEvents
            (bitsEvents (List.replicate 132 false) ++ bitsEvents [true, true, true, false, true, true] ++
              [.wr .strobe false, .wait 5000, .wr .strobe true, .wait 10000]) s with
          seq := .powerDownRowWritten, row := 59#6, col := 137#8, ustep := 0#2, reply := .nothing, turnedAway := none } ∧
        t.evIdx = s.evIdx + 556 ∧ t.pins.level .write = true) ∧
    (s.seq ≠ .olmcWritten → TurnedAway .s6 s)

/-- R163: two events on the one shared pin. -/
def Obligations.S7DisablesWriteMode : Prop :=
  ∀ s : State,
    (s.seq = .powerDownRowWritten → CallsReturn 2 s →
      ∃ t, exec .s7 s = .next t ∧
        t = { afterEvents [.wr .write false, .wr .dataIn false] s with
          seq := .writeModeDisabled, reply := .nothing, turnedAway := none } ∧
        t.pins.level .write = false) ∧
    (s.seq ≠ .powerDownRowWritten → TurnedAway .s7 s)

/-- R164: five events, STROBE low before CLOCK; `ProgrammingModeExited` is left at once for `Idle`. -/
def Obligations.S8ExitsProgrammingMode : Prop :=
  ∀ s : State, s.timing = Config.params.timing →
    (s.seq = .writeModeDisabled → CallsReturn 5 s →
      ∃ t, exec .s8 s = .next t ∧
        t = { afterEvents [.wr .program false, .wait 5000, .wr .strobe false, .wr .clock false, .wait 5000] s with
          seq := .idle, reply := .nothing, turnedAway := none } ∧
        t.pins.level .program = false ∧ t.pins.level .strobe = false ∧ t.pins.level .clock = false) ∧
    (s.seq ≠ .writeModeDisabled → TurnedAway .s8 s)

/-- R151, R166: an admitted `PROGRAM` whose calls return issues exactly the list of R166, leaves every output low, and
completes the run (R168). -/
def Obligations.ProgramIssuesItsEventList : Prop :=
  ∀ (rows : List Bits) (olmc : Bits) (s : State), s.timing = Config.params.timing → s.ldr = .valid →
    s.setupDone = true → s.seq = .idle → s.progUsed = false → rows.length ≤ 44 → (∀ r ∈ rows, r.length = 132) →
    olmc.length = 20 → CallsReturn (664 + 556 * rows.length) s →
      ∃ t, exec (.program rows olmc) s = .next t ∧
        t = { afterEvents (programEvents rows olmc)
            { s with progUsed := true, rows := rows, olmc := olmc, evIdx := 0 } with
          row := 59#6, col := 137#8, ustep := 0#2, reply := .nothing, turnedAway := none } ∧
        t.evIdx = 664 + 556 * rows.length ∧ Levels t.pins false false false false false false ∧
        ∀ is, runEnd (.program rows olmc :: is) s = some .completed

/-- R151: in any state, or with any operands, that it does not admit, `PROGRAM` is turned away. -/
def Obligations.ProgramIsAdmittedOnce : Prop :=
  ∀ (rows : List Bits) (olmc : Bits) (s : State),
    s.ldr ≠ .valid ∨ s.setupDone = false ∨ s.seq ≠ .idle ∨ s.progUsed = true ∨ 44 < rows.length ∨
      (∃ r ∈ rows, r.length ≠ 132) ∨ olmc.length ≠ 20 →
    TurnedAway (.program rows olmc) s

/-- `PROGRAM` is its eight steps one after another (R151): the same final state, where the inputs that step 1 latches are
`PROGRAM`'s operands; with the loader's views as operands they are what it latches (R36). -/
def Obligations.ProgramIsItsEightSteps : Prop :=
  ∀ (rows : List Bits) (olmc : Bits) (s : State), s.timing = Config.params.timing → s.ldr = .valid →
    s.setupDone = true → s.seq = .idle → s.progUsed = false → rows.length ≤ 44 → (∀ r ∈ rows, r.length = 132) →
    olmc.length = 20 → CallsReturn (664 + 556 * rows.length) s →
      ∃ t u : State, exec (.program rows olmc) s = .next t ∧ exec .s1 s = .next u ∧
        execAll [.s2, .s3, .s4, .s5, .s6, .s7, .s8] { u with rows := rows, olmc := olmc } = some t ∧
        (rows = matrixRows s.fa → olmc = olmcString s.fa →
          execAll [.s1, .s2, .s3, .s4, .s5, .s6, .s7, .s8] s = some t)

/-- R167 and R150: the line levels, `seq` and the event index at the end of each step, whatever inputs of the sizes
admitted are latched once step 1 has run (the loader's views, which it latches itself, among them). -/
def Obligations.LinesAndStatesAfterEachStep : Prop :=
  ∀ (rows : List Bits) (olmc : Bits) (s : State), s.timing = Config.params.timing → s.ldr = .valid →
    s.setupDone = true → s.seq = .idle → s.progUsed = false → rows.length ≤ 44 → (∀ r ∈ rows, r.length = 132) →
    olmc.length = 20 → CallsReturn (664 + 556 * rows.length) s → Levels s.pins false false false false false false →
      ∃ t1 t2 t3 t4 t5 t6 t7 t8 : State,
        exec .s1 s = .next t1 ∧ exec .s2 { t1 with rows := rows, olmc := olmc } = .next t2 ∧ exec .s3 t2 = .next t3 ∧
        exec .s4 t3 = .next t4 ∧ exec .s5 t4 = .next t5 ∧ exec .s6 t5 = .next t6 ∧ exec .s7 t6 = .next t7 ∧
        exec .s8 t7 = .next t8 ∧ t1.rows = matrixRows s.fa ∧ t1.olmc = olmcString s.fa ∧
        (t1.seq = .programmingModeEntered ∧ t1.evIdx = 5 ∧ Levels t1.pins true false false false true true) ∧
        (t2.seq = .writeModeEnabled ∧ t2.evIdx = 8 ∧ Levels t2.pins true true false false true true) ∧
        (t3.seq = .erased ∧ t3.evIdx = 15 ∧ Levels t3.pins true true false false true true) ∧
        (t4.seq = .matrixWritten ∧ t4.evIdx = 15 + 556 * rows.length ∧
          Levels t4.pins true (rows.length = 0 ∨ (rows.length - 1) % 2 = 1) false false true true) ∧
        (t5.seq = .olmcWritten ∧ t5.evIdx = 101 + 556 * rows.length ∧
          Levels t5.pins true (olmc.getD 19 false) false false true true) ∧
        (t6.seq = .powerDownRowWritten ∧ t6.evIdx = 657 + 556 * rows.length ∧
          Levels t6.pins true true false false true true) ∧
        (t7.seq = .writeModeDisabled ∧ t7.evIdx = 659 + 556 * rows.length ∧
          Levels t7.pins true false false false true true) ∧
        (t8.seq = .idle ∧ t8.evIdx = 664 + 556 * rows.length ∧ Levels t8.pins false false false false false false)

/-- R165: the totals of the list, for `n` rows; the sum of the waits in microseconds. -/
def Obligations.EventListTotals : Prop :=
  ∀ (rows : List Bits) (olmc : Bits), (∀ r ∈ rows, r.length = 132) → olmc.length = 20 →
    (programEvents rows olmc).length = 664 + 556 * rows.length ∧
    (programEvents rows olmc).countP isRead = 158 + 138 * rows.length ∧
    (programEvents rows olmc).countP isWait = 11 + 2 * rows.length ∧
    (programEvents rows olmc).countP isWrite = 495 + 416 * rows.length ∧
    ((programEvents rows olmc).map waitOf).sum = 100000 + 15000 * rows.length ∧
    (framesOf (programEvents rows olmc)).length = rows.length + 3

/-- R93 to R97: a reader of the list of R166 finds one erase frame, one frame a row in ascending order, one OLMC frame and
the power-down-disable row last (R219); and a reader of what an admitted `PROGRAM` whose calls return adds to the trace
finds the same. -/
def Obligations.ProgramEmitsItsFrames : Prop :=
  ∀ (rows : List Bits) (olmc : Bits),
    framesOf (programEvents rows olmc) =
      [{ erase := true, accessOlmc := false, bits := [], width := 30000 }] ++ rowFrames 0 rows ++
        [{ erase := false, accessOlmc := true, bits := olmc, width := 5000 },
          { erase := false, accessOlmc := false,
            bits := List.replicate 132 false ++ [true, true, true, false, true, true], width := 5000 }] ∧
    ∀ s : State, s.timing = Config.params.timing → whenProgram rows olmc s = none →
      CallsReturn (664 + 556 * rows.length) s →
        ∃ (t : State) (es : List Event), exec (.program rows olmc) s = .next t ∧ t.trace = s.trace ++ es ∧
          framesOf es = framesOf (programEvents rows olmc)

/-- R101: the command word of every frame of a run. The erase frame matches 0x80 under the mask 0xC0, its other bits being
any; the rows have 0 to `n-1`, the OLMC frame the string's last six bits, and the last frame `0x3B`. -/
def Obligations.CommandWordsOfARun : Prop :=
  ∀ (rows : List Bits) (olmc : Bits), rows.length ≤ 44 → olmc.length = 20 →
    ∃ w0 w : BitVec 8, w0 &&& 0xC0#8 = 0x80#8 ∧ w &&& 0xC0#8 = 0x40#8 ∧
      (∀ k, k < 6 → w.getLsbD (5 - k) = olmc.getD (14 + k) false) ∧
      (framesOf (programEvents rows olmc)).map Frame.commandWord =
        [w0] ++ (List.range rows.length).map (BitVec.ofNat 8) ++ [w, 0x3B#8]

/-- R166: the trace depends on the rows and the OLMC string only in the bits put on DATA_IN, however the calls end. -/
def Obligations.TraceShapeIgnoresContent : Prop :=
  ∀ (rows rows' : List Bits) (olmc olmc' : Bits) (s t t' : State), rows.length = rows'.length →
    whenProgram rows olmc s = none → whenProgram rows' olmc' s = none →
    exec (.program rows olmc) s = .next t → exec (.program rows' olmc') s = .next t' →
      t.trace.map withoutData = t'.trace.map withoutData ∧ t.seq = t'.seq ∧ t.evIdx = t'.evIdx

/-- R34: `seq` only ever advances to the next value of the list, returns to `Idle` at the end of step 8, or is `Aborted`; a
whole `PROGRAM` leaves it where it was or `Aborted`. R37, D27: `prog_used` and `setup_done`, once set, stay set, however the
calls end. -/
def Obligations.SeqOnlyAdvances : Prop :=
  ∀ (i : Instr) (s t : State), exec i s = .next t →
    (t.seq = s.seq ∨ t.seq = s.seq.succ ∨ t.seq = .aborted ∨ (s.seq = .writeModeDisabled ∧ t.seq = .idle)) ∧
    (∀ rows olmc, i = .program rows olmc → t.seq = s.seq ∨ t.seq = .aborted) ∧
    (s.progUsed = true → t.progUsed = true) ∧ (s.setupDone = true → t.setupDone = true)

/-! ### Faults, stops and what nothing writes -/

/-- R184: the `k`-th call of `program` fails. The events before it were issued and took effect, it is the last of the
trace, its own effect is as the environment says, `seq` is `Aborted`, and the record is the index and the call. -/
def Obligations.GpioFailureAbortsProgram : Prop :=
  ∀ (rows : List Bits) (olmc : Bits) (s : State) (k : Nat) (e : Event) (landed : Bool) (later : List EnvMove),
    s.timing = Config.params.timing → whenProgram rows olmc s = none → (programEvents rows olmc)[k]? = some e →
    isWait e = false → s.env = List.replicate k .ok ++ .fail landed :: later →
      ∃ t, exec (.program rows olmc) s = .next t ∧ t.seq = .aborted ∧ t.progUsed = true ∧
        t.trace = s.trace ++ answeredFrom s.draws ((programEvents rows olmc).take k) ++ [e] ∧
        t.pins =
          (if landed then pinEffect e (pinsAfter ((programEvents rows olmc).take k) s.pins)
           else pinsAfter ((programEvents rows olmc).take k) s.pins) ∧
        t.gpioFault = some ⟨k, e⟩ ∧ t.reply = .gpioFailure ⟨k, e⟩ ∧ t.env = later ∧ t.fa = s.fa ∧ t.ldr = s.ldr ∧
        ∀ is, runEnd (.program rows olmc :: is) s = some .aborted

/-- R184 outside `PROGRAM`. In `SETUP` the operation ends at the failing call, and `seq` and `setup_done` stay as they were.
In a primitive, and in a step or a row frame presented by itself, the events before the failing call were issued and took
effect, it is the last of the trace, its own effect is as the environment says, the index and the call are recorded, and
`seq` is `Aborted` inside the sequence and unchanged outside it. -/
def Obligations.GpioFailureEndsOperation : Prop :=
  (∀ (s : State) (k : Nat) (landed : Bool) (later : List EnvMove), s.seq = .idle → k < 15 →
    s.env = List.replicate k .ok ++ .fail landed :: later →
      ∃ (t : State) (es : List Event) (e : Event), exec .setup s = .next t ∧ es.Perm setupEvents ∧ es[k]? = some e ∧
        t.seq = .idle ∧ t.setupDone = s.setupDone ∧ t.trace = s.trace ++ es.take (k + 1) ∧ t.gpioFault = some ⟨k, e⟩ ∧
        t.reply = .gpioFailure ⟨k, e⟩ ∧ t.env = later ∧
        t.pins = (if landed then pinsAfter (es.take (k + 1)) s.pins else pinsAfter (es.take k) s.pins)) ∧
  ∀ (i : Instr) (s : State) (k : Nat) (e : Event) (landed : Bool) (later : List EnvMove),
    isPrimitive i = true ∨ isStep i = true → s.timing = Config.params.timing → ¬TurnedAway i s →
    (eventsFor i s)[k]? = some e → isWait e = false → s.env = List.replicate k .ok ++ .fail landed :: later →
      ∃ t, exec i s = .next t ∧ t.seq = (if isStep i then .aborted else s.seq) ∧ t.setupDone = s.setupDone ∧
        t.trace = s.trace ++ answeredFrom s.draws ((eventsFor i s).take k) ++ [e] ∧
        t.pins =
          (if landed then pinEffect e (pinsAfter ((eventsFor i s).take k) s.pins)
           else pinsAfter ((eventsFor i s).take k) s.pins) ∧
        t.gpioFault = some ⟨firstIndex i s + k, e⟩ ∧ t.reply = .gpioFailure ⟨firstIndex i s + k, e⟩ ∧ t.env = later ∧
        t.fa = s.fa ∧ t.ldr = s.ldr

/-- R187 and D20's second option (log 7): stopped before its `k`-th event, the sequence is `Aborted`, the trace is a
proper prefix of the list and the lines keep their last levels: PROGRAM stays high from step 1 to step 8 (R222). The same of
a step or a row frame presented by itself, with its own events. -/
def Obligations.StopLeavesAProperPrefix : Prop :=
  (∀ (rows : List Bits) (olmc : Bits) (s : State) (k : Nat) (later : List EnvMove),
    s.timing = Config.params.timing → whenProgram rows olmc s = none → k < (programEvents rows olmc).length →
    s.env = List.replicate k .ok ++ .stop :: later →
      ∃ t, exec (.program rows olmc) s = .next t ∧ t.seq = .aborted ∧
        t.trace = s.trace ++ answeredFrom s.draws ((programEvents rows olmc).take k) ∧
        t.pins = pinsAfter ((programEvents rows olmc).take k) s.pins ∧ t.gpioFault = s.gpioFault ∧
        (∀ is, runEnd (.program rows olmc :: is) s = some .aborted) ∧
        (4 ≤ k → k ≤ 659 + 556 * rows.length → t.pins.level .program = true)) ∧
  ∀ (i : Instr) (s : State) (k : Nat) (later : List EnvMove), isStep i = true → s.timing = Config.params.timing →
    ¬TurnedAway i s → k < (eventsFor i s).length → s.env = List.replicate k .ok ++ .stop :: later →
      ∃ t, exec i s = .next t ∧ t.seq = .aborted ∧
        t.trace = s.trace ++ answeredFrom s.draws ((eventsFor i s).take k) ∧
        t.pins = pinsAfter ((eventsFor i s).take k) s.pins ∧ t.gpioFault = s.gpioFault ∧ t.env = later ∧ t.fa = s.fa ∧
        t.ldr = s.ldr ∧ ∀ is, runEnd (i :: is) s = some .aborted

/-- R185: in `Aborted` every operation is turned away, so no line moves; only a reset leaves it. No operation presented
then reaches an end of the run, so none makes an aborted run final or a success (R168, U1). -/
def Obligations.AbortedIsTerminal : Prop :=
  ∀ s : State, s.seq = .aborted →
    (∀ i, TurnedAway i s) ∧ (∀ is, runEnd is s = none) ∧
    ∀ rest, s.cmd = resetByte :: rest → ∃ t, step s = .next t ∧ t.seq = .idle

/-- R186: before `program` an abort is a normal end; it issues no event and changes no line, so lines that are
unconfigured or low stay so. With nothing but events of `SETUP` in the trace it ends the run (R168). -/
def Obligations.AbortBeforeProgram : Prop :=
  ∀ s : State,
    (s.seq = .idle → s.progUsed = false → exec .abort s = .next { s with reply := .ended, turnedAway := none } ∧
      ((∀ e ∈ s.trace, e ∈ setupEvents) → ∀ is, runEnd (.abort :: is) s = some .userAbort)) ∧
    (s.seq ≠ .idle ∨ s.progUsed = true → TurnedAway .abort s)

/-- R27: no operation writes the control registers, the line assignments and the timing constants. -/
def Obligations.ControlRegistersAreReadOnly : Prop :=
  ∀ (i : Instr) (s t : State), exec i s = .next t → t.timing = s.timing ∧ t.pinMap = s.pinMap

/-- The trace only grows: no operation takes back or reorders an event (R65). -/
def Obligations.TraceOnlyGrows : Prop := ∀ (i : Instr) (s t : State), exec i s = .next t → s.trace <+: t.trace

/-- R35: nothing depends on the sampled bits. Two runs of an operation that draw different samples differ in the samples
alone. -/
def Obligations.NothingDependsOnSamples : Prop :=
  ∀ (i : Instr) (s t t' : State) (n : Nat) (b : Bool), exec i s = .next t →
    exec i { s with draws := n, sample := b } = .next t' → withoutSamples t = withoutSamples t'

/-- The loader and the programmer keep apart: no loader operation touches a line, the trace or anything else of the
programmer, and no other operation writes the array or anything else of the loader (R67, R68). -/
def Obligations.LoaderAndProgrammerKeepApart : Prop :=
  ∀ (i : Instr) (s t : State), exec i s = .next t →
    (isLoader i = true →
      t = { s with
        fa := t.fa, ldr := t.ldr, base := t.base, runLen := t.runLen, lineNo := t.lineNo, reply := t.reply,
        turnedAway := t.turnedAway }) ∧
    (isLoader i = false →
      t.fa = s.fa ∧ t.ldr = s.ldr ∧ t.base = s.base ∧ t.runLen = s.runLen ∧ t.lineNo = s.lineNo ∧ t.marker = s.marker ∧
        t.cmd = s.cmd)
end

