-- ==== Sys2Proof/Laws/Memory.lean ====
section
/-! SUPPORT. The laws of the array and of the pins: a read after a write, and the canonical form kept. -/

namespace Sys2Proof.Machine

/-! ### The array -/

@[simp] theorem Memory.read_nil (i : Nat) : Memory.read [] i = Memory.unlisted := rfl

theorem Memory.read_cons (a : Nat) (v : Byte) (m : List Host.Cell) (i : Nat) :
    Memory.read ((a, v) :: m) i = if i = a then v else Memory.read m i := rfl

/-- A cell below every listed address is unlisted. -/
theorem Memory.read_below {lo : Nat} {m : List Host.Cell} (h : Memory.wfFrom lo m = true) {i : Nat} (hi : i < lo) :
    Memory.read m i = Memory.unlisted := by
  induction m generalizing lo with
  | nil => rfl
  | cons c m ih =>
    obtain ⟨a, v⟩ := c
    simp only [Memory.wfFrom, Bool.and_eq_true, decide_eq_true_eq] at h
    rw [Memory.read_cons, if_neg (by omega)]
    exact ih h.2 (by omega)

/-- A read after a write, in an array whose addresses rise. -/
theorem Memory.read_write {lo : Nat} {m : List Host.Cell} (h : Memory.wfFrom lo m = true) (i : Nat) (x : Byte)
    (j : Nat) : Memory.read (Memory.write m i x) j = if j = i then x else Memory.read m j := by
  induction m generalizing lo with
  | nil =>
    unfold Memory.write
    split
    · next hx => subst hx; simp
    · rw [Memory.read_cons]
  | cons c m ih =>
    obtain ⟨a, v⟩ := c
    simp only [Memory.wfFrom, Bool.and_eq_true, decide_eq_true_eq] at h
    have below : i < a + 1 → Memory.read m i = Memory.unlisted := Memory.read_below h.2
    unfold Memory.write
    split
    · next hia =>
      split
      · next hx =>
        split
        · next hj => subst hj hx; rw [Memory.read_cons, if_neg (by omega), below (by omega)]
        · rfl
      · rw [Memory.read_cons]
    · split
      · next hne hia =>
        subst hia
        split
        · next hx =>
          split
          · next hj => subst hj hx; exact below (by omega)
          · next hj => rw [Memory.read_cons, if_neg hj]
        · rw [Memory.read_cons, Memory.read_cons]
          split <;> rfl
      · next h1 h2 =>
        rw [Memory.read_cons, ih h.2, Memory.read_cons]
        by_cases hj : j = a
        · subst hj; simp [show j ≠ i by omega]
        · simp [hj]

/-- The canonical form may be read from a lower cell. -/
theorem Memory.wfFrom_mono {lo lo' : Nat} {m : List Host.Cell} (h : Memory.wfFrom lo m = true) (hl : lo' ≤ lo) :
    Memory.wfFrom lo' m = true := by
  cases m with
  | nil => rfl
  | cons c m =>
    simp only [Memory.wfFrom, Bool.and_eq_true, decide_eq_true_eq] at h ⊢
    exact ⟨⟨⟨by omega, h.1.1.2⟩, h.1.2⟩, h.2⟩

/-- Writing a bit inside the array keeps the canonical form. -/
theorem Memory.wfFrom_write {lo : Nat} {m : List Host.Cell} (h : Memory.wfFrom lo m = true) {i : Nat} (hlo : lo ≤ i)
    (hi : i < Config.faLen) (b : Bool) : Memory.wfFrom lo (Memory.write m i (Memory.ofBit b)) = true := by
  have hb : ¬Memory.ofBit b = Memory.unlisted → Memory.ofBit b = Memory.ofBit true := by cases b <;> decide
  induction m generalizing lo with
  | nil =>
    unfold Memory.write
    split
    · rfl
    · next hx =>
      simp only [Memory.wfFrom, Bool.and_eq_true, decide_eq_true_eq, Bool.and_true]
      exact ⟨⟨hlo, hi⟩, hb hx⟩
  | cons c m ih =>
    obtain ⟨a, v⟩ := c
    have h' := h
    simp only [Memory.wfFrom, Bool.and_eq_true, decide_eq_true_eq] at h
    obtain ⟨⟨⟨h1, h2⟩, h3⟩, h4⟩ := h
    unfold Memory.write
    split
    · next hia =>
      split
      · exact h'
      · next hx =>
        simp only [Memory.wfFrom, Bool.and_eq_true, decide_eq_true_eq]
        exact ⟨⟨⟨hlo, hi⟩, hb hx⟩, ⟨⟨by omega, h2⟩, h3⟩, h4⟩
    · split
      · next hia =>
        subst hia
        split
        · exact Memory.wfFrom_mono h4 (by omega)
        · next hx =>
          simp only [Memory.wfFrom, Bool.and_eq_true, decide_eq_true_eq]
          exact ⟨⟨⟨hlo, hi⟩, hb hx⟩, h4⟩
      · simp only [Memory.wfFrom, Bool.and_eq_true, decide_eq_true_eq]
        exact ⟨⟨⟨h1, h2⟩, h3⟩, ih h4 (by omega)⟩

@[simp] theorem fuse_nil (i : Nat) : fuse [] i = false := by simp [fuse]

/-- A cell after one cell is written. -/
theorem fuse_setFuse {m : List Host.Cell} (h : Memory.wf m = true) (i : Nat) (b : Bool) (j : Nat) :
    fuse (setFuse m i b) j = if j = i then b else fuse m j := by
  unfold fuse setFuse
  rw [Memory.read_write h]
  split
  · cases b <;> decide
  · rfl

theorem setFuse_wf {m : List Host.Cell} (h : Memory.wf m = true) {i : Nat} (hi : i < Config.faLen) (b : Bool) :
    Memory.wf (setFuse m i b) = true := Memory.wfFrom_write h (Nat.zero_le i) hi b

/-- `MemWrite` inside the array keeps the canonical form. -/
theorem memWrite_wf {m : List Host.Cell} (h : Memory.wf m = true) {a : Nat} {bs : Bits}
    (hb : a + bs.length ≤ Config.faLen) : Memory.wf (memWrite m a bs) = true := by
  induction bs generalizing m a with
  | nil => exact h
  | cons b bs ih =>
    rw [List.length_cons] at hb
    exact ih (setFuse_wf h (by omega) b) (by omega)

/-- A cell after `MemWrite` inside the array: the run's bit where it was written, else what it held (R53). -/
theorem fuse_memWrite {m : List Host.Cell} (h : Memory.wf m = true) {a : Nat} {bs : Bits}
    (hb : a + bs.length ≤ Config.faLen) (j : Nat) :
    fuse (memWrite m a bs) j = if a ≤ j ∧ j < a + bs.length then bs.getD (j - a) false else fuse m j := by
  induction bs generalizing m a with
  | nil => simp [memWrite]; omega
  | cons b bs ih =>
    rw [List.length_cons] at hb
    rw [memWrite, ih (setFuse_wf h (by omega) b) (by omega), fuse_setFuse h, List.length_cons]
    by_cases hj : j = a
    · subst hj
      rw [if_neg (by omega), if_pos rfl, if_pos ⟨by omega, by omega⟩, Nat.sub_self, List.getD_cons_zero]
    · by_cases hr : a + 1 ≤ j ∧ j < a + 1 + bs.length
      · rw [if_pos hr, if_pos ⟨by omega, by omega⟩, show j - a = (j - (a + 1)) + 1 by omega, List.getD_cons_succ]
      · rw [if_neg hr, if_neg hj, if_neg (by omega)]

/-! ### The pins -/

@[simp] theorem Pins.get_set_same (p : Pins) (k : Pin) (x : PinState) : (p.set k x).get k = x := by cases k <;> rfl

theorem Pins.get_set_other (p : Pins) {k k' : Pin} (h : k' ≠ k) (x : PinState) : (p.set k x).get k' = p.get k' := by
  cases k <;> cases k' <;> first | rfl | exact absurd rfl h

/-- A level after a write: the written one on the same pin, else what it was (R31). -/
theorem Pins.level_drive (p : Pins) (role role' : Role) (v : Bool) :
    (p.drive role v).level role' = if pinOf role' = pinOf role then v else p.level role' := by
  unfold Pins.level Pins.drive
  split
  · next h => rw [h, Pins.get_set_same]
  · next h => rw [Pins.get_set_other _ h]

/-- A write leaves every direction alone. -/
@[simp] theorem Pins.dirn_drive (p : Pins) (role role' : Role) (v : Bool) :
    (p.drive role v).dirn role' = p.dirn role' := by
  unfold Pins.dirn Pins.drive
  by_cases h : pinOf role' = pinOf role
  · rw [h, Pins.get_set_same]
  · rw [Pins.get_set_other _ h]

/-- Setting a direction leaves every level alone. -/
@[simp] theorem Pins.level_direct (p : Pins) (role role' : Role) (d : Dirn) :
    (p.direct role d).level role' = p.level role' := by
  unfold Pins.level Pins.direct
  by_cases h : pinOf role' = pinOf role
  · rw [h, Pins.get_set_same]
  · rw [Pins.get_set_other _ h]

/-- A direction after it is set. -/
theorem Pins.dirn_direct (p : Pins) (role role' : Role) (d : Dirn) :
    (p.direct role d).dirn role' = if pinOf role' = pinOf role then d else p.dirn role' := by
  unfold Pins.dirn Pins.direct
  split
  · next h => rw [h, Pins.get_set_same]
  · next h => rw [Pins.get_set_other _ h]

end Sys2Proof.Machine
end

