-- ==== Sys2Proof/Laws/State.lean ====
section
/-! SUPPORT. One lemma for each field of each named update of the state. -/

namespace Sys2Proof.Machine

/-! ### `answer` -/

@[simp] theorem answer_fa (r : Reply) (s : State) : (answer r s).fa = s.fa := rfl
@[simp] theorem answer_ldr (r : Reply) (s : State) : (answer r s).ldr = s.ldr := rfl
@[simp] theorem answer_base (r : Reply) (s : State) : (answer r s).base = s.base := rfl
@[simp] theorem answer_runLen (r : Reply) (s : State) : (answer r s).runLen = s.runLen := rfl
@[simp] theorem answer_lineNo (r : Reply) (s : State) : (answer r s).lineNo = s.lineNo := rfl
@[simp] theorem answer_marker (r : Reply) (s : State) : (answer r s).marker = s.marker := rfl
@[simp] theorem answer_pinMap (r : Reply) (s : State) : (answer r s).pinMap = s.pinMap := rfl
@[simp] theorem answer_timing (r : Reply) (s : State) : (answer r s).timing = s.timing := rfl
@[simp] theorem answer_pins (r : Reply) (s : State) : (answer r s).pins = s.pins := rfl
@[simp] theorem answer_seq (r : Reply) (s : State) : (answer r s).seq = s.seq := rfl
@[simp] theorem answer_row (r : Reply) (s : State) : (answer r s).row = s.row := rfl
@[simp] theorem answer_col (r : Reply) (s : State) : (answer r s).col = s.col := rfl
@[simp] theorem answer_ustep (r : Reply) (s : State) : (answer r s).ustep = s.ustep := rfl
@[simp] theorem answer_evIdx (r : Reply) (s : State) : (answer r s).evIdx = s.evIdx := rfl
@[simp] theorem answer_sample (r : Reply) (s : State) : (answer r s).sample = s.sample := rfl
@[simp] theorem answer_rows (r : Reply) (s : State) : (answer r s).rows = s.rows := rfl
@[simp] theorem answer_olmc (r : Reply) (s : State) : (answer r s).olmc = s.olmc := rfl
@[simp] theorem answer_setupDone (r : Reply) (s : State) : (answer r s).setupDone = s.setupDone := rfl
@[simp] theorem answer_progUsed (r : Reply) (s : State) : (answer r s).progUsed = s.progUsed := rfl
@[simp] theorem answer_gpioFault (r : Reply) (s : State) : (answer r s).gpioFault = s.gpioFault := rfl
@[simp] theorem answer_trace (r : Reply) (s : State) : (answer r s).trace = s.trace := rfl
@[simp] theorem answer_reply (r : Reply) (s : State) : (answer r s).reply = r := rfl
@[simp] theorem answer_turnedAway (r : Reply) (s : State) : (answer r s).turnedAway = none := rfl
@[simp] theorem answer_cmd (r : Reply) (s : State) : (answer r s).cmd = s.cmd := rfl
@[simp] theorem answer_env (r : Reply) (s : State) : (answer r s).env = s.env := rfl
@[simp] theorem answer_draws (r : Reply) (s : State) : (answer r s).draws = s.draws := rfl

/-! ### `refuse` -/

@[simp] theorem refuse_fa (why : TurnAway) (s : State) : (refuse why s).fa = s.fa := rfl
@[simp] theorem refuse_ldr (why : TurnAway) (s : State) : (refuse why s).ldr = s.ldr := rfl
@[simp] theorem refuse_base (why : TurnAway) (s : State) : (refuse why s).base = s.base := rfl
@[simp] theorem refuse_runLen (why : TurnAway) (s : State) : (refuse why s).runLen = s.runLen := rfl
@[simp] theorem refuse_lineNo (why : TurnAway) (s : State) : (refuse why s).lineNo = s.lineNo := rfl
@[simp] theorem refuse_marker (why : TurnAway) (s : State) : (refuse why s).marker = s.marker := rfl
@[simp] theorem refuse_pinMap (why : TurnAway) (s : State) : (refuse why s).pinMap = s.pinMap := rfl
@[simp] theorem refuse_timing (why : TurnAway) (s : State) : (refuse why s).timing = s.timing := rfl
@[simp] theorem refuse_pins (why : TurnAway) (s : State) : (refuse why s).pins = s.pins := rfl
@[simp] theorem refuse_seq (why : TurnAway) (s : State) : (refuse why s).seq = s.seq := rfl
@[simp] theorem refuse_row (why : TurnAway) (s : State) : (refuse why s).row = s.row := rfl
@[simp] theorem refuse_col (why : TurnAway) (s : State) : (refuse why s).col = s.col := rfl
@[simp] theorem refuse_ustep (why : TurnAway) (s : State) : (refuse why s).ustep = s.ustep := rfl
@[simp] theorem refuse_evIdx (why : TurnAway) (s : State) : (refuse why s).evIdx = s.evIdx := rfl
@[simp] theorem refuse_sample (why : TurnAway) (s : State) : (refuse why s).sample = s.sample := rfl
@[simp] theorem refuse_rows (why : TurnAway) (s : State) : (refuse why s).rows = s.rows := rfl
@[simp] theorem refuse_olmc (why : TurnAway) (s : State) : (refuse why s).olmc = s.olmc := rfl
@[simp] theorem refuse_setupDone (why : TurnAway) (s : State) : (refuse why s).setupDone = s.setupDone := rfl
@[simp] theorem refuse_progUsed (why : TurnAway) (s : State) : (refuse why s).progUsed = s.progUsed := rfl
@[simp] theorem refuse_gpioFault (why : TurnAway) (s : State) : (refuse why s).gpioFault = s.gpioFault := rfl
@[simp] theorem refuse_trace (why : TurnAway) (s : State) : (refuse why s).trace = s.trace := rfl
@[simp] theorem refuse_reply (why : TurnAway) (s : State) : (refuse why s).reply = .nothing := rfl
@[simp] theorem refuse_turnedAway (why : TurnAway) (s : State) : (refuse why s).turnedAway = some why := rfl
@[simp] theorem refuse_cmd (why : TurnAway) (s : State) : (refuse why s).cmd = s.cmd := rfl
@[simp] theorem refuse_env (why : TurnAway) (s : State) : (refuse why s).env = s.env := rfl
@[simp] theorem refuse_draws (why : TurnAway) (s : State) : (refuse why s).draws = s.draws := rfl

/-! ### `takeLoaderFault` -/

@[simp] theorem takeLoaderFault_fa (f : LoaderFault) (s : State) : (takeLoaderFault f s).fa = s.fa := rfl
@[simp] theorem takeLoaderFault_ldr (f : LoaderFault) (s : State) : (takeLoaderFault f s).ldr = .fault f := rfl
@[simp] theorem takeLoaderFault_base (f : LoaderFault) (s : State) : (takeLoaderFault f s).base = s.base := rfl
@[simp] theorem takeLoaderFault_runLen (f : LoaderFault) (s : State) : (takeLoaderFault f s).runLen = s.runLen := rfl
@[simp] theorem takeLoaderFault_lineNo (f : LoaderFault) (s : State) : (takeLoaderFault f s).lineNo = s.lineNo := rfl
@[simp] theorem takeLoaderFault_marker (f : LoaderFault) (s : State) : (takeLoaderFault f s).marker = s.marker := rfl
@[simp] theorem takeLoaderFault_pinMap (f : LoaderFault) (s : State) : (takeLoaderFault f s).pinMap = s.pinMap := rfl
@[simp] theorem takeLoaderFault_timing (f : LoaderFault) (s : State) : (takeLoaderFault f s).timing = s.timing := rfl
@[simp] theorem takeLoaderFault_pins (f : LoaderFault) (s : State) : (takeLoaderFault f s).pins = s.pins := rfl
@[simp] theorem takeLoaderFault_seq (f : LoaderFault) (s : State) : (takeLoaderFault f s).seq = s.seq := rfl
@[simp] theorem takeLoaderFault_row (f : LoaderFault) (s : State) : (takeLoaderFault f s).row = s.row := rfl
@[simp] theorem takeLoaderFault_col (f : LoaderFault) (s : State) : (takeLoaderFault f s).col = s.col := rfl
@[simp] theorem takeLoaderFault_ustep (f : LoaderFault) (s : State) : (takeLoaderFault f s).ustep = s.ustep := rfl
@[simp] theorem takeLoaderFault_evIdx (f : LoaderFault) (s : State) : (takeLoaderFault f s).evIdx = s.evIdx := rfl
@[simp] theorem takeLoaderFault_sample (f : LoaderFault) (s : State) : (takeLoaderFault f s).sample = s.sample := rfl
@[simp] theorem takeLoaderFault_rows (f : LoaderFault) (s : State) : (takeLoaderFault f s).rows = s.rows := rfl
@[simp] theorem takeLoaderFault_olmc (f : LoaderFault) (s : State) : (takeLoaderFault f s).olmc = s.olmc := rfl
@[simp] theorem takeLoaderFault_setupDone (f : LoaderFault) (s : State) : (takeLoaderFault f s).setupDone = s.setupDone := rfl
@[simp] theorem takeLoaderFault_progUsed (f : LoaderFault) (s : State) : (takeLoaderFault f s).progUsed = s.progUsed := rfl
@[simp] theorem takeLoaderFault_gpioFault (f : LoaderFault) (s : State) : (takeLoaderFault f s).gpioFault = s.gpioFault := rfl
@[simp] theorem takeLoaderFault_trace (f : LoaderFault) (s : State) : (takeLoaderFault f s).trace = s.trace := rfl
@[simp] theorem takeLoaderFault_reply (f : LoaderFault) (s : State) : (takeLoaderFault f s).reply = .loaderFault f := rfl
@[simp] theorem takeLoaderFault_turnedAway (f : LoaderFault) (s : State) : (takeLoaderFault f s).turnedAway = none := rfl
@[simp] theorem takeLoaderFault_cmd (f : LoaderFault) (s : State) : (takeLoaderFault f s).cmd = s.cmd := rfl
@[simp] theorem takeLoaderFault_env (f : LoaderFault) (s : State) : (takeLoaderFault f s).env = s.env := rfl
@[simp] theorem takeLoaderFault_draws (f : LoaderFault) (s : State) : (takeLoaderFault f s).draws = s.draws := rfl

/-! ### `record` -/

@[simp] theorem record_fa (e : Event) (s : State) : (record e s).fa = s.fa := rfl
@[simp] theorem record_ldr (e : Event) (s : State) : (record e s).ldr = s.ldr := rfl
@[simp] theorem record_base (e : Event) (s : State) : (record e s).base = s.base := rfl
@[simp] theorem record_runLen (e : Event) (s : State) : (record e s).runLen = s.runLen := rfl
@[simp] theorem record_lineNo (e : Event) (s : State) : (record e s).lineNo = s.lineNo := rfl
@[simp] theorem record_marker (e : Event) (s : State) : (record e s).marker = s.marker := rfl
@[simp] theorem record_pinMap (e : Event) (s : State) : (record e s).pinMap = s.pinMap := rfl
@[simp] theorem record_timing (e : Event) (s : State) : (record e s).timing = s.timing := rfl
@[simp] theorem record_pins (e : Event) (s : State) : (record e s).pins = s.pins := rfl
@[simp] theorem record_seq (e : Event) (s : State) : (record e s).seq = s.seq := rfl
@[simp] theorem record_row (e : Event) (s : State) : (record e s).row = s.row := rfl
@[simp] theorem record_col (e : Event) (s : State) : (record e s).col = s.col := rfl
@[simp] theorem record_ustep (e : Event) (s : State) : (record e s).ustep = s.ustep := rfl
@[simp] theorem record_evIdx (e : Event) (s : State) : (record e s).evIdx = s.evIdx + 1 := rfl
@[simp] theorem record_sample (e : Event) (s : State) : (record e s).sample = s.sample := rfl
@[simp] theorem record_rows (e : Event) (s : State) : (record e s).rows = s.rows := rfl
@[simp] theorem record_olmc (e : Event) (s : State) : (record e s).olmc = s.olmc := rfl
@[simp] theorem record_setupDone (e : Event) (s : State) : (record e s).setupDone = s.setupDone := rfl
@[simp] theorem record_progUsed (e : Event) (s : State) : (record e s).progUsed = s.progUsed := rfl
@[simp] theorem record_gpioFault (e : Event) (s : State) : (record e s).gpioFault = s.gpioFault := rfl
@[simp] theorem record_trace (e : Event) (s : State) : (record e s).trace = s.trace ++ [e] := rfl
@[simp] theorem record_reply (e : Event) (s : State) : (record e s).reply = s.reply := rfl
@[simp] theorem record_turnedAway (e : Event) (s : State) : (record e s).turnedAway = s.turnedAway := rfl
@[simp] theorem record_cmd (e : Event) (s : State) : (record e s).cmd = s.cmd := rfl
@[simp] theorem record_env (e : Event) (s : State) : (record e s).env = s.env := rfl
@[simp] theorem record_draws (e : Event) (s : State) : (record e s).draws = s.draws := rfl

/-! ### `popMove` -/

@[simp] theorem popMove_fa (s : State) : (popMove s).fa = s.fa := rfl
@[simp] theorem popMove_ldr (s : State) : (popMove s).ldr = s.ldr := rfl
@[simp] theorem popMove_base (s : State) : (popMove s).base = s.base := rfl
@[simp] theorem popMove_runLen (s : State) : (popMove s).runLen = s.runLen := rfl
@[simp] theorem popMove_lineNo (s : State) : (popMove s).lineNo = s.lineNo := rfl
@[simp] theorem popMove_marker (s : State) : (popMove s).marker = s.marker := rfl
@[simp] theorem popMove_pinMap (s : State) : (popMove s).pinMap = s.pinMap := rfl
@[simp] theorem popMove_timing (s : State) : (popMove s).timing = s.timing := rfl
@[simp] theorem popMove_pins (s : State) : (popMove s).pins = s.pins := rfl
@[simp] theorem popMove_seq (s : State) : (popMove s).seq = s.seq := rfl
@[simp] theorem popMove_row (s : State) : (popMove s).row = s.row := rfl
@[simp] theorem popMove_col (s : State) : (popMove s).col = s.col := rfl
@[simp] theorem popMove_ustep (s : State) : (popMove s).ustep = s.ustep := rfl
@[simp] theorem popMove_evIdx (s : State) : (popMove s).evIdx = s.evIdx := rfl
@[simp] theorem popMove_sample (s : State) : (popMove s).sample = s.sample := rfl
@[simp] theorem popMove_rows (s : State) : (popMove s).rows = s.rows := rfl
@[simp] theorem popMove_olmc (s : State) : (popMove s).olmc = s.olmc := rfl
@[simp] theorem popMove_setupDone (s : State) : (popMove s).setupDone = s.setupDone := rfl
@[simp] theorem popMove_progUsed (s : State) : (popMove s).progUsed = s.progUsed := rfl
@[simp] theorem popMove_gpioFault (s : State) : (popMove s).gpioFault = s.gpioFault := rfl
@[simp] theorem popMove_trace (s : State) : (popMove s).trace = s.trace := rfl
@[simp] theorem popMove_reply (s : State) : (popMove s).reply = s.reply := rfl
@[simp] theorem popMove_turnedAway (s : State) : (popMove s).turnedAway = s.turnedAway := rfl
@[simp] theorem popMove_cmd (s : State) : (popMove s).cmd = s.cmd := rfl
@[simp] theorem popMove_env (s : State) : (popMove s).env = s.env.tail := rfl
@[simp] theorem popMove_draws (s : State) : (popMove s).draws = s.draws := rfl

/-! ### `returned` -/

@[simp] theorem returned_fa (e : Event) (s : State) : (returned e s).fa = s.fa := rfl
@[simp] theorem returned_ldr (e : Event) (s : State) : (returned e s).ldr = s.ldr := rfl
@[simp] theorem returned_base (e : Event) (s : State) : (returned e s).base = s.base := rfl
@[simp] theorem returned_runLen (e : Event) (s : State) : (returned e s).runLen = s.runLen := rfl
@[simp] theorem returned_lineNo (e : Event) (s : State) : (returned e s).lineNo = s.lineNo := rfl
@[simp] theorem returned_marker (e : Event) (s : State) : (returned e s).marker = s.marker := rfl
@[simp] theorem returned_pinMap (e : Event) (s : State) : (returned e s).pinMap = s.pinMap := rfl
@[simp] theorem returned_timing (e : Event) (s : State) : (returned e s).timing = s.timing := rfl
@[simp] theorem returned_pins (e : Event) (s : State) : (returned e s).pins = pinEffect e s.pins := rfl
@[simp] theorem returned_seq (e : Event) (s : State) : (returned e s).seq = s.seq := rfl
@[simp] theorem returned_row (e : Event) (s : State) : (returned e s).row = s.row := rfl
@[simp] theorem returned_col (e : Event) (s : State) : (returned e s).col = s.col := rfl
@[simp] theorem returned_ustep (e : Event) (s : State) : (returned e s).ustep = s.ustep := rfl
@[simp] theorem returned_evIdx (e : Event) (s : State) : (returned e s).evIdx = s.evIdx + 1 := rfl
@[simp] theorem returned_sample (e : Event) (s : State) : (returned e s).sample = sampledBy e s := rfl
@[simp] theorem returned_rows (e : Event) (s : State) : (returned e s).rows = s.rows := rfl
@[simp] theorem returned_olmc (e : Event) (s : State) : (returned e s).olmc = s.olmc := rfl
@[simp] theorem returned_setupDone (e : Event) (s : State) : (returned e s).setupDone = s.setupDone := rfl
@[simp] theorem returned_progUsed (e : Event) (s : State) : (returned e s).progUsed = s.progUsed := rfl
@[simp] theorem returned_gpioFault (e : Event) (s : State) : (returned e s).gpioFault = s.gpioFault := rfl
@[simp] theorem returned_trace (e : Event) (s : State) : (returned e s).trace = s.trace ++ [answered e s] := rfl
@[simp] theorem returned_reply (e : Event) (s : State) : (returned e s).reply = s.reply := rfl
@[simp] theorem returned_turnedAway (e : Event) (s : State) : (returned e s).turnedAway = s.turnedAway := rfl
@[simp] theorem returned_cmd (e : Event) (s : State) : (returned e s).cmd = s.cmd := rfl
@[simp] theorem returned_env (e : Event) (s : State) : (returned e s).env = s.env := rfl
@[simp] theorem returned_draws (e : Event) (s : State) : (returned e s).draws = drawsOf e s.draws := rfl

/-! ### `takeGpioFailure` -/

@[simp] theorem takeGpioFailure_fa (o : Owner) (e : Event) (l : Bool) (s : State) : (takeGpioFailure o e l s).fa = s.fa := rfl
@[simp] theorem takeGpioFailure_ldr (o : Owner) (e : Event) (l : Bool) (s : State) : (takeGpioFailure o e l s).ldr = s.ldr := rfl
@[simp] theorem takeGpioFailure_base (o : Owner) (e : Event) (l : Bool) (s : State) : (takeGpioFailure o e l s).base = s.base := rfl
@[simp] theorem takeGpioFailure_runLen (o : Owner) (e : Event) (l : Bool) (s : State) : (takeGpioFailure o e l s).runLen = s.runLen := rfl
@[simp] theorem takeGpioFailure_lineNo (o : Owner) (e : Event) (l : Bool) (s : State) : (takeGpioFailure o e l s).lineNo = s.lineNo := rfl
@[simp] theorem takeGpioFailure_marker (o : Owner) (e : Event) (l : Bool) (s : State) : (takeGpioFailure o e l s).marker = s.marker := rfl
@[simp] theorem takeGpioFailure_pinMap (o : Owner) (e : Event) (l : Bool) (s : State) : (takeGpioFailure o e l s).pinMap = s.pinMap := rfl
@[simp] theorem takeGpioFailure_timing (o : Owner) (e : Event) (l : Bool) (s : State) : (takeGpioFailure o e l s).timing = s.timing := rfl
@[simp] theorem takeGpioFailure_pins (o : Owner) (e : Event) (l : Bool) (s : State) : (takeGpioFailure o e l s).pins = (if l then pinEffect e s.pins else s.pins) := rfl
@[simp] theorem takeGpioFailure_seq (o : Owner) (e : Event) (l : Bool) (s : State) : (takeGpioFailure o e l s).seq = endedSeq o s.seq := rfl
@[simp] theorem takeGpioFailure_row (o : Owner) (e : Event) (l : Bool) (s : State) : (takeGpioFailure o e l s).row = s.row := rfl
@[simp] theorem takeGpioFailure_col (o : Owner) (e : Event) (l : Bool) (s : State) : (takeGpioFailure o e l s).col = s.col := rfl
@[simp] theorem takeGpioFailure_ustep (o : Owner) (e : Event) (l : Bool) (s : State) : (takeGpioFailure o e l s).ustep = s.ustep := rfl
@[simp] theorem takeGpioFailure_evIdx (o : Owner) (e : Event) (l : Bool) (s : State) : (takeGpioFailure o e l s).evIdx = s.evIdx + 1 := rfl
@[simp] theorem takeGpioFailure_sample (o : Owner) (e : Event) (l : Bool) (s : State) : (takeGpioFailure o e l s).sample = s.sample := rfl
@[simp] theorem takeGpioFailure_rows (o : Owner) (e : Event) (l : Bool) (s : State) : (takeGpioFailure o e l s).rows = s.rows := rfl
@[simp] theorem takeGpioFailure_olmc (o : Owner) (e : Event) (l : Bool) (s : State) : (takeGpioFailure o e l s).olmc = s.olmc := rfl
@[simp] theorem takeGpioFailure_setupDone (o : Owner) (e : Event) (l : Bool) (s : State) : (takeGpioFailure o e l s).setupDone = s.setupDone := rfl
@[simp] theorem takeGpioFailure_progUsed (o : Owner) (e : Event) (l : Bool) (s : State) : (takeGpioFailure o e l s).progUsed = s.progUsed := rfl
@[simp] theorem takeGpioFailure_gpioFault (o : Owner) (e : Event) (l : Bool) (s : State) : (takeGpioFailure o e l s).gpioFault = (some { index := s.evIdx, call := e }) := rfl
@[simp] theorem takeGpioFailure_trace (o : Owner) (e : Event) (l : Bool) (s : State) : (takeGpioFailure o e l s).trace = s.trace ++ [e] := rfl
@[simp] theorem takeGpioFailure_reply (o : Owner) (e : Event) (l : Bool) (s : State) : (takeGpioFailure o e l s).reply = .gpioFailure { index := s.evIdx, call := e } := rfl
@[simp] theorem takeGpioFailure_turnedAway (o : Owner) (e : Event) (l : Bool) (s : State) : (takeGpioFailure o e l s).turnedAway = none := rfl
@[simp] theorem takeGpioFailure_cmd (o : Owner) (e : Event) (l : Bool) (s : State) : (takeGpioFailure o e l s).cmd = s.cmd := rfl
@[simp] theorem takeGpioFailure_env (o : Owner) (e : Event) (l : Bool) (s : State) : (takeGpioFailure o e l s).env = s.env := rfl
@[simp] theorem takeGpioFailure_draws (o : Owner) (e : Event) (l : Bool) (s : State) : (takeGpioFailure o e l s).draws = s.draws := rfl

/-! ### `takeStop` -/

@[simp] theorem takeStop_fa (o : Owner) (s : State) : (takeStop o s).fa = s.fa := rfl
@[simp] theorem takeStop_ldr (o : Owner) (s : State) : (takeStop o s).ldr = s.ldr := rfl
@[simp] theorem takeStop_base (o : Owner) (s : State) : (takeStop o s).base = s.base := rfl
@[simp] theorem takeStop_runLen (o : Owner) (s : State) : (takeStop o s).runLen = s.runLen := rfl
@[simp] theorem takeStop_lineNo (o : Owner) (s : State) : (takeStop o s).lineNo = s.lineNo := rfl
@[simp] theorem takeStop_marker (o : Owner) (s : State) : (takeStop o s).marker = s.marker := rfl
@[simp] theorem takeStop_pinMap (o : Owner) (s : State) : (takeStop o s).pinMap = s.pinMap := rfl
@[simp] theorem takeStop_timing (o : Owner) (s : State) : (takeStop o s).timing = s.timing := rfl
@[simp] theorem takeStop_pins (o : Owner) (s : State) : (takeStop o s).pins = s.pins := rfl
@[simp] theorem takeStop_seq (o : Owner) (s : State) : (takeStop o s).seq = endedSeq o s.seq := rfl
@[simp] theorem takeStop_row (o : Owner) (s : State) : (takeStop o s).row = s.row := rfl
@[simp] theorem takeStop_col (o : Owner) (s : State) : (takeStop o s).col = s.col := rfl
@[simp] theorem takeStop_ustep (o : Owner) (s : State) : (takeStop o s).ustep = s.ustep := rfl
@[simp] theorem takeStop_evIdx (o : Owner) (s : State) : (takeStop o s).evIdx = s.evIdx := rfl
@[simp] theorem takeStop_sample (o : Owner) (s : State) : (takeStop o s).sample = s.sample := rfl
@[simp] theorem takeStop_rows (o : Owner) (s : State) : (takeStop o s).rows = s.rows := rfl
@[simp] theorem takeStop_olmc (o : Owner) (s : State) : (takeStop o s).olmc = s.olmc := rfl
@[simp] theorem takeStop_setupDone (o : Owner) (s : State) : (takeStop o s).setupDone = s.setupDone := rfl
@[simp] theorem takeStop_progUsed (o : Owner) (s : State) : (takeStop o s).progUsed = s.progUsed := rfl
@[simp] theorem takeStop_gpioFault (o : Owner) (s : State) : (takeStop o s).gpioFault = s.gpioFault := rfl
@[simp] theorem takeStop_trace (o : Owner) (s : State) : (takeStop o s).trace = s.trace := rfl
@[simp] theorem takeStop_reply (o : Owner) (s : State) : (takeStop o s).reply = .stopped := rfl
@[simp] theorem takeStop_turnedAway (o : Owner) (s : State) : (takeStop o s).turnedAway = none := rfl
@[simp] theorem takeStop_cmd (o : Owner) (s : State) : (takeStop o s).cmd = s.cmd := rfl
@[simp] theorem takeStop_env (o : Owner) (s : State) : (takeStop o s).env = s.env := rfl
@[simp] theorem takeStop_draws (o : Owner) (s : State) : (takeStop o s).draws = s.draws := rfl

/-! ### `countLine` -/

@[simp] theorem countLine_fa (s : State) : (countLine s).fa = s.fa := rfl
@[simp] theorem countLine_ldr (s : State) : (countLine s).ldr = .loading := rfl
@[simp] theorem countLine_base (s : State) : (countLine s).base = s.base := rfl
@[simp] theorem countLine_runLen (s : State) : (countLine s).runLen = s.runLen := rfl
@[simp] theorem countLine_lineNo (s : State) : (countLine s).lineNo = s.lineNo + 1 := rfl
@[simp] theorem countLine_marker (s : State) : (countLine s).marker = s.marker := rfl
@[simp] theorem countLine_pinMap (s : State) : (countLine s).pinMap = s.pinMap := rfl
@[simp] theorem countLine_timing (s : State) : (countLine s).timing = s.timing := rfl
@[simp] theorem countLine_pins (s : State) : (countLine s).pins = s.pins := rfl
@[simp] theorem countLine_seq (s : State) : (countLine s).seq = s.seq := rfl
@[simp] theorem countLine_row (s : State) : (countLine s).row = s.row := rfl
@[simp] theorem countLine_col (s : State) : (countLine s).col = s.col := rfl
@[simp] theorem countLine_ustep (s : State) : (countLine s).ustep = s.ustep := rfl
@[simp] theorem countLine_evIdx (s : State) : (countLine s).evIdx = s.evIdx := rfl
@[simp] theorem countLine_sample (s : State) : (countLine s).sample = s.sample := rfl
@[simp] theorem countLine_rows (s : State) : (countLine s).rows = s.rows := rfl
@[simp] theorem countLine_olmc (s : State) : (countLine s).olmc = s.olmc := rfl
@[simp] theorem countLine_setupDone (s : State) : (countLine s).setupDone = s.setupDone := rfl
@[simp] theorem countLine_progUsed (s : State) : (countLine s).progUsed = s.progUsed := rfl
@[simp] theorem countLine_gpioFault (s : State) : (countLine s).gpioFault = s.gpioFault := rfl
@[simp] theorem countLine_trace (s : State) : (countLine s).trace = s.trace := rfl
@[simp] theorem countLine_reply (s : State) : (countLine s).reply = s.reply := rfl
@[simp] theorem countLine_turnedAway (s : State) : (countLine s).turnedAway = s.turnedAway := rfl
@[simp] theorem countLine_cmd (s : State) : (countLine s).cmd = s.cmd := rfl
@[simp] theorem countLine_env (s : State) : (countLine s).env = s.env := rfl
@[simp] theorem countLine_draws (s : State) : (countLine s).draws = s.draws := rfl

/-! ### `takeEof` -/

@[simp] theorem takeEof_fa (s : State) : (takeEof s).fa = s.fa := rfl
@[simp] theorem takeEof_ldr (s : State) : (takeEof s).ldr = s.ldr.atEof := rfl
@[simp] theorem takeEof_base (s : State) : (takeEof s).base = s.base := rfl
@[simp] theorem takeEof_runLen (s : State) : (takeEof s).runLen = s.runLen := rfl
@[simp] theorem takeEof_lineNo (s : State) : (takeEof s).lineNo = s.lineNo := rfl
@[simp] theorem takeEof_marker (s : State) : (takeEof s).marker = s.marker := rfl
@[simp] theorem takeEof_pinMap (s : State) : (takeEof s).pinMap = s.pinMap := rfl
@[simp] theorem takeEof_timing (s : State) : (takeEof s).timing = s.timing := rfl
@[simp] theorem takeEof_pins (s : State) : (takeEof s).pins = s.pins := rfl
@[simp] theorem takeEof_seq (s : State) : (takeEof s).seq = s.seq := rfl
@[simp] theorem takeEof_row (s : State) : (takeEof s).row = s.row := rfl
@[simp] theorem takeEof_col (s : State) : (takeEof s).col = s.col := rfl
@[simp] theorem takeEof_ustep (s : State) : (takeEof s).ustep = s.ustep := rfl
@[simp] theorem takeEof_evIdx (s : State) : (takeEof s).evIdx = s.evIdx := rfl
@[simp] theorem takeEof_sample (s : State) : (takeEof s).sample = s.sample := rfl
@[simp] theorem takeEof_rows (s : State) : (takeEof s).rows = s.rows := rfl
@[simp] theorem takeEof_olmc (s : State) : (takeEof s).olmc = s.olmc := rfl
@[simp] theorem takeEof_setupDone (s : State) : (takeEof s).setupDone = s.setupDone := rfl
@[simp] theorem takeEof_progUsed (s : State) : (takeEof s).progUsed = s.progUsed := rfl
@[simp] theorem takeEof_gpioFault (s : State) : (takeEof s).gpioFault = s.gpioFault := rfl
@[simp] theorem takeEof_trace (s : State) : (takeEof s).trace = s.trace := rfl
@[simp] theorem takeEof_reply (s : State) : (takeEof s).reply = .nothing := rfl
@[simp] theorem takeEof_turnedAway (s : State) : (takeEof s).turnedAway = none := rfl
@[simp] theorem takeEof_cmd (s : State) : (takeEof s).cmd = s.cmd := rfl
@[simp] theorem takeEof_env (s : State) : (takeEof s).env = s.env := rfl
@[simp] theorem takeEof_draws (s : State) : (takeEof s).draws = s.draws := rfl

/-! ### `clearLoader` -/

@[simp] theorem clearLoader_fa (s : State) : (clearLoader s).fa = [] := rfl
@[simp] theorem clearLoader_ldr (s : State) : (clearLoader s).ldr = .empty := rfl
@[simp] theorem clearLoader_base (s : State) : (clearLoader s).base = s.base := rfl
@[simp] theorem clearLoader_runLen (s : State) : (clearLoader s).runLen = s.runLen := rfl
@[simp] theorem clearLoader_lineNo (s : State) : (clearLoader s).lineNo = 0 := rfl
@[simp] theorem clearLoader_marker (s : State) : (clearLoader s).marker = s.marker := rfl
@[simp] theorem clearLoader_pinMap (s : State) : (clearLoader s).pinMap = s.pinMap := rfl
@[simp] theorem clearLoader_timing (s : State) : (clearLoader s).timing = s.timing := rfl
@[simp] theorem clearLoader_pins (s : State) : (clearLoader s).pins = s.pins := rfl
@[simp] theorem clearLoader_seq (s : State) : (clearLoader s).seq = s.seq := rfl
@[simp] theorem clearLoader_row (s : State) : (clearLoader s).row = s.row := rfl
@[simp] theorem clearLoader_col (s : State) : (clearLoader s).col = s.col := rfl
@[simp] theorem clearLoader_ustep (s : State) : (clearLoader s).ustep = s.ustep := rfl
@[simp] theorem clearLoader_evIdx (s : State) : (clearLoader s).evIdx = s.evIdx := rfl
@[simp] theorem clearLoader_sample (s : State) : (clearLoader s).sample = s.sample := rfl
@[simp] theorem clearLoader_rows (s : State) : (clearLoader s).rows = s.rows := rfl
@[simp] theorem clearLoader_olmc (s : State) : (clearLoader s).olmc = s.olmc := rfl
@[simp] theorem clearLoader_setupDone (s : State) : (clearLoader s).setupDone = s.setupDone := rfl
@[simp] theorem clearLoader_progUsed (s : State) : (clearLoader s).progUsed = s.progUsed := rfl
@[simp] theorem clearLoader_gpioFault (s : State) : (clearLoader s).gpioFault = s.gpioFault := rfl
@[simp] theorem clearLoader_trace (s : State) : (clearLoader s).trace = s.trace := rfl
@[simp] theorem clearLoader_reply (s : State) : (clearLoader s).reply = .nothing := rfl
@[simp] theorem clearLoader_turnedAway (s : State) : (clearLoader s).turnedAway = none := rfl
@[simp] theorem clearLoader_cmd (s : State) : (clearLoader s).cmd = s.cmd := rfl
@[simp] theorem clearLoader_env (s : State) : (clearLoader s).env = s.env := rfl
@[simp] theorem clearLoader_draws (s : State) : (clearLoader s).draws = s.draws := rfl

/-! ### `startProgram` -/

@[simp] theorem startProgram_fa (rows : List Bits) (olmc : Bits) (s : State) : (startProgram rows olmc s).fa = s.fa := rfl
@[simp] theorem startProgram_ldr (rows : List Bits) (olmc : Bits) (s : State) : (startProgram rows olmc s).ldr = s.ldr := rfl
@[simp] theorem startProgram_base (rows : List Bits) (olmc : Bits) (s : State) : (startProgram rows olmc s).base = s.base := rfl
@[simp] theorem startProgram_runLen (rows : List Bits) (olmc : Bits) (s : State) : (startProgram rows olmc s).runLen = s.runLen := rfl
@[simp] theorem startProgram_lineNo (rows : List Bits) (olmc : Bits) (s : State) : (startProgram rows olmc s).lineNo = s.lineNo := rfl
@[simp] theorem startProgram_marker (rows : List Bits) (olmc : Bits) (s : State) : (startProgram rows olmc s).marker = s.marker := rfl
@[simp] theorem startProgram_pinMap (rows : List Bits) (olmc : Bits) (s : State) : (startProgram rows olmc s).pinMap = s.pinMap := rfl
@[simp] theorem startProgram_timing (rows : List Bits) (olmc : Bits) (s : State) : (startProgram rows olmc s).timing = s.timing := rfl
@[simp] theorem startProgram_pins (rows : List Bits) (olmc : Bits) (s : State) : (startProgram rows olmc s).pins = s.pins := rfl
@[simp] theorem startProgram_seq (rows : List Bits) (olmc : Bits) (s : State) : (startProgram rows olmc s).seq = s.seq := rfl
@[simp] theorem startProgram_row (rows : List Bits) (olmc : Bits) (s : State) : (startProgram rows olmc s).row = s.row := rfl
@[simp] theorem startProgram_col (rows : List Bits) (olmc : Bits) (s : State) : (startProgram rows olmc s).col = s.col := rfl
@[simp] theorem startProgram_ustep (rows : List Bits) (olmc : Bits) (s : State) : (startProgram rows olmc s).ustep = s.ustep := rfl
@[simp] theorem startProgram_evIdx (rows : List Bits) (olmc : Bits) (s : State) : (startProgram rows olmc s).evIdx = 0 := rfl
@[simp] theorem startProgram_sample (rows : List Bits) (olmc : Bits) (s : State) : (startProgram rows olmc s).sample = s.sample := rfl
@[simp] theorem startProgram_rows (rows : List Bits) (olmc : Bits) (s : State) : (startProgram rows olmc s).rows = rows := rfl
@[simp] theorem startProgram_olmc (rows : List Bits) (olmc : Bits) (s : State) : (startProgram rows olmc s).olmc = olmc := rfl
@[simp] theorem startProgram_setupDone (rows : List Bits) (olmc : Bits) (s : State) : (startProgram rows olmc s).setupDone = s.setupDone := rfl
@[simp] theorem startProgram_progUsed (rows : List Bits) (olmc : Bits) (s : State) : (startProgram rows olmc s).progUsed = true := rfl
@[simp] theorem startProgram_gpioFault (rows : List Bits) (olmc : Bits) (s : State) : (startProgram rows olmc s).gpioFault = s.gpioFault := rfl
@[simp] theorem startProgram_trace (rows : List Bits) (olmc : Bits) (s : State) : (startProgram rows olmc s).trace = s.trace := rfl
@[simp] theorem startProgram_reply (rows : List Bits) (olmc : Bits) (s : State) : (startProgram rows olmc s).reply = s.reply := rfl
@[simp] theorem startProgram_turnedAway (rows : List Bits) (olmc : Bits) (s : State) : (startProgram rows olmc s).turnedAway = s.turnedAway := rfl
@[simp] theorem startProgram_cmd (rows : List Bits) (olmc : Bits) (s : State) : (startProgram rows olmc s).cmd = s.cmd := rfl
@[simp] theorem startProgram_env (rows : List Bits) (olmc : Bits) (s : State) : (startProgram rows olmc s).env = s.env := rfl
@[simp] theorem startProgram_draws (rows : List Bits) (olmc : Bits) (s : State) : (startProgram rows olmc s).draws = s.draws := rfl

end Sys2Proof.Machine
end

