-- ==== Sys2Proof/Laws/Run.lean ====
section
/-! SUPPORT. What a run of acts does: where its calls return, the closed form `afterActs`; where one fails or the run is
stopped, the events before it and nothing after. Proofs about operations cite these and do not unfold `perform`. -/

namespace Sys2Proof.Machine

open Sys2Proof.Safety

/-! ### Event lists -/

/-- The events of a list of acts. -/
def eventsOf : List Act → List Event
  | [] => []
  | .call e :: acts => e :: eventsOf acts
  | .setRow _ :: acts => eventsOf acts
  | .setCol _ :: acts => eventsOf acts
  | .setUstep _ :: acts => eventsOf acts
  | .setSeq _ :: acts => eventsOf acts

@[simp] theorem eventsOf_append (a b : List Act) : eventsOf (a ++ b) = eventsOf a ++ eventsOf b := by
  induction a with
  | nil => rfl
  | cons x a ih => cases x <;> simp [eventsOf, ih]

/-- The register writes of a list of acts, its events left out. -/
def placed : List Act → State → State
  | [], s => s
  | a :: acts, s => placed acts (place a s)

@[simp] theorem placed_append (a b : List Act) (s : State) : placed (a ++ b) s = placed b (placed a s) := by
  induction a generalizing s with
  | nil => rfl
  | cons x a ih => exact ih _

/-- Register writes write the working registers and `seq`, and nothing else. -/
theorem placed_writes (acts : List Act) (s : State) :
    ∃ q r c u, placed acts s = { s with seq := q, row := r, col := c, ustep := u } := by
  induction acts generalizing s with
  | nil => exact ⟨s.seq, s.row, s.col, s.ustep, rfl⟩
  | cons a acts ih =>
    obtain ⟨q, r, c, u, h⟩ := ih (place a s)
    exact ⟨q, r, c, u, by rw [placed, h]; cases a <;> rfl⟩

@[simp] theorem isRead_rd (role : Role) (g : Option Bool) : isRead (.rd role g) = true := rfl
@[simp] theorem isRead_dir (role : Role) (d : Dirn) : isRead (.dir role d) = false := rfl
@[simp] theorem isRead_wr (role : Role) (v : Bool) : isRead (.wr role v) = false := rfl
@[simp] theorem isRead_wait (t : Nat) : isRead (.wait t) = false := rfl

@[simp] theorem answeredFrom_length (n : Nat) (es : List Event) : (answeredFrom n es).length = es.length := by
  induction es generalizing n with
  | nil => rfl
  | cons e es ih => cases e <;> simp [answeredFrom, ih]

/-- The trace without the bits its reads returned is the list of the calls. -/
theorem unanswered_answeredFrom (n : Nat) (es : List Event) :
    (answeredFrom n es).map unanswered = es.map unanswered := by
  induction es generalizing n with
  | nil => rfl
  | cons e es ih => cases e <;> simp [answeredFrom, unanswered, ih]

theorem answeredFrom_append (n : Nat) (a b : List Event) :
    answeredFrom n (a ++ b) = answeredFrom n a ++ answeredFrom (n + a.countP isRead) b := by
  induction a generalizing n with
  | nil => rfl
  | cons e a ih => cases e <;> simp [answeredFrom, ih, List.countP_cons, Nat.add_assoc, Nat.add_comm 1]

@[simp] theorem pinsAfter_append (a b : List Event) (p : Pins) : pinsAfter (a ++ b) p = pinsAfter b (pinsAfter a p) :=
  List.foldl_append ..

@[simp] theorem pinsAfter_nil (p : Pins) : pinsAfter [] p = p := rfl

@[simp] theorem pinsAfter_cons (e : Event) (es : List Event) (p : Pins) :
    pinsAfter (e :: es) p = pinsAfter es (pinEffect e p) := rfl

/-! ### One event -/

/-- A returned call first, then the rest. -/
theorem afterEvents_cons (e : Event) (es : List Event) (s : State) :
    afterEvents (e :: es) s = afterEvents es (returned e (popMove s)) := by
  have hs : ∀ k, sampleAfter (k + 1) s = if k = 0 then Config.dataOutLevel s.draws
      else Config.dataOutLevel (s.draws + 1 + k - 1) := fun k => by
    cases k <;> simp [sampleAfter, Nat.add_assoc, Nat.add_comm 1]
  cases e <;>
    simp [afterEvents, returned, record, popMove, answeredFrom, answered, sampledBy, drawsOf, pinEffect,
      Nat.add_comm, Nat.add_left_comm, List.countP_cons, hs] <;> simp [sampleAfter, Nat.add_comm, Nat.add_left_comm]

@[simp] theorem afterEvents_nil (s : State) : afterEvents [] s = s := by
  simp [afterEvents, answeredFrom, sampleAfter]

theorem callsReturn_cons {n : Nat} {s : State} (h : CallsReturn (n + 1) s) :
    (∀ o e, moveAt o e s = .ok) ∧ CallsReturn n (popMove s) := by
  cases hs : s.env with
  | nil => simp [moveAt, CallsReturn, popMove, hs]
  | cons m ms =>
    have hm : m = .ok := h m (by simp [hs])
    subst hm
    refine ⟨fun o e => by simp [moveAt, hs], fun x hx => h x ?_⟩
    simp only [popMove, hs, List.tail_cons] at hx
    simp [hs, hx]

/-- Fewer calls return where more do. -/
theorem callsReturn_mono {n m : Nat} {s : State} (h : CallsReturn n s) (hm : m ≤ n) : CallsReturn m s := fun x hx =>
  h x (by
    rw [← Nat.min_eq_left hm, ← List.take_take] at hx
    exact List.mem_of_mem_take hx)

/-- Calls return as the environment's list says, whatever else the state holds. -/
theorem callsReturn_of_env {n : Nat} {s t : State} (h : CallsReturn n s) (he : t.env = s.env) : CallsReturn n t := by
  unfold CallsReturn
  rw [he]
  exact h

/-- The calls left after some have returned. -/
theorem callsReturn_drop {n m : Nat} {s t : State} (h : CallsReturn (n + m) s) (he : t.env = s.env.drop n) :
    CallsReturn m t := fun x hx => by
  refine h x ?_
  rw [he] at hx
  have hd : (s.env.drop n).take m = (s.env.take (n + m)).drop n := by
    rw [List.drop_take, Nat.add_sub_cancel_left]
  rw [hd] at hx
  exact List.mem_of_mem_drop hx

/-- A register write and an event that returned do not meet. -/
theorem place_returned (a : Act) (e : Event) (s : State) :
    place a (returned e (popMove s)) = returned e (popMove (place a s)) := by
  cases a <;> cases e <;> rfl

theorem placed_returned (acts : List Act) (e : Event) (s : State) :
    placed acts (returned e (popMove s)) = returned e (popMove (placed acts s)) := by
  induction acts generalizing s with
  | nil => rfl
  | cons a acts ih => simp only [placed, place_returned, ih]

/-! ### What a list of returned events leaves in each field -/

@[simp] theorem afterEvents_fa (es : List Event) (s : State) : (afterEvents es s).fa = s.fa := rfl
@[simp] theorem afterEvents_ldr (es : List Event) (s : State) : (afterEvents es s).ldr = s.ldr := rfl
@[simp] theorem afterEvents_base (es : List Event) (s : State) : (afterEvents es s).base = s.base := rfl
@[simp] theorem afterEvents_runLen (es : List Event) (s : State) : (afterEvents es s).runLen = s.runLen := rfl
@[simp] theorem afterEvents_lineNo (es : List Event) (s : State) : (afterEvents es s).lineNo = s.lineNo := rfl
@[simp] theorem afterEvents_marker (es : List Event) (s : State) : (afterEvents es s).marker = s.marker := rfl
@[simp] theorem afterEvents_pinMap (es : List Event) (s : State) : (afterEvents es s).pinMap = s.pinMap := rfl
@[simp] theorem afterEvents_timing (es : List Event) (s : State) : (afterEvents es s).timing = s.timing := rfl
@[simp] theorem afterEvents_seq (es : List Event) (s : State) : (afterEvents es s).seq = s.seq := rfl
@[simp] theorem afterEvents_row (es : List Event) (s : State) : (afterEvents es s).row = s.row := rfl
@[simp] theorem afterEvents_col (es : List Event) (s : State) : (afterEvents es s).col = s.col := rfl
@[simp] theorem afterEvents_ustep (es : List Event) (s : State) : (afterEvents es s).ustep = s.ustep := rfl
@[simp] theorem afterEvents_rows (es : List Event) (s : State) : (afterEvents es s).rows = s.rows := rfl
@[simp] theorem afterEvents_olmc (es : List Event) (s : State) : (afterEvents es s).olmc = s.olmc := rfl
@[simp] theorem afterEvents_setupDone (es : List Event) (s : State) : (afterEvents es s).setupDone = s.setupDone := rfl
@[simp] theorem afterEvents_progUsed (es : List Event) (s : State) : (afterEvents es s).progUsed = s.progUsed := rfl
@[simp] theorem afterEvents_gpioFault (es : List Event) (s : State) : (afterEvents es s).gpioFault = s.gpioFault := rfl
@[simp] theorem afterEvents_reply (es : List Event) (s : State) : (afterEvents es s).reply = s.reply := rfl
@[simp] theorem afterEvents_turnedAway (es : List Event) (s : State) : (afterEvents es s).turnedAway = s.turnedAway := rfl
@[simp] theorem afterEvents_cmd (es : List Event) (s : State) : (afterEvents es s).cmd = s.cmd := rfl
theorem afterEvents_trace (es : List Event) (s : State) :
    (afterEvents es s).trace = s.trace ++ answeredFrom s.draws es := rfl
@[simp] theorem afterEvents_evIdx (es : List Event) (s : State) : (afterEvents es s).evIdx = s.evIdx + es.length := rfl
@[simp] theorem afterEvents_env (es : List Event) (s : State) : (afterEvents es s).env = s.env.drop es.length := rfl
@[simp] theorem afterEvents_pins (es : List Event) (s : State) : (afterEvents es s).pins = pinsAfter es s.pins := rfl

/-! ### A run -/

/-- Where every call returns, a run goes through: its events are issued in order, and the working registers hold what
its acts put in them. -/
theorem perform_returns {o : Owner} {acts : List Act} {s : State} (h : CallsReturn (eventsOf acts).length s) :
    perform o acts s = .through (afterEvents (eventsOf acts) (placed acts s)) := by
  induction acts generalizing s with
  | nil => simp [perform, eventsOf, placed]
  | cons a acts ih =>
    cases a with
    | call e =>
      simp only [eventsOf, List.length_cons] at h
      obtain ⟨h1, h2⟩ := callsReturn_cons h
      rw [perform, issue, h1]
      simp only [eventsOf]
      rw [ih (by simpa [CallsReturn] using h2), afterEvents_cons, placed, placed_returned]
      rfl
    | setRow x => exact ih h
    | setCol x => exact ih h
    | setUstep x => exact ih h
    | setSeq x => exact ih h

/-- Acts in a row: the second list runs where the first went through. -/
theorem perform_append (o : Owner) (a b : List Act) (s : State) :
    perform o (a ++ b) s =
      match perform o a s with
      | .through s' => perform o b s'
      | .ended s' => .ended s' := by
  induction a generalizing s with
  | nil => rfl
  | cons x a ih =>
    cases x with
    | call e =>
      simp only [List.cons_append, perform]
      cases issue o e s with
      | through s' => exact ih s'
      | ended s' => rfl
    | setRow x => exact ih _
    | setCol x => exact ih _
    | setUstep x => exact ih _
    | setSeq x => exact ih _

/-- A returned call is its event. -/
theorem returned_eq (e : Event) (s : State) : returned e (popMove s) = afterEvents [e] s := by
  rw [afterEvents_cons, afterEvents_nil]

/-- Two lists of returned events, one after the other. -/
theorem afterEvents_append (a b : List Event) (s : State) :
    afterEvents (a ++ b) s = afterEvents b (afterEvents a s) := by
  induction a generalizing s with
  | nil => simp
  | cons e a ih => rw [List.cons_append, afterEvents_cons, afterEvents_cons, ih]

/-- What a run that goes through leaves, whatever moves it met (a wait returns on every move). -/
theorem perform_through {o : Owner} {acts : List Act} {s t : State} (h : perform o acts s = .through t) :
    t = afterEvents (eventsOf acts) (placed acts s) := by
  induction acts generalizing s with
  | nil =>
    simp only [perform, Run.through.injEq] at h
    simp [eventsOf, placed, h]
  | cons x acts ih =>
    cases x with
    | call e =>
      simp only [perform] at h
      unfold issue at h
      split at h
      · next hi =>
        split at hi <;> simp only [Run.through.injEq, reduceCtorEq] at hi
        subst hi
        rw [ih h, placed_returned, eventsOf, afterEvents_cons]
        rfl
      · cases h
    | setRow y => exact ih h
    | setCol y => exact ih h
    | setUstep y => exact ih h
    | setSeq y => exact ih h

/-- Where a run that ends early has ended: the acts before it, and the call at which it ended. -/
theorem perform_ended {o : Owner} {acts : List Act} {s t : State} (h : perform o acts s = .ended t) :
    ∃ a e b, acts = a ++ .call e :: b ∧ issue o e (afterEvents (eventsOf a) (placed a s)) = .ended t := by
  induction acts generalizing s with
  | nil => simp [perform] at h
  | cons x acts ih =>
    cases x with
    | call e =>
      simp only [perform] at h
      cases hi : issue o e s with
      | ended u =>
        rw [hi] at h
        exact ⟨[], e, acts, rfl, by simpa [eventsOf, placed, hi] using h⟩
      | through u =>
        rw [hi] at h
        obtain ⟨a, e', b, h1, h2⟩ := ih h
        refine ⟨.call e :: a, e', b, by rw [h1]; rfl, ?_⟩
        have hu : u = returned e (popMove s) := by
          unfold issue at hi
          split at hi <;> simp only [Run.through.injEq, reduceCtorEq] at hi
          exact hi.symm
        rw [hu, placed_returned] at h2
        rw [eventsOf, afterEvents_cons]
        exact h2
    | setRow y =>
      obtain ⟨a, e', b, h1, h2⟩ := ih h
      exact ⟨.setRow y :: a, e', b, by rw [h1]; rfl, h2⟩
    | setCol y =>
      obtain ⟨a, e', b, h1, h2⟩ := ih h
      exact ⟨.setCol y :: a, e', b, by rw [h1]; rfl, h2⟩
    | setUstep y =>
      obtain ⟨a, e', b, h1, h2⟩ := ih h
      exact ⟨.setUstep y :: a, e', b, by rw [h1]; rfl, h2⟩
    | setSeq y =>
      obtain ⟨a, e', b, h1, h2⟩ := ih h
      exact ⟨.setSeq y :: a, e', b, by rw [h1]; rfl, h2⟩

/-- The two ways a call ends a run. -/
theorem issue_ended {o : Owner} {e : Event} {s t : State} (h : issue o e s = .ended t) :
    (∃ landed, isWait e = false ∧ t = takeGpioFailure o e landed (popMove s)) ∨
      (o = .sequence ∧ t = takeStop o (popMove s)) := by
  unfold issue at h
  split at h
  · cases h
  · next landed hm =>
    simp only [Run.ended.injEq] at h
    refine .inl ⟨landed, ?_, h.symm⟩
    cases e with
    | wait d =>
      unfold moveAt at hm
      cases hs : s.env.head? with
      | none => simp [hs] at hm
      | some m => cases m <;> simp [hs] at hm <;> cases o <;> simp at hm
    | dir r d => rfl
    | wr r v => rfl
    | rd r g => rfl
  · next hm =>
    simp only [Run.ended.injEq] at h
    refine .inr ⟨?_, h.symm⟩
    cases o with
    | sequence => rfl
    | command =>
      unfold moveAt at hm
      cases hs : s.env.head? with
      | none => simp [hs] at hm
      | some m => cases m <;> simp [hs] at hm <;> cases e <;> simp at hm

/-- The acts before and after the `k`-th event. -/
theorem eventsOf_split {acts : List Act} {k : Nat} {e : Event} (h : (eventsOf acts)[k]? = some e) :
    ∃ a b, acts = a ++ .call e :: b ∧ eventsOf a = (eventsOf acts).take k := by
  induction acts generalizing k with
  | nil => simp [eventsOf] at h
  | cons x acts ih =>
    cases x with
    | call f =>
      cases k with
      | zero =>
        simp only [eventsOf, List.getElem?_cons_zero, Option.some.injEq] at h
        exact ⟨[], acts, by rw [h]; rfl, by simp [eventsOf]⟩
      | succ k =>
        simp only [eventsOf, List.getElem?_cons_succ] at h
        obtain ⟨a, b, h1, h2⟩ := ih h
        exact ⟨.call f :: a, b, by rw [h1]; rfl, by simp [eventsOf, h2]⟩
    | setRow y =>
      obtain ⟨a, b, h1, h2⟩ := ih (k := k) h
      exact ⟨.setRow y :: a, b, by rw [h1]; rfl, h2⟩
    | setCol y =>
      obtain ⟨a, b, h1, h2⟩ := ih (k := k) h
      exact ⟨.setCol y :: a, b, by rw [h1]; rfl, h2⟩
    | setUstep y =>
      obtain ⟨a, b, h1, h2⟩ := ih (k := k) h
      exact ⟨.setUstep y :: a, b, by rw [h1]; rfl, h2⟩
    | setSeq y =>
      obtain ⟨a, b, h1, h2⟩ := ih (k := k) h
      exact ⟨.setSeq y :: a, b, by rw [h1]; rfl, h2⟩

/-- Where the first `k` calls return and the next ends the run, the run is the `k` events and that end. -/
theorem perform_ends_at {o : Owner} {acts : List Act} {s : State} {k : Nat} {e : Event} {m : EnvMove}
    {later : List EnvMove} (h : (eventsOf acts)[k]? = some e) (henv : s.env = List.replicate k .ok ++ m :: later) :
    ∃ a b, acts = a ++ .call e :: b ∧ eventsOf a = (eventsOf acts).take k ∧
      (∀ t, issue o e (afterEvents ((eventsOf acts).take k) (placed a s)) = .ended t → perform o acts s = .ended t) ∧
      (placed a s).env = s.env ∧ (afterEvents ((eventsOf acts).take k) (placed a s)).env = m :: later := by
  obtain ⟨a, b, h1, h2⟩ := eventsOf_split h
  have hk : k < (eventsOf acts).length := (List.getElem?_eq_some_iff.1 h).1
  have hl : (eventsOf a).length = k := by rw [h2, List.length_take]; omega
  have hp : (placed a s).env = s.env := by
    obtain ⟨q, r, c, u, h⟩ := placed_writes a s
    rw [h]
  refine ⟨a, b, h1, h2, fun t ht => ?_, hp, ?_⟩
  · rw [h1, perform_append, perform_returns (fun x hx => ?_)]
    · rw [← h2] at ht
      simp only [perform, ht]
    · rw [hl, henv, List.take_left' List.length_replicate] at hx
      exact List.eq_of_mem_replicate hx
  · rw [afterEvents_env, hp, ← h2, hl, henv, List.drop_left' List.length_replicate]

/-- What the programmer never writes: loader state, control registers, status flags, latched inputs, commands. -/
structure SameFrame (s s' : State) : Prop where
  fa : s'.fa = s.fa
  ldr : s'.ldr = s.ldr
  base : s'.base = s.base
  runLen : s'.runLen = s.runLen
  lineNo : s'.lineNo = s.lineNo
  marker : s'.marker = s.marker
  pinMap : s'.pinMap = s.pinMap
  timing : s'.timing = s.timing
  rows : s'.rows = s.rows
  olmc : s'.olmc = s.olmc
  setupDone : s'.setupDone = s.setupDone
  progUsed : s'.progUsed = s.progUsed
  cmd : s'.cmd = s.cmd

theorem SameFrame.refl (s : State) : SameFrame s s := by constructor <;> rfl

theorem SameFrame.trans {a b c : State} (h : SameFrame a b) (h' : SameFrame b c) : SameFrame a c := by
  constructor
  · rw [h'.fa, h.fa]
  · rw [h'.ldr, h.ldr]
  · rw [h'.base, h.base]
  · rw [h'.runLen, h.runLen]
  · rw [h'.lineNo, h.lineNo]
  · rw [h'.marker, h.marker]
  · rw [h'.pinMap, h.pinMap]
  · rw [h'.timing, h.timing]
  · rw [h'.rows, h.rows]
  · rw [h'.olmc, h.olmc]
  · rw [h'.setupDone, h.setupDone]
  · rw [h'.progUsed, h.progUsed]
  · rw [h'.cmd, h.cmd]

/-- The state a run leaves, however it ends. -/
def Run.state : Run → State
  | .through s => s
  | .ended s => s

/-- One event, however it ends, writes nothing outside the programmer. -/
theorem issue_sameFrame (o : Owner) (e : Event) (s : State) : SameFrame s (issue o e s).state := by
  unfold issue
  split <;> constructor <;> simp [Run.state]

/-- A run, however it ends, writes nothing outside the programmer. -/
theorem perform_sameFrame (o : Owner) (acts : List Act) (s : State) : SameFrame s (perform o acts s).state := by
  induction acts generalizing s with
  | nil => exact .refl s
  | cons a acts ih =>
    cases a with
    | call e =>
      have h := issue_sameFrame o e s
      simp only [perform]
      cases hi : issue o e s with
      | through s' => rw [hi] at h; exact h.trans (ih s')
      | ended s' => rw [hi] at h; exact h
    | setRow x => exact SameFrame.trans (by constructor <;> rfl) (ih _)
    | setCol x => exact SameFrame.trans (by constructor <;> rfl) (ih _)
    | setUstep x => exact SameFrame.trans (by constructor <;> rfl) (ih _)
    | setSeq x => exact SameFrame.trans (by constructor <;> rfl) (ih _)

/-- The trace only grows, however one event ends. -/
theorem issue_trace (o : Owner) (e : Event) (s : State) : s.trace <+: (issue o e s).state.trace := by
  unfold issue
  split <;> simp [Run.state]

/-- The trace only grows, however a run ends. -/
theorem perform_trace (o : Owner) (acts : List Act) (s : State) : s.trace <+: (perform o acts s).state.trace := by
  induction acts generalizing s with
  | nil => exact List.prefix_refl _
  | cons a acts ih =>
    cases a with
    | call e =>
      have h := issue_trace o e s
      simp only [perform]
      cases hi : issue o e s with
      | through s' => rw [hi] at h; exact h.trans (ih s')
      | ended s' => rw [hi] at h; exact h
    | setRow x => exact ih (place (.setRow x) s)
    | setCol x => exact ih (place (.setCol x) s)
    | setUstep x => exact ih (place (.setUstep x) s)
    | setSeq x => exact ih (place (.setSeq x) s)

/-- A run of the sequence that ends early leaves `Aborted` (R184, R187). -/
theorem perform_ended_aborted {acts : List Act} {s s' : State} (h : perform .sequence acts s = .ended s') :
    s'.seq = .aborted := by
  induction acts generalizing s with
  | nil => simp [perform] at h
  | cons a acts ih =>
    cases a with
    | call e =>
      simp only [perform] at h
      unfold issue at h
      split at h
      · next hi => exact ih h
      · next hi =>
        split at hi <;> simp at hi h <;> subst hi <;> subst h <;> rfl
    | setRow x => exact ih h
    | setCol x => exact ih h
    | setUstep x => exact ih h
    | setSeq x => exact ih h

end Sys2Proof.Machine
end

