-- ==== Sys2Proof/Laws/Acts.lean ====
section
/-! SUPPORT. The acts of each operation: their events, and what they leave in the working registers. -/

namespace Sys2Proof.Machine

open Sys2Proof.Safety

@[simp] theorem eventsOf_xbitActs (b : Bool) : eventsOf (xbitActs b) = bitEvents b := rfl

@[simp] theorem placed_xbitActs (b : Bool) (s : State) : placed (xbitActs b) s = { s with ustep := 0#2 } := by
  simp [xbitActs, placed, place]

@[simp] theorem eventsOf_shiftActs (c : Nat) (bs : Bits) : eventsOf (shiftActs c bs) = bitsEvents bs := by
  induction bs generalizing c with
  | nil => rfl
  | cons b bs ih =>
    rw [shiftActs, List.cons_append, eventsOf, eventsOf_append, ih, eventsOf_xbitActs]
    rfl

/-- Shifting leaves `col` at the last position and `ustep` at 0 (R34). -/
theorem placed_shiftActs (c : Nat) (bs : Bits) (s : State) (h : bs ≠ []) :
    placed (shiftActs c bs) s = { s with col := BitVec.ofNat 8 (c + bs.length - 1), ustep := 0#2 } := by
  induction bs generalizing c s with
  | nil => exact absurd rfl h
  | cons b bs ih =>
    cases bs with
    | nil => simp [shiftActs, placed, place]
    | cons b' bs =>
      rw [shiftActs, List.cons_append, placed, placed_append, placed_xbitActs, ih _ _ (by simp)]
      simp [place, Nat.add_assoc, Nat.add_comm 1]

@[simp] theorem addressBits_length (a : Config.RowAddr) : (addressBits a).length = 6 := rfl

/-- Bit `i` by division is bit `i` of the word (R98). -/
theorem addressBits_eq (a : Config.RowAddr) : addressBits a = addressOrder a := by
  revert a; decide

@[simp] theorem eventsOf_shiftRowActs (data : Bits) (a : Config.RowAddr) :
    eventsOf (shiftRowActs data a) = bitsEvents data ++ bitsEvents (addressOrder a) := by
  simp [shiftRowActs, eventsOf, addressBits_eq]

/-- A row frame leaves its address in `row` and the last position in `col` (R34). -/
theorem placed_shiftRowActs (data : Bits) (a : Config.RowAddr) (s : State) :
    placed (shiftRowActs data a) s = { s with row := a, col := 137#8, ustep := 0#2 } := by
  rw [shiftRowActs, List.cons_append, placed, placed_append,
    placed_shiftActs _ (addressBits a) _ (by simp [addressBits])]
  cases data with
  | nil => simp [shiftActs, placed, place, addressBits]
  | cons b bs => simp [placed_shiftActs _ (b :: bs) _ (by simp), place, addressBits]

@[simp] theorem bitsEvents_length (bs : Bits) : (bitsEvents bs).length = 4 * bs.length := by
  induction bs with
  | nil => rfl
  | cons b bs ih => simp [bitsEvents, bitEvents] at ih ⊢; omega

@[simp] theorem bitsEvents_append (a b : Bits) : bitsEvents (a ++ b) = bitsEvents a ++ bitsEvents b := by
  simp [bitsEvents]

/-- The strobe that closes a written frame, at the source's times (R6). -/
@[simp] theorem eventsOf_commitActs : eventsOf (commitActs Config.params.timing) = commitEvents := rfl

@[simp] theorem placed_commitActs (s : State) : placed (commitActs Config.params.timing) s = s := rfl

@[simp] theorem eventsOf_fRowActs (r : Config.RowAddr) (data : Bits) :
    eventsOf (fRowActs Config.params.timing r data) =
      rowEvents r data := by
  simp [fRowActs, rowEvents]

@[simp] theorem eventsOf_rowsActs (r : Nat) (rows : List Bits) :
    eventsOf (rowsActs Config.params.timing r rows) = rowsEvents r rows := by
  induction rows generalizing r with
  | nil => rfl
  | cons data rest ih => rw [rowsActs, eventsOf_append, ih, eventsOf_fRowActs]; rfl

/-- The rows leave the last address in `row` (R34). -/
theorem placed_rowsActs (r : Nat) (rows : List Bits) (s : State) (h : rows ≠ []) :
    placed (rowsActs Config.params.timing r rows) s =
      { s with row := BitVec.ofNat 6 (r + rows.length - 1), col := 137#8, ustep := 0#2 } := by
  induction rows generalizing r s with
  | nil => exact absurd rfl h
  | cons data rest ih =>
    rw [rowsActs, placed_append, fRowActs, placed_append, placed_shiftRowActs, placed_commitActs]
    cases rest with
    | nil => simp [rowsActs, placed]
    | cons data' rest =>
      rw [ih _ _ (by simp)]
      simp [Nat.add_assoc, Nat.add_comm 1]

/-! ### The steps of the sequence, at the source's times (R6) -/

@[simp] theorem eventsOf_s1Acts : eventsOf (s1Acts Config.params.timing) = s1Events := rfl
@[simp] theorem eventsOf_s2Acts : eventsOf s2Acts = s2Events := rfl
@[simp] theorem eventsOf_s3Acts : eventsOf (s3Acts Config.params.timing) = s3Events := rfl
@[simp] theorem eventsOf_s4Acts (rows : List Bits) :
    eventsOf (s4Acts Config.params.timing rows) = rowsEvents 0 rows := by
  simp [s4Acts, eventsOf]
@[simp] theorem eventsOf_s5Acts (olmc : Bits) : eventsOf (s5Acts Config.params.timing olmc) = s5Events olmc := by
  simp [s5Acts, eventsOf, s5Events, setlActs]
@[simp] theorem eventsOf_s6Acts : eventsOf (s6Acts Config.params.timing) = s6Events := by
  rw [s6Acts, eventsOf_append, eventsOf_append, eventsOf_shiftRowActs, eventsOf_commitActs, zeroRow, Config.nCols_eq,
    s6Events]
  simp only [eventsOf, List.append_nil]
  rfl
@[simp] theorem eventsOf_s7Acts : eventsOf s7Acts = s7Events := rfl
@[simp] theorem eventsOf_s8Acts : eventsOf (s8Acts Config.params.timing) = s8Events := rfl

/-- The acts of `PROGRAM` issue the list of R166. -/
theorem eventsOf_programActs (rows : List Bits) (olmc : Bits) :
    eventsOf (programActs Config.params.timing rows olmc) = programEvents rows olmc := by
  simp only [programActs, eventsOf_append, eventsOf_s1Acts, eventsOf_s2Acts, eventsOf_s3Acts, eventsOf_s4Acts,
    eventsOf_s5Acts, eventsOf_s6Acts, eventsOf_s7Acts, eventsOf_s8Acts, programEvents]

theorem placed_s1Acts (s : State) :
    placed (s1Acts Config.params.timing) s = { s with seq := .programmingModeEntered } := rfl
theorem placed_s2Acts (s : State) : placed s2Acts s = { s with seq := .writeModeEnabled } := rfl
theorem placed_s3Acts (s : State) : placed (s3Acts Config.params.timing) s = { s with seq := .erased } := rfl
theorem placed_s4Acts (rows : List Bits) (s : State) (h : rows ≠ []) :
    placed (s4Acts Config.params.timing rows) s =
      { s with seq := .matrixWritten, row := BitVec.ofNat 6 (rows.length - 1), col := 137#8, ustep := 0#2 } := by
  rw [s4Acts, placed_append, placed_rowsActs _ _ _ h, Nat.zero_add]
  rfl
theorem placed_s5Acts (olmc : Bits) (s : State) (h : olmc ≠ []) :
    placed (s5Acts Config.params.timing olmc) s =
      { s with seq := .olmcWritten, col := BitVec.ofNat 8 (olmc.length - 1), ustep := 0#2 } := by
  simp [s5Acts, placed, place, setlActs, placed_shiftActs _ _ _ h]
theorem placed_s6Acts (s : State) :
    placed (s6Acts Config.params.timing) s =
      { s with seq := .powerDownRowWritten, row := 59#6, col := 137#8, ustep := 0#2 } := by
  rw [s6Acts, placed_append, placed_append, placed_shiftRowActs, placed_commitActs]
  rfl
theorem placed_s7Acts (s : State) : placed s7Acts s = { s with seq := .writeModeDisabled } := rfl
theorem placed_s8Acts (s : State) : placed (s8Acts Config.params.timing) s = { s with seq := .idle } := rfl

/-- A run of `PROGRAM` leaves `seq` at `Idle` and the working registers as step 6 left them. -/
theorem placed_programActs (rows : List Bits) (olmc : Bits) (s : State) :
    placed (programActs Config.params.timing rows olmc) s =
      { s with seq := .idle, row := 59#6, col := 137#8, ustep := 0#2 } := by
  obtain ⟨q, r, c, k, h⟩ := placed_writes
    (s1Acts Config.params.timing ++ s2Acts ++ s3Acts Config.params.timing ++ s4Acts Config.params.timing rows ++
      s5Acts Config.params.timing olmc) s
  rw [programActs, placed_append, placed_append, placed_append, h, placed_s6Acts, placed_s7Acts, placed_s8Acts]

/-! ### Lengths and levels -/

theorem rowEvents_length {r : Config.RowAddr} {data : Bits} (h : data.length = 132) : (rowEvents r data).length = 556 := by
  simp [rowEvents, h, addressOrder, commitEvents]

theorem rowsEvents_length {r : Nat} {rows : List Bits} (h : ∀ x ∈ rows, x.length = 132) :
    (rowsEvents r rows).length = 556 * rows.length := by
  induction rows generalizing r with
  | nil => rfl
  | cons data rest ih =>
    rw [rowsEvents, List.length_append, rowEvents_length (h data (by simp)), ih (fun x hx => h x (by simp [hx])),
      List.length_cons]
    omega

theorem s5Events_length {olmc : Bits} (h : olmc.length = 20) : (s5Events olmc).length = 86 := by
  simp [s5Events, h, commitEvents]

theorem s6Events_length : s6Events.length = 556 := by simp [s6Events, commitEvents]

/-- Shifted bits leave the last of them on the shared pin and CLOCK high, and no other pin moves. -/
theorem pinsAfter_bitsEvents (bs : Bits) (h : bs ≠ []) (p : Pins) :
    pinsAfter (bitsEvents bs) p = (p.drive .dataIn (bs.getLast h)).drive .clock true := by
  induction bs generalizing p with
  | nil => exact absurd rfl h
  | cons b bs ih =>
    have hc : bitsEvents (b :: bs) = bitEvents b ++ bitsEvents bs := rfl
    rw [hc, pinsAfter_append]
    cases bs with
    | nil => rfl
    | cons c bs => rw [List.getLast_cons (by simp), ih (by simp)]; rfl

/-- The strobe that closes a written frame leaves STROBE high and no other pin moved. -/
theorem pinsAfter_commitEvents (p : Pins) : pinsAfter commitEvents p = p.drive .strobe true := rfl

end Sys2Proof.Machine
end

