-- ==== Sys2Proof/Laws/Exec.lean ====
section
/-! SUPPORT. What an operation can do: it is turned away, or it is its loader update, or it is a run of acts. Proofs over
all operations cite `exec_next` and do not unfold the meanings. -/

namespace Sys2Proof.Machine

open Sys2Proof.Safety

/-- An admitted command: turned away, or its operation. -/
theorem admitted_next {c : Option TurnAway} {s t : State} {k : State → Host.Outcome State Fault Refusal}
    (h : admitted c s k = .next t) :
    (∃ why, c = some why ∧ t = refuse why s) ∨ (c = none ∧ k s = .next t) := by
  cases c with
  | none => exact .inr ⟨rfl, h⟩
  | some why =>
    simp only [admitted, turnAway, Host.Outcome.next.injEq] at h
    exact .inl ⟨why, rfl, h.symm⟩

/-- A concluded run: it went through and the operation ended it, or it ended early. -/
theorem conclude_next {r : Run} {k : State → State} {t : State} (h : conclude r k = .next t) :
    (∃ s, r = .through s ∧ t = k s) ∨ r = .ended t := by
  cases r with
  | through s =>
    simp only [conclude, Host.Outcome.next.injEq] at h
    exact .inl ⟨s, rfl, h.symm⟩
  | ended s =>
    simp only [conclude, Host.Outcome.next.injEq] at h
    exact .inr (by rw [h])

/-- What the loader's operations do to an admitted state. -/
def loaderUpdate : Instr → State → State
  | .ldClear, s => clearLoader s
  | .ldLine l, s => takeLine l s
  | .ldSkip _, s => answer .nothing s
  | .ldPatch l, s => takePatch l s
  | .ldEof, s => takeEof s
  | .ldIoErr, s => takeIoError s
  | .ldRow r, s => answer (.row (matrixRow s.fa r)) s
  | .ldOlmc, s => answer (.olmc (olmcString s.fa)) s
  | .parse ls e, s => answer (parseResult (parseFile ls e s)) (parseFile ls e s)
  | .setup, s => s
  | .setl _ _, s => s
  | .wait _, s => s
  | .xbit _, s => s
  | .strobe _, s => s
  | .shiftRow _ _, s => s
  | .program _ _, s => s
  | .s1, s => s
  | .s2, s => s
  | .s3, s => s
  | .s4, s => s
  | .fRow _ _, s => s
  | .s5, s => s
  | .s6, s => s
  | .s7, s => s
  | .s8, s => s
  | .abort, s => answer .ended s

/-- The admission of each operation. -/
def admission : Instr → State → Option TurnAway
  | .ldClear, s => whenIdle s
  | .ldLine _, s => whenLineTaken s
  | .ldSkip l, s => withOperand (!isRecord s.marker l) (whenLineTaken s)
  | .ldPatch l, s => withOperand (isRecord s.marker l) (whenLineTaken s)
  | .ldEof, s => whenIdle s
  | .ldIoErr, s => whenIdle s
  | .ldRow r, s => withOperand (decide (r < Config.nRows)) (whenReadable s)
  | .ldOlmc, s => whenReadable s
  | .parse _ _, s => whenIdle s
  | .setup, s => whenIdle s
  | .setl role _, s => withOperand (decide (role ≠ .dataOut)) (whenIdle s)
  | .wait _, s => whenIdle s
  | .xbit _, s => whenIdle s
  | .strobe _, s => whenIdle s
  | .shiftRow data _, s => withOperand (decide (data.length = Config.nCols)) (whenIdle s)
  | .program rows olmc, s => whenProgram rows olmc s
  | .s1, s => whenProgram (matrixRows s.fa) (olmcString s.fa) s
  | .s2, s => whenAt .programmingModeEntered s
  | .s3, s => whenAt .writeModeEnabled s
  | .s4, s => whenAt .erased s
  | .fRow r data, s =>
    withOperand (decide (r.toNat < Config.nRows) && decide (data.length = Config.nCols)) (whenAt .erased s)
  | .s5, s => whenAt .matrixWritten s
  | .s6, s => whenAt .olmcWritten s
  | .s7, s => whenAt .powerDownRowWritten s
  | .s8, s => whenAt .writeModeDisabled s
  | .abort, s => whenAbort s

/-- Whether an operation issues events. -/
def issues : Instr → Bool
  | .setup => true
  | .setl _ _ => true
  | .wait _ => true
  | .xbit _ => true
  | .strobe _ => true
  | .shiftRow _ _ => true
  | .program _ _ => true
  | .s1 => true
  | .s2 => true
  | .s3 => true
  | .s4 => true
  | .fRow _ _ => true
  | .s5 => true
  | .s6 => true
  | .s7 => true
  | .s8 => true
  | .ldClear => false
  | .ldLine _ => false
  | .ldSkip _ => false
  | .ldPatch _ => false
  | .ldEof => false
  | .ldIoErr => false
  | .ldRow _ => false
  | .ldOlmc => false
  | .parse _ _ => false
  | .abort => false

/-- Whose events they are. -/
def ownerOf : Instr → Owner
  | .program _ _ => .sequence
  | .s1 => .sequence
  | .s2 => .sequence
  | .s3 => .sequence
  | .s4 => .sequence
  | .fRow _ _ => .sequence
  | .s5 => .sequence
  | .s6 => .sequence
  | .s7 => .sequence
  | .s8 => .sequence
  | .ldClear => .command
  | .ldLine _ => .command
  | .ldSkip _ => .command
  | .ldPatch _ => .command
  | .ldEof => .command
  | .ldIoErr => .command
  | .ldRow _ => .command
  | .ldOlmc => .command
  | .parse _ _ => .command
  | .setup => .command
  | .setl _ _ => .command
  | .wait _ => .command
  | .xbit _ => .command
  | .strobe _ => .command
  | .shiftRow _ _ => .command
  | .abort => .command

/-- The acts of an operation admitted in a state. -/
def actsOf : Instr → State → List Act
  | .setup, _ => setupActs
  | .setl role v, _ => setlActs role v
  | .wait t, _ => waitActs t
  | .xbit b, _ => xbitActs b
  | .strobe d, _ => strobeActs d
  | .shiftRow data a, _ => shiftRowActs data a
  | .program rows olmc, s => programActs s.timing rows olmc
  | .s1, s => s1Acts s.timing
  | .s2, _ => s2Acts
  | .s3, s => s3Acts s.timing
  | .s4, s => s4Acts s.timing s.rows
  | .fRow r data, s => fRowActs s.timing r data
  | .s5, s => s5Acts s.timing s.olmc
  | .s6, s => s6Acts s.timing
  | .s7, _ => s7Acts
  | .s8, s => s8Acts s.timing
  | .ldClear, _ => []
  | .ldLine _, _ => []
  | .ldSkip _, _ => []
  | .ldPatch _, _ => []
  | .ldEof, _ => []
  | .ldIoErr, _ => []
  | .ldRow _, _ => []
  | .ldOlmc, _ => []
  | .parse _ _, _ => []
  | .abort, _ => []

/-- What an operation writes before its first event. -/
def begins : Instr → State → State
  | .program rows olmc, s => startProgram rows olmc s
  | .s2, s => s
  | .s3, s => s
  | .s4, s => s
  | .fRow _ _, s => s
  | .s5, s => s
  | .s6, s => s
  | .s7, s => s
  | .s8, s => s
  | .setup, s => { s with evIdx := 0 }
  | .setl _ _, s => { s with evIdx := 0 }
  | .wait _, s => { s with evIdx := 0 }
  | .xbit _, s => { s with evIdx := 0 }
  | .strobe _, s => { s with evIdx := 0 }
  | .shiftRow _ _, s => { s with evIdx := 0 }
  | .s1, s => startProgram (matrixRows s.fa) (olmcString s.fa) s
  | .ldClear, s => s
  | .ldLine _, s => s
  | .ldSkip _, s => s
  | .ldPatch _, s => s
  | .ldEof, s => s
  | .ldIoErr, s => s
  | .ldRow _, s => s
  | .ldOlmc, s => s
  | .parse _ _, s => s
  | .abort, s => s

/-- What an operation writes after its last event. -/
def finishes : Instr → State → State
  | .setup, s => answer .nothing { s with setupDone := true }
  | .xbit _, s => answer (.sampled s.sample) s
  | .setl _ _, s => answer .nothing s
  | .wait _, s => answer .nothing s
  | .strobe _, s => answer .nothing s
  | .shiftRow _ _, s => answer .nothing s
  | .program _ _, s => answer .nothing s
  | .s1, s => answer .nothing s
  | .s2, s => answer .nothing s
  | .s3, s => answer .nothing s
  | .s4, s => answer .nothing s
  | .fRow _ _, s => answer .nothing s
  | .s5, s => answer .nothing s
  | .s6, s => answer .nothing s
  | .s7, s => answer .nothing s
  | .s8, s => answer .nothing s
  | .ldClear, s => s
  | .ldLine _, s => s
  | .ldSkip _, s => s
  | .ldPatch _, s => s
  | .ldEof, s => s
  | .ldIoErr, s => s
  | .ldRow _, s => s
  | .ldOlmc, s => s
  | .parse _ _, s => s
  | .abort, s => s

/-- Every operation in one form. -/
theorem exec_eq (i : Instr) (s : State) :
    exec i s =
      admitted (admission i s) s fun s =>
        if issues i then conclude (perform (ownerOf i) (actsOf i s) (begins i s)) (finishes i)
        else .next (loaderUpdate i s) := by
  cases i <;> rfl

/-- Where an operation is not admitted it is turned away. -/
theorem exec_turnedAway {i : Instr} {s : State} {why : TurnAway} (h : admission i s = some why) :
    exec i s = .next (refuse why s) := by
  rw [exec_eq, h]; rfl

/-- Where an operation is admitted and its calls return, it is its events, its register writes and its last writes. -/
theorem exec_returns {i : Instr} {s : State} (h : admission i s = none) (hi : issues i = true)
    (hc : CallsReturn (eventsOf (actsOf i s)).length (begins i s)) :
    exec i s = .next (finishes i (afterEvents (eventsOf (actsOf i s)) (placed (actsOf i s) (begins i s)))) := by
  rw [exec_eq, h]
  simp [admitted, hi, perform_returns hc, conclude]

/-- Where an operation is admitted and its run ends early, it leaves what the run leaves. -/
theorem exec_ended {i : Instr} {s t : State} (h : admission i s = none) (hi : issues i = true)
    (hp : perform (ownerOf i) (actsOf i s) (begins i s) = .ended t) : exec i s = .next t := by
  rw [exec_eq, h]
  simp [admitted, hi, hp, conclude]

/-- `exec_returns` with the list of events and its length given. -/
theorem exec_events (i : Instr) (s : State) (es : List Event) (n : Nat) (h : admission i s = none)
    (hi : issues i = true) (he : eventsOf (actsOf i s) = es) (hn : es.length = n) (hc : CallsReturn n s) :
    exec i s = .next (finishes i (afterEvents es (placed (actsOf i s) (begins i s)))) := by
  subst he
  subst hn
  exact exec_returns h hi (callsReturn_of_env hc (by cases i <;> rfl))

/-- Where a loader operation or an abort is admitted, it is its update. -/
theorem exec_loader {i : Instr} {s : State} (h : admission i s = none) (hi : issues i = false) :
    exec i s = .next (loaderUpdate i s) := by
  rw [exec_eq, h]; simp [admitted, hi]

/-- What an operation that answers can have done. -/
theorem exec_next {i : Instr} {s t : State} (h : exec i s = .next t) :
    (∃ why, admission i s = some why ∧ t = refuse why s) ∨
      (admission i s = none ∧ issues i = false ∧ t = loaderUpdate i s) ∨
      (admission i s = none ∧ issues i = true ∧
        ((∃ u, perform (ownerOf i) (actsOf i s) (begins i s) = .through u ∧ t = finishes i u) ∨
          perform (ownerOf i) (actsOf i s) (begins i s) = .ended t)) := by
  rw [exec_eq] at h
  obtain ⟨why, h1, h2⟩ | ⟨h1, h2⟩ := admitted_next h
  · exact .inl ⟨why, h1, h2⟩
  · right
    cases hi : issues i with
    | false =>
      rw [hi] at h2
      simp only [Bool.false_eq_true, if_false, Host.Outcome.next.injEq] at h2
      exact .inl ⟨h1, rfl, h2.symm⟩
    | true =>
      rw [hi] at h2
      exact .inr ⟨h1, rfl, conclude_next h2⟩

/-- In `Aborted` no operation is admitted (R185). -/
theorem admission_aborted (i : Instr) {s : State} (h : s.seq = .aborted) : admission i s ≠ none := by
  cases i <;>
    simp only [admission, whenIdle, whenLineTaken, whenReadable, whenAt, whenAbort, whenProgram, withOperand, h] <;> grind

/-- A command that was turned away ends nothing. -/
theorem endOf_refuse (i : Instr) (why : TurnAway) (s : State) : endOf i (refuse why s) = none := rfl

/-- In `Aborted` no operation reaches an end. -/
theorem runEnd_aborted (is : List Instr) {s : State} (h : s.seq = .aborted) : runEnd is s = none := by
  induction is generalizing s with
  | nil => rfl
  | cons i is ih =>
    cases ha : admission i s with
    | none => exact absurd ha (admission_aborted i h)
    | some why =>
      simp only [runEnd, exec_turnedAway ha, endOf_refuse]
      exact ih h

/-- An end that is not final is an `Aborted` sequence's. -/
theorem endOf_notFinal {i : Instr} {t : State} {e : RunEnd} (he : endOf i t = some e) (hf : e.isFinal = false) :
    t.seq = .aborted := by
  have hs : sequenceEnd t = some e → t.seq = .aborted := by
    unfold sequenceEnd
    split
    · exact fun _ => by assumption
    · split
      · intro h; cases h; cases hf
      · intro h; cases h
  have hl : loaderEnd t = some e → t.seq = .aborted := by
    unfold loaderEnd
    split
    · split <;> intro h <;> cases h
      cases hf
    all_goals intro h; cases h
  have ha : abortEnd t = some e → t.seq = .aborted := by
    unfold abortEnd
    split <;> intro h <;> cases h
    cases hf
  unfold endOf at he
  split at he
  · cases he
  · cases i <;> first | exact hs he | exact hl he | exact ha he | cases he

/-- A run ends at its first operation where that reaches an end, whatever is presented after it. -/
theorem runEnd_first {i : Instr} {s t : State} {e : RunEnd} (h : exec i s = .next t) (he : endOf i t = some e)
    (is : List Instr) : runEnd (i :: is) s = some e := by
  simp only [runEnd, h, he]
  cases hf : e.isFinal with
  | true => rfl
  | false => simp [runEnd_aborted is (endOf_notFinal he hf)]

/-- The events of an operation's acts, at the source's times. -/
theorem eventsOf_actsOf (i : Instr) (s : State) (ht : s.timing = Config.params.timing) :
    eventsOf (actsOf i s) = eventsFor i s := by
  cases i with
  | strobe d => cases d <;> rfl
  | shiftRow data a => exact eventsOf_shiftRowActs data a
  | xbit b => rfl
  | program rows olmc => rw [actsOf, ht]; exact eventsOf_programActs rows olmc
  | s1 => rw [actsOf, ht]; rfl
  | s3 => rw [actsOf, ht]; rfl
  | s4 => rw [actsOf, ht]; exact eventsOf_s4Acts _
  | fRow r data => rw [actsOf, ht]; exact eventsOf_fRowActs r data
  | s5 => rw [actsOf, ht]; exact eventsOf_s5Acts _
  | s6 => rw [actsOf, ht]; exact eventsOf_s6Acts
  | s8 => rw [actsOf, ht]; rfl
  | _ => rfl

/-- The loader's views have the sizes `PROGRAM` admits, so step 1 asks for the state alone (R151). -/
theorem programOperands_views (m : List Host.Cell) : programOperands (matrixRows m) (olmcString m) = true := by
  simp [programOperands, matrixRows, matrixRow, olmcString] <;> decide

/-- Where step 1, presented by itself, is admitted. -/
theorem admission_s1 {s : State} :
    admission .s1 s = none ↔ s.ldr = .valid ∧ s.setupDone = true ∧ s.seq = .idle ∧ s.progUsed = false := by
  simp only [admission, whenProgram, programOperands_views]
  cases s.setupDone <;> cases s.progUsed <;> by_cases hl : s.ldr = .valid <;> by_cases hq : s.seq = .idle <;> simp [hl, hq]

/-- What an operation writes before its first event, in the environment's list: nothing. -/
theorem begins_env (i : Instr) (s : State) : (begins i s).env = s.env := by cases i <;> rfl

/-- What no operation writes before its first event: the pins and the trace, the loader's state, and what `SETUP`, a
sample or a failing call leaves. -/
theorem begins_frame (i : Instr) (s : State) :
    (begins i s).pins = s.pins ∧ (begins i s).trace = s.trace ∧ (begins i s).fa = s.fa ∧ (begins i s).ldr = s.ldr ∧
      (begins i s).setupDone = s.setupDone ∧ (begins i s).gpioFault = s.gpioFault ∧ (begins i s).draws = s.draws ∧
      (begins i s).seq = s.seq := by
  cases i <;> exact ⟨rfl, rfl, rfl, rfl, rfl, rfl, rfl, rfl⟩

/-- An operation that is not turned away is admitted. -/
theorem admission_none {i : Instr} {s : State} (h : ¬TurnedAway i s) : admission i s = none := by
  cases ha : admission i s with
  | none => rfl
  | some why => exact absurd ⟨why, exec_turnedAway ha⟩ h

/-- Where the first `k` calls of an admitted operation return and the next fails: the events before it, and the fault
taken at it. `a` is the acts before the failing call. -/
theorem exec_fails {i : Instr} {s : State} {k : Nat} {e : Event} {landed : Bool} {later : List EnvMove}
    (h : admission i s = none) (hi : issues i = true) (hk : (eventsOf (actsOf i s))[k]? = some e)
    (hw : isWait e = false) (henv : s.env = List.replicate k .ok ++ .fail landed :: later) :
    ∃ a b, actsOf i s = a ++ .call e :: b ∧
      exec i s = .next (takeGpioFailure (ownerOf i) e landed
        (popMove (afterEvents ((eventsOf (actsOf i s)).take k) (placed a (begins i s))))) ∧
      (afterEvents ((eventsOf (actsOf i s)).take k) (placed a (begins i s))).env = .fail landed :: later := by
  obtain ⟨a, b, h1, -, h3, -, h5⟩ := perform_ends_at (o := ownerOf i) hk ((begins_env i s).trans henv)
  refine ⟨a, b, h1, exec_ended h hi (h3 _ ?_), h5⟩
  have hm : moveAt (ownerOf i) e (afterEvents ((eventsOf (actsOf i s)).take k) (placed a (begins i s))) =
      .fail landed := by
    unfold moveAt
    rw [h5]
    cases e with
    | wait d => cases hw
    | _ => rfl
  rw [issue, hm]

/-- Where the first `k` calls of an admitted step of the sequence return and the environment stops the next. -/
theorem exec_stopped {i : Instr} {s : State} {k : Nat} {later : List EnvMove}
    (h : admission i s = none) (hi : issues i = true) (ho : ownerOf i = .sequence)
    (hk : k < (eventsOf (actsOf i s)).length) (henv : s.env = List.replicate k .ok ++ .stop :: later) :
    ∃ a, exec i s = .next (takeStop .sequence
        (popMove (afterEvents ((eventsOf (actsOf i s)).take k) (placed a (begins i s))))) ∧
      (afterEvents ((eventsOf (actsOf i s)).take k) (placed a (begins i s))).env = .stop :: later := by
  obtain ⟨a, b, -, -, h3, -, h5⟩ :=
    perform_ends_at (o := ownerOf i) (List.getElem?_eq_getElem hk) ((begins_env i s).trans henv)
  refine ⟨a, exec_ended h hi (h3 _ ?_), h5⟩
  have hm : moveAt (ownerOf i) (eventsOf (actsOf i s))[k]
      (afterEvents ((eventsOf (actsOf i s)).take k) (placed a (begins i s))) = .stop := by
    unfold moveAt
    rw [h5, ho]
    rfl
  rw [issue, hm, ho]

/-- Acts that write no `seq` leave it. -/
theorem placed_seq {acts : List Act} (h : ∀ q, Act.setSeq q ∉ acts) (s : State) : (placed acts s).seq = s.seq := by
  induction acts generalizing s with
  | nil => rfl
  | cons a acts ih =>
    rw [placed, ih (fun q hq => h q (List.mem_cons_of_mem _ hq))]
    cases a with
    | setSeq q => exact absurd List.mem_cons_self (h q)
    | _ => rfl

/-- What an admitted `PROGRAM` asks of the state and its operands (R151). -/
theorem whenProgram_none {rows : List Bits} {olmc : Bits} {s : State} (h : whenProgram rows olmc s = none) :
    s.ldr = .valid ∧ s.setupDone = true ∧ s.seq = .idle ∧ s.progUsed = false ∧ rows.length ≤ 44 ∧
      (∀ r ∈ rows, r.length = 132) ∧ olmc.length = 20 := by
  unfold whenProgram at h
  have hp : programOperands rows olmc = true →
      rows.length ≤ 44 ∧ (∀ r ∈ rows, r.length = 132) ∧ olmc.length = 20 := fun hh => by
    simp only [programOperands, Bool.and_eq_true, decide_eq_true_eq, List.all_eq_true] at hh
    exact ⟨hh.1.1, hh.1.2, hh.2⟩
  split at h <;> try simp at h
  split at h <;> try simp at h
  split at h <;> try simp at h
  split at h <;> try simp at h
  simp_all

end Sys2Proof.Machine
end

