-- ==== Sys2Proof/Laws/PerInstr.lean ====
section
/-! SUPPORT. For each operation: its bytes begin with a byte that is not the host's reset, so that a fetch never takes an
operation for a reset. -/

namespace Sys2Proof.Laws.EncodeHead

open Sys2Proof.Machine

/-- The encoding of the instruction begins with a byte that is not the reset byte. -/
def Statement (i : Instr) : Prop := ∃ b rest, encode i = b :: rest ∧ b ≠ resetByte

theorem ldClear : Statement .ldClear := ⟨_, _, rfl, by decide⟩
theorem ldLine (l : Line) : Statement (.ldLine l) := ⟨_, _, rfl, by decide⟩
theorem ldSkip (l : Line) : Statement (.ldSkip l) := ⟨_, _, rfl, by decide⟩
theorem ldPatch (l : Line) : Statement (.ldPatch l) := ⟨_, _, rfl, by decide⟩
theorem ldEof : Statement .ldEof := ⟨_, _, rfl, by decide⟩
theorem ldIoErr : Statement .ldIoErr := ⟨_, _, rfl, by decide⟩
theorem ldRow (r : Nat) : Statement (.ldRow r) := ⟨_, _, rfl, by decide⟩
theorem ldOlmc : Statement .ldOlmc := ⟨_, _, rfl, by decide⟩
theorem parse (ls : List Line) (e : Bool) : Statement (.parse ls e) := ⟨_, _, rfl, by decide⟩
theorem setup : Statement .setup := ⟨_, _, rfl, by decide⟩
theorem setl (role : Role) (v : Bool) : Statement (.setl role v) := ⟨_, _, rfl, by decide⟩
theorem wait (t : Nat) : Statement (.wait t) := ⟨_, _, rfl, by decide⟩
theorem xbit (b : Bool) : Statement (.xbit b) := ⟨_, _, rfl, by decide⟩
theorem strobe (d : Nat) : Statement (.strobe d) := ⟨_, _, rfl, by decide⟩
theorem shiftRow (data : Bits) (a : Config.RowAddr) : Statement (.shiftRow data a) := ⟨_, _, rfl, by decide⟩
theorem program (rows : List Bits) (olmc : Bits) : Statement (.program rows olmc) := ⟨_, _, rfl, by decide⟩
theorem s1 : Statement .s1 := ⟨_, _, rfl, by decide⟩
theorem s2 : Statement .s2 := ⟨_, _, rfl, by decide⟩
theorem s3 : Statement .s3 := ⟨_, _, rfl, by decide⟩
theorem s4 : Statement .s4 := ⟨_, _, rfl, by decide⟩
theorem fRow (r : Config.RowAddr) (data : Bits) : Statement (.fRow r data) :=
  ⟨_, _, rfl, by
    have h : ∀ r : Config.RowAddr, r.setWidth 8 ≠ resetByte := by decide
    exact h r⟩
theorem s5 : Statement .s5 := ⟨_, _, rfl, by decide⟩
theorem s6 : Statement .s6 := ⟨_, _, rfl, by decide⟩
theorem s7 : Statement .s7 := ⟨_, _, rfl, by decide⟩
theorem s8 : Statement .s8 := ⟨_, _, rfl, by decide⟩
theorem abort : Statement .abort := ⟨_, _, rfl, by decide⟩

end Sys2Proof.Laws.EncodeHead
end

