-- ==== Sys2Proof/Tests/Slice0.lean ====
section
/-! SUPPORT. The model's own tests. Expected results are the spec's: the rules' examples and the vectors of
95_test_vectors; the command codes above `0xBF` are the model's (log 1). The witnesses at the end show that the
hypotheses of the statements can be met. -/

namespace Sys2Proof.Tests

open Sys2Proof.Machine Sys2Proof.Safety

set_option maxRecDepth 100000

/-! ### Helpers -/

/-- The state an operation answers. -/
def after (i : Instr) (s : State) : State :=
  match exec i s with
  | .next t => t
  | .fault _ => s
  | .refused _ => s

/-- A state in a given sequence state and loader status, set up, with all lines low. -/
def stateAt (q : Seq) (l : Ldr) : State := { State.reset with seq := q, ldr := l, setupDone := true }

/-- The marker `*L` and what follows it. -/
def starL (rest : List Byte) : Line := 0x2A#8 :: 0x4C#8 :: rest

/-- 132 zeros. -/
def zeros : Bits := List.replicate 132 false

/-- 20 zeros. -/
def zeros20 : Bits := List.replicate 20 false

/-- An operation that lengthens the trace is not turned away. -/
theorem not_turnedAway {i : Instr} {s : State} (h : (after i s).trace.length ≠ s.trace.length) : ¬TurnedAway i s := by
  rintro ⟨why, hw⟩
  exact h (by rw [after, hw])

/-- The trace without the bits its reads returned. -/
def events (s : State) : List Event := s.trace.map unanswered

/-! ### WellFormed: an ill-formed term for each check, which it refuses -/

theorem test_wf_ldLine : Instr.wf (.ldLine [0x2A#8, 0x0A#8]) = false := by decide
theorem test_wf_ldSkip : Instr.wf (.ldSkip [0x0A#8]) = false := by decide
theorem test_wf_ldPatch : Instr.wf (.ldPatch [0x2A#8, 0x4C#8, 0x0A#8]) = false := by decide
theorem test_wf_ldRow : Instr.wf (.ldRow 44) = false := by decide
theorem test_wf_parse : Instr.wf (.parse [[0x41#8], [0x0A#8]] false) = false := by decide
theorem test_wf_setl : Instr.wf (.setl .dataOut true) = false := by decide
theorem test_wf_wait : Instr.wf (.wait (2 ^ 32)) = false := by decide
theorem test_wf_strobe : Instr.wf (.strobe (2 ^ 32)) = false := by decide
theorem test_wf_shiftRow : Instr.wf (.shiftRow (List.replicate 131 false) 0#6) = false := by decide
theorem test_wf_fRow_row : Instr.wf (.fRow 44#6 zeros) = false := by decide
theorem test_wf_fRow_data : Instr.wf (.fRow 0#6 (List.replicate 133 false)) = false := by decide

/-! ### Decode: a word written out for every constructor -/

theorem test_decode_ldClear : decode [0xC0#8] = .ok (.ldClear, []) := rfl
theorem test_decode_ldLine : decode [0xC1#8, 0x51#8, 0x46#8, 0x0A#8] = .ok (.ldLine [0x51#8, 0x46#8], []) := rfl
theorem test_decode_ldSkip : decode [0xC2#8, 0x0A#8] = .ok (.ldSkip [], []) := rfl
theorem test_decode_ldPatch : decode [0xC3#8, 0x2A#8, 0x4C#8, 0x0A#8] = .ok (.ldPatch [0x2A#8, 0x4C#8], []) := rfl
theorem test_decode_ldEof : decode [0xC4#8] = .ok (.ldEof, []) := rfl
theorem test_decode_ldIoErr : decode [0xC5#8] = .ok (.ldIoErr, []) := rfl
theorem test_decode_ldRow : decode [0xC6#8, 0x2B#8] = .ok (.ldRow 43, []) := rfl
theorem test_decode_ldOlmc : decode [0xC7#8] = .ok (.ldOlmc, []) := rfl
theorem test_decode_parse :
    decode [0xC8#8, 0x01#8, 0x41#8, 0x0A#8, 0x01#8, 0x0A#8, 0x02#8] = .ok (.parse [[0x41#8], []] true, []) := rfl
theorem test_decode_setup : decode [0xC9#8] = .ok (.setup, []) := rfl
theorem test_decode_setl : decode [0xCA#8, 0x07#8, 0x01#8] = .ok (.setl .strobe true, []) := rfl
theorem test_decode_wait : decode [0xCB#8, 0x10#8, 0x27#8, 0x00#8, 0x00#8] = .ok (.wait 10000, []) := rfl
theorem test_decode_xbit : decode [0xCC#8, 0x01#8] = .ok (.xbit true, []) := rfl
theorem test_decode_strobe : decode [0xCD#8, 0x30#8, 0x75#8, 0x00#8, 0x00#8] = .ok (.strobe 30000, []) := rfl
theorem test_decode_shiftRow :
    decode (0xCE#8 :: List.replicate 132 0x00#8 ++ [0x3B#8]) = .ok (.shiftRow zeros 59#6, []) := rfl
theorem test_decode_program :
    decode [0xCF#8, 0x01#8, 0x01#8, 0x00#8, 0x02#8, 0x00#8, 0x01#8, 0x02#8] = .ok (.program [[true, false]] [true], []) :=
  rfl
theorem test_decode_s1 : decode [0xD1#8] = .ok (.s1, []) := rfl
theorem test_decode_s2 : decode [0xD2#8] = .ok (.s2, []) := rfl
/-- R101: the six low bits of an erase frame's word are any. -/
theorem test_decode_s3 : decode [0x80#8, 0xBF#8] = .ok (.s3, [0xBF#8]) ∧ decode [0xBF#8] = .ok (.s3, []) := ⟨rfl, rfl⟩
theorem test_decode_s4 : decode [0xD4#8] = .ok (.s4, []) := rfl
/-- R94, R101: row 43 is `00101011`; its first data bit is column 0. -/
theorem test_decode_fRow :
    decode (0x2B#8 :: 0x01#8 :: List.replicate 131 0x00#8) = .ok (.fRow 43#6 (true :: List.replicate 131 false), []) := rfl
/-- R101: `0x5E` is the OLMC word of program P2. -/
theorem test_decode_s5 : decode [0x40#8] = .ok (.s5, []) ∧ decode [0x5E#8] = .ok (.s5, []) := ⟨rfl, rfl⟩
theorem test_decode_s6 : decode [0x3B#8] = .ok (.s6, []) := rfl
theorem test_decode_s7 : decode [0xD7#8] = .ok (.s7, []) := rfl
theorem test_decode_s8 : decode [0xD8#8] = .ok (.s8, []) := rfl
theorem test_decode_abort : decode [0xDF#8] = .ok (.abort, []) := rfl

/-- R102: 44, 58, 60 and 63 are no row's address. -/
theorem test_decode_reserved_addresses :
    decode (0x2C#8 :: zeroPayload) = .error (.reservedRowAddress 44#6) ∧
      decode (0x3A#8 :: zeroPayload) = .error (.reservedRowAddress 58#6) ∧
      decode (0x3C#8 :: zeroPayload) = .error (.reservedRowAddress 60#6) ∧
      decode (0x3F#8 :: zeroPayload) = .error (.reservedRowAddress 63#6) := ⟨rfl, rfl, rfl, rfl⟩

/-- Every rejection by name. -/
theorem test_decode_rejects :
    decode [] = .error .noByte ∧ decode [0xC1#8, 0x41#8] = .error .truncated ∧
      decode [0xE0#8] = .error (.unassignedCode 0xE0#8) ∧ decode [0xC6#8, 0x2C#8] = .error (.rowOutOfRange 0x2C#8) ∧
      decode (0xCE#8 :: List.replicate 132 0x00#8 ++ [0x40#8]) = .error (.addressOutOfRange 0x40#8) ∧
      decode [0xCA#8, 0x06#8, 0x00#8] = .error (.notAnOutputRole 0x06#8) ∧
      decode [0xCC#8, 0x02#8] = .error (.notABit 0x02#8) ∧ decode [0xC8#8, 0x05#8] = .error (.badListTag 0x05#8) :=
  ⟨rfl, rfl, rfl, rfl, rfl, rfl, rfl, rfl⟩

theorem test_tableWord :
    decodeTableWord 8 0x80 = some .s3 ∧ decodeTableWord 8 0x00 = some (.fRow 0#6 zeros) ∧
      decodeTableWord 8 0x40 = some .s5 ∧ decodeTableWord 8 0x3B = some .s6 := ⟨rfl, rfl, rfl, rfl⟩

/-- A table word placed after reset is the very next operation. -/
theorem test_withFetchWord :
    step (State.reset.withFetchWord 8 0x80) = exec .s3 (stateAt .writeModeEnabled .empty |> fun s => { s with setupDone := false }) ∧
      step (State.reset.withFetchWord 8 0x40) = exec .s5 { State.reset with seq := .matrixWritten } ∧
      step (State.reset.withFetchWord 8 0x3B) = exec .s6 { State.reset with seq := .olmcWritten } ∧
      step (State.reset.withFetchWord 8 0x2B) = exec (.fRow 43#6 zeros) { State.reset with seq := .erased } :=
  ⟨rfl, rfl, rfl, rfl⟩

/-! ### The loader (95_test_vectors 2.1 to 2.3) -/

theorem test_ldClear : (after .ldClear { State.reset with fa := [(3, 0x01#8)], ldr := .fault .ioError }).fa = [] ∧
    (after .ldClear { State.reset with ldr := .fault .ioError }).ldr = .empty := by decide

/-- Vector 3: `*L08440 11111111`. -/
theorem test_ldLine_v3 :
    (after (.ldLine (starL [0x30#8, 0x38#8, 0x34#8, 0x34#8, 0x30#8, 0x20#8, 0x31#8, 0x31#8, 0x31#8, 0x31#8, 0x31#8, 0x31#8,
      0x31#8, 0x31#8])) State.reset).fa = (List.range 8).map fun j => (8440 + j, 0x01#8) := by decide

/-- Vector 4: `*L08440 111111111` is a range fault of line 1; nothing is written. -/
theorem test_ldLine_v4 :
    let t := after (.ldLine (starL [0x30#8, 0x38#8, 0x34#8, 0x34#8, 0x30#8, 0x20#8, 0x31#8, 0x31#8, 0x31#8, 0x31#8, 0x31#8,
      0x31#8, 0x31#8, 0x31#8, 0x31#8])) State.reset
    t.ldr = .fault (.formatRange 1 8440 9) ∧ t.fa = [] := by decide

/-- Vectors 24 and 12: `*L00005 1 0` sets cells 5 and 6; `*L00000X1` sets cell 0. -/
theorem test_ldPatch :
    (after (.ldPatch (starL [0x30#8, 0x30#8, 0x30#8, 0x30#8, 0x35#8, 0x20#8, 0x31#8, 0x20#8, 0x30#8])) State.reset).fa =
        [(5, 0x01#8), (6, 0x01#8)] ∧
      (after (.ldPatch (starL [0x30#8, 0x30#8, 0x30#8, 0x30#8, 0x30#8, 0x58#8, 0x31#8])) State.reset).fa =
        [(0, 0x01#8)] := by decide

/-- Vectors 13 and 15: `*L` and `*L1234 1`. -/
theorem test_ldPatch_malformed :
    (after (.ldLine (starL [])) State.reset).ldr = .fault (.formatAddr 1 []) ∧
      (after (.ldLine (starL [0x31#8, 0x32#8, 0x33#8, 0x34#8, 0x20#8, 0x31#8])) State.reset).ldr =
        .fault (.formatAddr 1 [0x31#8, 0x32#8, 0x33#8, 0x34#8, 0x20#8]) := by decide

/-- Vector 18: a leading space. -/
theorem test_ldSkip :
    (after (.ldLine (0x20#8 :: starL [0x30#8, 0x30#8, 0x30#8, 0x30#8, 0x30#8, 0x20#8, 0x31#8])) State.reset).fa = [] ∧
      (after (.ldSkip [0x2A#8]) State.reset).reply = .nothing := by decide

/-- Vectors 29 and 32. -/
theorem test_ldEof : (after .ldEof State.reset).ldr = .valid ∧
    (after .ldEof (stateAt .idle (.fault .ioError))).ldr = .fault .ioError := by decide

theorem test_ldIoErr : (after .ldIoErr State.reset).ldr = .fault .ioError ∧
    (after .ldIoErr (stateAt .idle (.fault (.formatAddr 1 [])))).ldr = .fault (.formatAddr 1 []) := by decide

/-- R117: with only cell 44 set, row 0 is `0`, `1`, then zeros. -/
theorem test_ldRow : (after (.ldRow 0) { stateAt .idle .valid with fa := [(44, 0x01#8)] }).reply =
    .row (false :: true :: List.replicate 130 false) := by decide

/-- 2.3: `10110100011100101101` reads as `01111000101100011110`. -/
theorem test_ldOlmc : (after .ldOlmc { stateAt .idle .valid with
      fa := [(5808, 1#8), (5810, 1#8), (5811, 1#8), (5813, 1#8), (5817, 1#8), (5818, 1#8), (5819, 1#8), (5822, 1#8),
        (5824, 1#8), (5825, 1#8), (5827, 1#8)] }).reply =
    .olmc [false, true, true, true, true, false, false, false, true, false, true, true, false, false, false, true, true,
      true, true, false] := by decide

/-- Vector 27: `*L00010 111`, then `*L00011 0`: the later record wins. -/
theorem test_parse_overlap :
    let t := after (.parse [starL [0x30#8, 0x30#8, 0x30#8, 0x31#8, 0x30#8, 0x20#8, 0x31#8, 0x31#8, 0x31#8],
      starL [0x30#8, 0x30#8, 0x30#8, 0x31#8, 0x31#8, 0x20#8, 0x30#8]] false) State.reset
    t.ldr = .valid ∧ t.fa = [(10, 0x01#8), (12, 0x01#8)] := by decide

/-- Vector 28 and program P4: the second line faults, the third is dropped. -/
theorem test_parse_faults :
    let t := after (.parse [starL [0x30#8, 0x30#8, 0x30#8, 0x31#8, 0x30#8, 0x20#8, 0x31#8, 0x31#8, 0x31#8],
      starL [0x30#8, 0x38#8, 0x34#8, 0x34#8, 0x30#8, 0x20#8, 0x31#8, 0x31#8, 0x31#8, 0x31#8, 0x31#8, 0x31#8, 0x31#8, 0x31#8,
        0x31#8],
      starL [0x30#8, 0x30#8, 0x30#8, 0x32#8, 0x30#8, 0x20#8, 0x31#8]] false) State.reset
    t.reply = .loaderFault (.formatRange 2 8440 9) ∧ t.fa = [(10, 0x01#8), (11, 0x01#8), (12, 0x01#8)] := by decide

/-- Vector 23: trailing space, tab and carriage return go; R87: a last line without a line feed is a line. -/
theorem test_run_and_lines :
    runField (starL [0x30#8, 0x30#8, 0x30#8, 0x30#8, 0x35#8, 0x20#8, 0x31#8, 0x30#8, 0x20#8, 0x09#8, 0x0D#8]) =
        [0x31#8, 0x30#8] ∧
      splitLines [0x41#8, 0x0A#8, 0x0A#8, 0x42#8] = [[0x41#8], [], [0x42#8]] := by decide

/-! ### The primitives (95_test_vectors 2.4) -/

theorem test_setup : (after .setup State.reset).trace =
      [.dir .program .output, .wr .program false, .dir .write .output, .wr .write false, .dir .erase .output,
        .wr .erase false, .dir .accessOlmc .output, .wr .accessOlmc false, .dir .clock .output, .wr .clock false,
        .dir .dataIn .output, .wr .dataIn false, .dir .dataOut .input, .dir .strobe .output, .wr .strobe false] ∧
    (after .setup State.reset).setupDone = true := by decide

/-- D21: a write that changes no level is issued all the same. -/
theorem test_setl : (after (.setl .erase false) State.reset).trace = [.wr .erase false] ∧
    (after (.setl .write true) State.reset).pins.level .dataIn = true := by decide

theorem test_wait : (after (.wait 10000) State.reset).trace = [.wait 10000] := by decide

theorem test_xbit : events (after (.xbit true) State.reset) =
      [.rd .dataOut none, .wr .clock false, .wr .dataIn true, .wr .clock true] ∧
    (after (.xbit true) State.reset).pins.level .write = true := ⟨rfl, rfl⟩

theorem test_strobe : (after (.strobe 0) State.reset).trace = [.wr .strobe false, .wr .strobe true] ∧
    (after (.strobe 30000) State.reset).trace = [.wr .strobe false, .wait 30000, .wr .strobe true] := by decide

/-- 2.4: address 43 goes out as `1 0 1 0 1 1`, after the 132 data bits. -/
theorem test_shiftRow : (eventsOf (shiftRowActs zeros 43#6)).drop 528 =
      bitEvents true ++ bitEvents false ++ bitEvents true ++ bitEvents false ++ bitEvents true ++ bitEvents true ∧
    (eventsOf (shiftRowActs zeros 43#6)).length = 552 := ⟨rfl, rfl⟩

/-! ### The sequence (95_test_vectors 2.5, 2.6, program P5) -/

/-- Step 1 from a set-up `Valid` parse; from reset it is turned away as `PROGRAM` is (R2, R151). -/
theorem test_s1 : (after .s1 (stateAt .idle .valid)).trace =
      [.wr .clock true, .wr .strobe true, .wait 5000, .wr .program true, .wait 5000] ∧
    (after .s1 (stateAt .idle .valid)).progUsed = true ∧ (after .s1 (stateAt .idle .valid)).rows.length = 44 ∧
    exec .s1 State.reset = .next { State.reset with turnedAway := some .notValid } := ⟨rfl, rfl, rfl, rfl⟩

theorem test_s2 : (after .s2 (stateAt .programmingModeEntered .valid)).trace =
    [.wr .write true, .wr .accessOlmc false, .wr .erase false] := by decide

theorem test_s3 : (after .s3 (stateAt .writeModeEnabled .valid)).trace =
    [.wr .erase true, .wait 10000, .wr .strobe false, .wait 30000, .wr .strobe true, .wait 10000, .wr .erase false] := by
  decide

/-- R155: no event for no rows. -/
theorem test_s4 : (after .s4 (stateAt .erased .valid)).trace = [] ∧
    (after .s4 (stateAt .erased .valid)).seq = .matrixWritten := by decide

/-- R156: a row ends with its strobe and its wait. -/
theorem test_fRow : (eventsOf (fRowActs Config.params.timing 1#6 zeros)).drop 548 =
    [.rd .dataOut none, .wr .clock false, .wr .dataIn true, .wr .clock true, .wr .strobe false, .wait 5000,
      .wr .strobe true, .wait 10000] := rfl

/-- R160: 86 events; the first bit out is `olmc[0]`. -/
theorem test_s5 :
    (eventsOf (s5Acts Config.params.timing (true :: List.replicate 19 false))).take 5 =
        .wr .accessOlmc true :: bitEvents true ∧
      (eventsOf (s5Acts Config.params.timing (true :: List.replicate 19 false))).length = 86 := ⟨rfl, rfl⟩

/-- R162: address 59 goes out as `1 1 1 0 1 1`. -/
theorem test_s6 : ((eventsOf (s6Acts Config.params.timing)).drop 528).take 24 =
    bitEvents true ++ bitEvents true ++ bitEvents true ++ bitEvents false ++ bitEvents true ++ bitEvents true := rfl

theorem test_s7 : (after .s7 (stateAt .powerDownRowWritten .valid)).trace = [.wr .write false, .wr .dataIn false] := by
  decide

theorem test_s8 : (after .s8 (stateAt .writeModeDisabled .valid)).trace =
      [.wr .program false, .wait 5000, .wr .strobe false, .wr .clock false, .wait 5000] ∧
    (after .s8 (stateAt .writeModeDisabled .valid)).seq = .idle := by decide

/-- Program P5: the events at 10, 567, 1121 and 1765 of 1776. -/
theorem test_program_p5 :
    (programEvents [zeros, zeros] zeros20).length = 1776 ∧
      (programEvents [zeros, zeros] zeros20)[10]? = some (.wr .strobe false) ∧
      (programEvents [zeros, zeros] zeros20)[567]? = some (.wr .strobe false) ∧
      (programEvents [zeros, zeros] zeros20)[1121]? = some (.wr .dataIn true) ∧
      (programEvents [zeros, zeros] zeros20)[1765]? = some (.wr .strobe false) := ⟨rfl, rfl, rfl, rfl, rfl⟩

/-- 2.6, case 8: the call at event 10 fails. -/
theorem test_program_fails_at_10 :
    let t := after (.program [] zeros20)
      { stateAt .idle .valid with env := List.replicate 10 .ok ++ [.fail false] }
    t.seq = .aborted ∧ t.trace.length = 11 ∧ t.gpioFault = some ⟨10, .wr .strobe false⟩ ∧
      Levels t.pins true true true false true true := ⟨rfl, rfl, rfl, rfl, rfl, rfl, rfl, rfl, rfl, rfl⟩

/-- 2.6, cases 2 and 4: before `SETUP`, and with 45 rows. The host gets back nothing (R228), and an operation that is taken
clears the note of the refusal. -/
theorem test_program_turned_away :
    (after (.program [] zeros20) { stateAt .idle .valid with setupDone := false }).turnedAway = some .noSetup ∧
      (after (.program [] zeros20) { stateAt .idle .valid with setupDone := false, reply := .ended }).reply = .nothing ∧
      (after (.program (List.replicate 45 zeros) zeros20) (stateAt .idle .valid)).turnedAway = some .badOperand ∧
      (after .ldEof { State.reset with turnedAway := some .notIdle }).turnedAway = none := by
  decide

/-- 2.6, case 9: no event. -/
theorem test_abort : (after .abort (stateAt .idle .valid)).trace = [] ∧
    (after .abort (stateAt .idle .valid)).reply = .ended := by decide

theorem test_reset_memory : Memory.wf State.reset.fa = true := rfl

/-- `PINMAP` is as R29 asks. -/
theorem test_pinMap : Config.params.pinMap.distinct = true := by decide

/-- U11: a line before `SETUP` has no level. -/
theorem test_readLine : readLine State.reset .program = .error .noLineLevel ∧
    readLine (after .setup State.reset) .program = .ok false := ⟨rfl, rfl⟩

/-! ### Witnesses: the hypotheses of each statement can be met -/

/-- A state of a running sequence, after step 3. -/
def midRun : State :=
  { State.reset with
    cmd := [0xD4#8], seq := .erased, ldr := .valid, setupDone := true, progUsed := true,
    pins := (after .s3 (after .s2 (after .s1 (after .setup { State.reset with ldr := .valid })))).pins }

theorem witness_ResetGivesStartOfLife :
    (State.reset = State.reset ∨ State.reset = hostReset midRun) ∧
      (hostReset midRun = State.reset ∨ hostReset midRun = hostReset midRun) := ⟨.inl rfl, .inr rfl⟩

theorem witness_InvariantKeptByEveryStep : Inv midRun ∧ ∃ t, step midRun = .next t :=
  ⟨{ memory := rfl, cleared := fun h => (by cases h), timing := rfl, pinsDistinct := rfl,
     configured := fun _ => ⟨rfl, rfl, rfl, rfl, rfl, rfl, rfl, rfl⟩,
     lines := ⟨rfl, rfl, rfl, rfl, rfl, rfl, rfl⟩,
     started := fun _ => ⟨rfl, rfl, rfl⟩,
     latched := rfl }, _, rfl⟩

theorem witness_DecodeEncodeRoundTrip :
    Instr.wf (.wait (2 ^ 32 - 1)) = true ∧ Instr.wf (.fRow 43#6 zeros) = true ∧ Instr.wf (.ldRow 43) = true := by decide

theorem witness_DecodeYieldsWellFormed : decode [0xC6#8, 0x2B#8] = .ok (.ldRow 43, []) := rfl

theorem witness_CommandWordsClassifyFrames :
    (0xBF#8 &&& 0xC0#8 = 0x80#8) ∧ (0x7F#8 &&& 0xC0#8 = 0x40#8) ∧ (43#8).toNat ≤ 43 ∧ zeros.length = 132 ∧
      (43 < (44#8).toNat ∧ (44#8).toNat ≤ 63 ∧ 44#8 ≠ 0x3B#8) ∧ (43 < (63#8).toNat ∧ (63#8).toNat ≤ 63 ∧ 63#8 ≠ 0x3B#8) := by
  decide

theorem witness_StepRunsDecodedOperation :
    midRun.cmd.head? ≠ some resetByte ∧ decode midRun.cmd = .ok (.s4, []) := ⟨by decide, rfl⟩

theorem witness_StepWithoutOperation :
    State.reset.cmd = [] ∧ ({ State.reset with cmd := [0xFF#8] } : State).cmd = resetByte :: [] ∧
      [0xE0#8] ≠ ([] : List Byte) ∧ [0xE0#8].head? ≠ some resetByte ∧
      decode [0xE0#8] = .error (.unassignedCode 0xE0#8) := ⟨rfl, rfl, by decide, by decide, rfl⟩

/-- For `ParseIsItsOperations`, and for the `Idle` clause of every loader statement. -/
theorem witness_idle_and_not : (stateAt .idle .empty).seq = .idle ∧ (stateAt .aborted .empty).seq ≠ .idle := by decide

theorem witness_LdClearZeroesTheArray : (stateAt .idle .valid).seq = .idle ∧ (stateAt .erased .valid).seq ≠ .idle := by
  decide

/-- Each clause, with lines of two characters and of one. -/
theorem witness_LdLineTakesOneLine :
    ((stateAt .erased .empty).seq ≠ .idle ∧ (stateAt .idle .valid).ldr = .valid) ∧
      ((stateAt .idle (.fault .ioError)).seq = .idle ∧ ∃ f, (stateAt .idle (.fault .ioError)).ldr = .fault f) ∧
      (2 ≤ (starL []).length ∧ (starL []).take 2 = [State.reset.marker.first, State.reset.marker.second]) ∧
      ¬(2 ≤ [0x2A#8].length ∧ [0x2A#8].take 2 = [State.reset.marker.first, State.reset.marker.second]) :=
  ⟨by decide, ⟨rfl, _, rfl⟩, by decide, by decide⟩

/-- `*L1234`, in `Empty`. -/
theorem witness_MalformedAddressFaults :
    State.reset.seq = .idle ∧ (State.reset.ldr = .empty ∨ State.reset.ldr = .loading) ∧
      (starL [0x31#8, 0x32#8, 0x33#8, 0x34#8]).take 2 = [State.reset.marker.first, State.reset.marker.second] ∧
      ¬((((starL [0x31#8, 0x32#8, 0x33#8, 0x34#8]).drop 2).take 5).length = 5 ∧
        ∀ ch ∈ ((starL [0x31#8, 0x32#8, 0x33#8, 0x34#8]).drop 2).take 5, 0x30 ≤ ch.toNat ∧ ch.toNat ≤ 0x39) := by decide

/-- `*L08449 `: one past the last legal base. -/
theorem witness_OutOfRangeRecordFaults :
    let line := starL [0x30#8, 0x38#8, 0x34#8, 0x34#8, 0x39#8, 0x20#8]
    let s := stateAt .idle .loading
    s.seq = .idle ∧ (s.ldr = .empty ∨ s.ldr = .loading) ∧ line.take 2 = [s.marker.first, s.marker.second] ∧
      (line.drop 2).take 5 = [0x30#8, 0x38#8, 0x34#8, 0x34#8, 0x39#8] ∧
      (∀ ch ∈ [0x30#8, 0x38#8, 0x34#8, 0x34#8, 0x39#8], 0x30 ≤ ch.toNat ∧ ch.toNat ≤ 0x39) ∧
      8449 = ((0x30#8).toNat - 0x30) * 10000 + ((0x38#8).toNat - 0x30) * 1000 + ((0x34#8).toNat - 0x30) * 100 +
        ((0x34#8).toNat - 0x30) * 10 + ((0x39#8).toNat - 0x30) ∧
      8448 < 8449 + (rtrim (line.drop 8)).length := by decide

/-- `*L08447 1`: the last cell. -/
theorem witness_RecordWritesItsRun :
    let line := starL [0x30#8, 0x38#8, 0x34#8, 0x34#8, 0x37#8, 0x20#8, 0x31#8]
    let s := stateAt .idle .empty
    s.seq = .idle ∧ (s.ldr = .empty ∨ s.ldr = .loading) ∧ Memory.wf s.fa = true ∧
      line.take 2 = [s.marker.first, s.marker.second] ∧
      (line.drop 2).take 5 = [0x30#8, 0x38#8, 0x34#8, 0x34#8, 0x37#8] ∧
      (∀ ch ∈ [0x30#8, 0x38#8, 0x34#8, 0x34#8, 0x37#8], 0x30 ≤ ch.toNat ∧ ch.toNat ≤ 0x39) ∧
      8447 = ((0x30#8).toNat - 0x30) * 10000 + ((0x38#8).toNat - 0x30) * 1000 + ((0x34#8).toNat - 0x30) * 100 +
        ((0x34#8).toNat - 0x30) * 10 + ((0x37#8).toNat - 0x30) ∧
      8447 + (rtrim (line.drop 8)).length ≤ 8448 ∧ (rtrim (line.drop 8))[0]? = some 0x31#8 := by decide

theorem witness_LdPatchOutsideItsStates :
    ((stateAt .erased .empty).seq ≠ .idle ∧ (stateAt .idle .valid).ldr = .valid ∧
        [0x2A#8].take 2 ≠ [State.reset.marker.first, State.reset.marker.second]) ∧
      ((stateAt .idle (.fault .ioError)).seq = .idle ∧ (∃ f, (stateAt .idle (.fault .ioError)).ldr = .fault f) ∧
        (starL []).take 2 = [State.reset.marker.first, State.reset.marker.second]) :=
  ⟨by decide, rfl, ⟨_, rfl⟩, rfl⟩

/-- A run that ends in a carriage return, and a line of eight characters. -/
theorem witness_RunLosesTrailingWhitespaceOnly :
    (rtrim [0x31#8, 0x20#8, 0x30#8, 0x0D#8]).getLast? = some 0x30#8 ∧
      (starL [0x30#8, 0x30#8, 0x30#8, 0x30#8, 0x35#8, 0x20#8]).length ≤ 8 := by decide

theorem witness_FilesAreCutAtLineFeeds :
    ((∀ l ∈ [[0x41#8], ([] : Line)], Line.wf l = true) ∧ Line.wf [0x42#8] = true ∧ [0x42#8] ≠ ([] : Line)) ∧
      State.reset.ldr ≠ .valid ∧ ∃ t, exec (.ldLine [0x42#8]) State.reset = .next t :=
  ⟨by decide, by decide, _, rfl⟩

theorem witness_LdSkipChangesNothing :
    ((stateAt .idle .loading).seq = .idle ∧ (stateAt .idle .loading).ldr ≠ .valid ∧
        ([] : Line).take 2 ≠ [State.reset.marker.first, State.reset.marker.second]) ∧
      (stateAt .erased .loading).seq ≠ .idle ∧ (stateAt .idle .valid).ldr = .valid ∧
      (starL []).take 2 = [State.reset.marker.first, State.reset.marker.second] := by decide

theorem witness_LdEofValidates :
    ((stateAt .idle .empty).ldr = .empty ∧ (stateAt .idle .loading).ldr = .loading) ∧
      ((stateAt .idle .valid).seq = .idle ∧ (stateAt .idle .valid).ldr ≠ .empty ∧ (stateAt .idle .valid).ldr ≠ .loading) ∧
      ((stateAt .idle (.fault .ioError)).ldr = .fault .ioError ∧
        (stateAt .idle (.fault .ioError)).trace.any drivesHigh = false) ∧
      (stateAt .aborted .empty).seq ≠ .idle := by decide

theorem witness_LdIoErrFaults :
    ((stateAt .idle .empty).seq = .idle ∧ ∀ f, (stateAt .idle .empty).ldr ≠ .fault f) ∧
      ((stateAt .idle (.fault .ioError)).seq = .idle ∧ ∃ f, (stateAt .idle (.fault .ioError)).ldr = .fault f) ∧
      (stateAt .aborted .empty).seq ≠ .idle := ⟨⟨rfl, fun _ h => by cases h⟩, ⟨rfl, _, rfl⟩, by decide⟩

theorem witness_LdRowReadsItsCells :
    ((stateAt .idle .valid).seq = .idle ∧ (stateAt .idle .valid).ldr = .valid ∧ 43 ≤ 43 ∧ 131 < 132) ∧
      (stateAt .erased .valid).seq ≠ .idle ∧ (stateAt .idle .loading).ldr ≠ .valid ∧ 43 < 44 := by decide

theorem witness_LdOlmcReadsSwappedPairs :
    ((stateAt .idle .valid).seq = .idle ∧ (stateAt .idle .valid).ldr = .valid ∧ 19 < 20) ∧
      (stateAt .erased .valid).seq ≠ .idle ∧ (stateAt .idle (.fault .ioError)).ldr ≠ .valid := by decide

theorem witness_ParseIsDeterministic :
    let s := stateAt .idle .valid
    let s' := stateAt .idle .loading
    s.seq = .idle ∧ s'.seq = .idle ∧ s.marker = s'.marker ∧
      ∃ t t', exec (.parse [starL []] false) s = .next t ∧ exec (.parse [starL []] false) s' = .next t' :=
  ⟨rfl, rfl, rfl, _, _, rfl, rfl⟩

theorem witness_LoaderOutcomeIsSticky :
    Instr.ldEof ≠ .ldClear ∧ (∀ ls e, Instr.ldEof ≠ .parse ls e) ∧
      (∃ t, exec .ldEof (stateAt .idle (.fault .ioError)) = .next t ∧ (stateAt .idle (.fault .ioError)).ldr = .fault .ioError) ∧
      ∃ t, exec .ldEof (stateAt .idle .valid) = .next t ∧ (stateAt .idle .valid).ldr = .valid ∧ Instr.ldEof ≠ .ldIoErr :=
  ⟨by decide, fun _ _ h => (by cases h), ⟨_, rfl, rfl⟩, _, rfl, rfl, by decide⟩

/-- Calls return where the environment's list is empty. -/
theorem witness_callsReturn (n : Nat) : CallsReturn n State.reset ∧ CallsReturn n (stateAt .idle .valid) := by
  constructor <;> intro m hm <;> simp [stateAt, State.reset] at hm

theorem witness_SetupConfiguresTheLines :
    (State.reset.seq = .idle ∧ CallsReturn 15 State.reset ∧ CallsReturn 30 State.reset) ∧
      (∃ t u, exec .setup State.reset = .next t ∧ exec .setup t = .next u) ∧ (stateAt .erased .valid).seq ≠ .idle :=
  ⟨⟨rfl, (witness_callsReturn 15).1, (witness_callsReturn 30).1⟩, ⟨_, _, rfl, rfl⟩, by decide⟩

theorem witness_SetlDrivesOnePin :
    (State.reset.seq = .idle ∧ Role.write ≠ .dataOut ∧ CallsReturn 1 State.reset ∧ pinOf .clock ≠ pinOf .write) ∧
      (stateAt .erased .valid).seq ≠ .idle ∧ Role.dataOut = .dataOut :=
  ⟨⟨rfl, by decide, (witness_callsReturn 1).1, by decide⟩, by decide, rfl⟩

/-- For `WaitRecordsItsDuration`, `XbitTransfersOneBit`, `StrobePulses` and `ShiftRowShiftsDataThenAddress`. -/
theorem witness_primitives :
    State.reset.seq = .idle ∧ CallsReturn 2 State.reset ∧ CallsReturn 3 State.reset ∧ CallsReturn 4 State.reset ∧
      CallsReturn 552 State.reset ∧ zeros.length = 132 ∧ (stateAt .erased .valid).seq ≠ .idle ∧
      (List.replicate 131 false).length ≠ 132 :=
  ⟨rfl, (witness_callsReturn 2).1, (witness_callsReturn 3).1, (witness_callsReturn 4).1, (witness_callsReturn 552).1, rfl,
    by decide, by decide⟩

theorem witness_WriteAndDataInShareAPin :
    Config.params.pinMap.distinct = true ∧ pinId Config.params.pinMap .write = pinId Config.params.pinMap .dataIn := by
  decide

/-- Each condition of the admission met, and each alone unmet. -/
theorem witness_S1EntersProgrammingMode :
    let s := stateAt .idle .valid
    (s.timing = Config.params.timing ∧ s.ldr = .valid ∧ s.setupDone = true ∧ s.seq = .idle ∧ s.progUsed = false ∧
        CallsReturn 5 s) ∧
      (stateAt .idle .loading).ldr ≠ .valid ∧ ({ s with setupDone := false } : State).setupDone = false ∧
      (stateAt .aborted .valid).seq ≠ .idle ∧ ({ s with progUsed := true } : State).progUsed = true :=
  ⟨⟨rfl, rfl, rfl, rfl, rfl, (witness_callsReturn 5).2⟩, by decide, rfl, by decide, rfl⟩

/-- For `S2EnablesWriteMode` to `S8ExitsProgrammingMode`: `seq` names the step before, and it does not. -/
theorem witness_steps (q : Seq) (n : Nat) :
    (stateAt q .valid).timing = Config.params.timing ∧ (stateAt q .valid).seq = q ∧ CallsReturn n (stateAt q .valid) ∧
      (stateAt .aborted .valid).seq ≠ .programmingModeEntered ∧
      (stateAt .aborted .valid).seq ≠ .writeModeEnabled ∧ (stateAt .aborted .valid).seq ≠ .erased ∧
      (stateAt .aborted .valid).seq ≠ .matrixWritten ∧ (stateAt .aborted .valid).seq ≠ .olmcWritten ∧
      (stateAt .aborted .valid).seq ≠ .powerDownRowWritten ∧ (stateAt .aborted .valid).seq ≠ .writeModeDisabled := by
  refine ⟨rfl, rfl, fun m hm => ?_, by decide, by decide, by decide, by decide, by decide, by decide, by decide⟩
  simp [stateAt, State.reset] at hm

/-- No row, and 44 rows. -/
theorem witness_S4ProgramsTheRows :
    ((stateAt .erased .valid).rows = [] ∧ (stateAt .erased .valid).rows.length ≤ 44) ∧
      (List.replicate 44 zeros).length ≤ 44 ∧ (∀ r ∈ List.replicate 44 zeros, r.length = 132) ∧
      List.replicate 44 zeros ≠ [] := by
  refine ⟨by decide, by decide, fun r hr => ?_, by decide⟩
  rw [List.eq_of_mem_replicate hr]
  rfl

theorem witness_FRowProgramsOneRow :
    ((43#6).toNat ≤ 43 ∧ zeros.length = 132) ∧ 43 < (44#6).toNat ∧ (List.replicate 131 false).length ≠ 132 := by decide

theorem witness_S5ProgramsTheOlmcWord : (stateAt .matrixWritten .valid).olmc.length = 20 := by decide

/-- For `ProgramIssuesItsEventList`, `ProgramIsItsEightSteps`, `LinesAndStatesAfterEachStep` and `ProgramEmitsItsFrames`,
with 44 rows; and the operands that step 1 latches itself are among them. -/
theorem witness_ProgramIssuesItsEventList (n : Nat) :
    let s := stateAt .idle .valid
    let rows := List.replicate 44 zeros
    s.timing = Config.params.timing ∧ s.ldr = .valid ∧ s.setupDone = true ∧ s.seq = .idle ∧ s.progUsed = false ∧
      rows.length ≤ 44 ∧ (∀ r ∈ rows, r.length = 132) ∧ zeros20.length = 20 ∧ CallsReturn n s ∧
      Levels s.pins false false false false false false ∧ whenProgram rows zeros20 s = none ∧
      rows = matrixRows s.fa ∧ zeros20 = olmcString s.fa := by
  refine ⟨rfl, rfl, rfl, rfl, rfl, by decide, fun r hr => ?_, rfl, (witness_callsReturn n).2,
    ⟨rfl, rfl, rfl, rfl, rfl, rfl, rfl⟩, rfl, rfl, rfl⟩
  rw [List.eq_of_mem_replicate hr]
  rfl

theorem witness_ProgramIsAdmittedOnce :
    (stateAt .idle .loading).ldr ≠ .valid ∧ State.reset.setupDone = false ∧ midRun.seq ≠ .idle ∧ midRun.progUsed = true ∧
      44 < (List.replicate 45 zeros).length ∧ (∃ r ∈ [List.replicate 131 false], r.length ≠ 132) ∧
      (List.replicate 19 false).length ≠ 20 :=
  ⟨by decide, rfl, by decide, rfl, by decide, ⟨_, .head _, by decide⟩, by decide⟩

theorem witness_EventListTotals : (∀ r ∈ [zeros], r.length = 132) ∧ zeros20.length = 20 := by decide

theorem witness_CommandWordsOfARun : (List.replicate 44 zeros).length ≤ 44 ∧ zeros20.length = 20 := by decide

/-- Two contents; the sequence is stopped before its first event. -/
theorem witness_TraceShapeIgnoresContent :
    let s := { stateAt .idle .valid with env := [.stop] }
    [zeros].length = [List.replicate 132 true].length ∧ whenProgram [zeros] zeros20 s = none ∧
      whenProgram [List.replicate 132 true] (List.replicate 20 true) s = none ∧
      ∃ t t', exec (.program [zeros] zeros20) s = .next t ∧
        exec (.program [List.replicate 132 true] (List.replicate 20 true)) s = .next t' :=
  ⟨rfl, rfl, rfl, _, _, rfl, rfl⟩

/-- A step, and a `PROGRAM` that is stopped, from states in which `prog_used` and `setup_done` are set. -/
theorem witness_SeqOnlyAdvances :
    (∃ t, exec .s4 midRun = .next t ∧ midRun.progUsed = true ∧ midRun.setupDone = true ∧ t.seq = midRun.seq.succ) ∧
      ∃ t, exec (.program [] zeros20) { stateAt .idle .valid with env := [.stop] } = .next t ∧ t.seq = .aborted :=
  ⟨⟨_, rfl, rfl, rfl, rfl⟩, _, rfl, rfl⟩

/-- The call at event 3 fails (95_test_vectors 2.6, case 7). -/
theorem witness_GpioFailureAbortsProgram :
    let s := { stateAt .idle .valid with env := List.replicate 3 EnvMove.ok ++ EnvMove.fail true :: [] }
    s.timing = Config.params.timing ∧ whenProgram [] zeros20 s = none ∧
      (programEvents [] zeros20)[3]? = some (.wr .program true) ∧ isWait (.wr .program true) = false ∧
      s.env = List.replicate 3 EnvMove.ok ++ EnvMove.fail true :: [] := ⟨rfl, rfl, rfl, rfl, rfl⟩

/-- `SETUP`'s last call fails; the DATA_IN write of an `XBIT` fails; the last STROBE write of a row frame fails. -/
theorem witness_GpioFailureEndsOperation :
    let s := { State.reset with env := List.replicate 14 EnvMove.ok ++ EnvMove.fail false :: [] }
    let x := { State.reset with env := List.replicate 2 EnvMove.ok ++ EnvMove.fail true :: [] }
    let f := { midRun with env := List.replicate 554 EnvMove.ok ++ EnvMove.fail false :: [] }
    (s.seq = .idle ∧ 14 < 15 ∧ s.env = List.replicate 14 EnvMove.ok ++ EnvMove.fail false :: []) ∧
      (isPrimitive (.xbit true) = true ∧ x.timing = Config.params.timing ∧ ¬TurnedAway (.xbit true) x ∧
        (eventsFor (.xbit true) x)[2]? = some (.wr .dataIn true) ∧ isWait (.wr .dataIn true) = false) ∧
      isStep (.fRow 43#6 zeros) = true ∧ f.timing = Config.params.timing ∧ ¬TurnedAway (.fRow 43#6 zeros) f ∧
        (eventsFor (.fRow 43#6 zeros) f)[554]? = some (.wr .strobe true) ∧ isWait (.wr .strobe true) = false :=
  ⟨⟨rfl, by decide, rfl⟩, ⟨rfl, rfl, not_turnedAway (by decide), rfl, rfl⟩, rfl, rfl,
    not_turnedAway (by decide), rfl, rfl⟩

/-- `PROGRAM` is stopped before its last event, and within the clause about the PROGRAM line; step 2 before its last. -/
theorem witness_StopLeavesAProperPrefix :
    let s := { stateAt .idle .valid with env := List.replicate 663 EnvMove.ok ++ EnvMove.stop :: [] }
    let t := { stateAt .programmingModeEntered .valid with env := List.replicate 2 EnvMove.ok ++ EnvMove.stop :: [] }
    (s.timing = Config.params.timing ∧ whenProgram [] zeros20 s = none ∧ 663 < (programEvents [] zeros20).length ∧
        s.env = List.replicate 663 EnvMove.ok ++ EnvMove.stop :: [] ∧ 4 ≤ 659 ∧
        659 ≤ 659 + 556 * ([] : List Bits).length ∧ 659 < (programEvents [] zeros20).length) ∧
      isStep .s2 = true ∧ t.timing = Config.params.timing ∧ ¬TurnedAway .s2 t ∧ 2 < (eventsFor .s2 t).length ∧
        t.env = List.replicate 2 EnvMove.ok ++ EnvMove.stop :: [] :=
  ⟨⟨rfl, rfl, by decide, rfl, by decide, by decide, by decide⟩, rfl, rfl, not_turnedAway (by decide), by decide, rfl⟩

theorem witness_AbortedIsTerminal :
    let s := { stateAt .aborted .valid with cmd := [0xFF#8] }
    s.seq = .aborted ∧ s.cmd = resetByte :: [] := ⟨rfl, rfl⟩

/-- After `SETUP`, and in a running sequence. -/
theorem witness_AbortBeforeProgram :
    let s := after .setup State.reset
    (s.seq = .idle ∧ s.progUsed = false ∧ ∀ e ∈ s.trace, e ∈ setupEvents) ∧ midRun.seq ≠ .idle ∧
      midRun.progUsed = true := ⟨⟨rfl, rfl, by decide⟩, by decide, rfl⟩

/-- R168's last column: `Aborted` is not final, and only a completed run is a success. A stopped `PROGRAM` shows the end
`aborted`, whatever is presented after it. -/
theorem test_final :
    RunEnd.aborted.isFinal = false ∧ RunEnd.userAbort.isFinal = true ∧ RunEnd.completed.isSuccess = true ∧
      RunEnd.userAbort.isSuccess = false ∧
      runEnd [.program [] zeros20, .abort] { stateAt .idle .valid with env := [.stop] } = some .aborted :=
  ⟨rfl, rfl, rfl, rfl, rfl⟩

/-- R168: a failed parse ends the run at `LD.EOF`, not at the faulting line; an accepted abort ends it, whatever is
presented after it. -/
theorem test_runEnd :
    runEnd [.ldLine (starL [])] State.reset = none ∧
      runEnd [.ldLine (starL []), .ldEof, .abort] State.reset = some (.loaderFault (.formatAddr 1 [])) ∧
      runEnd [.setup, .abort, .wait 5] State.reset = some .userAbort := ⟨rfl, rfl, rfl⟩

theorem witness_ControlRegistersAreReadOnly : ∃ t, exec .s4 midRun = .next t ∧ t.seq = .matrixWritten := ⟨_, rfl, rfl⟩

theorem witness_TraceOnlyGrows : ∃ t, exec (.wait 5) State.reset = .next t ∧ t.trace = [.wait 5] := ⟨_, rfl, rfl⟩

theorem witness_NothingDependsOnSamples :
    ∃ t t', exec (.xbit true) State.reset = .next t ∧
      exec (.xbit true) { State.reset with draws := 7, sample := true } = .next t' := ⟨_, _, rfl, rfl⟩

theorem witness_LoaderAndProgrammerKeepApart :
    (∃ t, exec .ldEof State.reset = .next t ∧ isLoader .ldEof = true) ∧
      ∃ t, exec .setup State.reset = .next t ∧ isLoader .setup = false := ⟨⟨_, rfl, rfl⟩, _, rfl, rfl⟩

end Sys2Proof.Tests
end

section
/-! SUPPORT. The invariant is kept by every step. A run of acts keeps what its calls and its register writes keep;
the loader's operations keep `Inv` in `Idle`; the other operations keep it in what they write before, during and after
their events. -/

namespace Sys2Proof.Machine

open Sys2Proof.Safety

/-! ### What a run keeps -/

/-- The events of a list of acts are its calls. -/
theorem call_mem_iff {e : Event} {acts : List Act} : .call e ∈ acts ↔ e ∈ eventsOf acts := by
  induction acts with
  | nil => simp [eventsOf]
  | cons a acts ih => cases a <;> simp [eventsOf, ih]

/-- What each call of a run and each of its register writes keeps, the run keeps, however it ends. -/
theorem perform_keeps {P : State → Prop} {o : Owner} {acts : List Act}
    (hcall : ∀ e, .call e ∈ acts → ∀ s, P s → P (issue o e s).state)
    (hplace : ∀ a ∈ acts, ∀ s, P s → P (place a s)) {s : State} (h : P s) : P (perform o acts s).state := by
  induction acts generalizing s with
  | nil => exact h
  | cons a acts ih =>
    have ih {s : State} (h : P s) : P (perform o acts s).state :=
      ih (fun e he => hcall e (.tail _ he)) (fun a ha => hplace a (.tail _ ha)) h
    cases a with
    | call e =>
      have h' := hcall e (.head _) s h
      simp only [perform]
      cases hi : issue o e s with
      | through s' => rw [hi] at h'; exact ih h'
      | ended s' => rw [hi] at h'; exact h'
    | setRow x => exact ih (hplace _ (.head _) s h)
    | setCol x => exact ih (hplace _ (.head _) s h)
    | setUstep x => exact ih (hplace _ (.head _) s h)
    | setSeq x => exact ih (hplace _ (.head _) s h)

/-- A call has its effect on the pins or none. -/
theorem issue_pins (o : Owner) (e : Event) (s : State) :
    (issue o e s).state.pins = s.pins ∨ (issue o e s).state.pins = pinEffect e s.pins := by
  unfold issue
  split
  · exact .inr rfl
  · next landed _ => cases landed <;> simp [Run.state]
  · exact .inl rfl

/-- What the effects of a run's events keep of the pins, the run keeps, however it ends. -/
theorem perform_pins {P : Pins → Prop} {o : Owner} {acts : List Act} {s : State}
    (he : ∀ e ∈ eventsOf acts, ∀ p, P p → P (pinEffect e p)) (h : P s.pins) : P (perform o acts s).state.pins := by
  refine perform_keeps (P := fun s => P s.pins) (fun e hm s hs => ?_) (fun a _ s hs => ?_) h
  · obtain hp | hp := issue_pins o e s
    · rwa [hp]
    · rw [hp]; exact he e (call_mem_iff.1 hm) _ hs
  · cases a <;> exact hs

/-- Outside the sequence no call changes `seq`. -/
theorem issue_command_seq (e : Event) (s : State) : (issue .command e s).state.seq = s.seq := by
  unfold issue
  split <;> simp [Run.state, endedSeq]

/-- A run outside the sequence leaves `seq`, however it ends. -/
theorem perform_command_seq {acts : List Act} (h : ∀ q, Act.setSeq q ∉ acts) (s : State) :
    (perform .command acts s).state.seq = s.seq := by
  refine perform_keeps (P := fun t => t.seq = s.seq) (fun e _ t ht => (issue_command_seq e t).trans ht)
    (fun a ha t ht => ?_) rfl
  cases a with
  | setSeq q => exact absurd ha (h q)
  | _ => exact ht

/-- Register writes leave the pins. -/
@[simp] theorem placed_pins (acts : List Act) (s : State) : (placed acts s).pins = s.pins := by
  obtain ⟨q, r, c, u, h⟩ := placed_writes acts s
  rw [h]

/-- Acts that end with a write of `seq` leave it there. -/
theorem placed_append_setSeq (acts : List Act) (q : Seq) (s : State) : (placed (acts ++ [.setSeq q]) s).seq = q := by
  rw [placed_append]; rfl

theorem setSeq_notMem_shiftActs (q : Seq) (c : Nat) (bs : Bits) : Act.setSeq q ∉ shiftActs c bs := by
  induction bs generalizing c with
  | nil => simp [shiftActs]
  | cons b bs ih => simp [shiftActs, xbitActs, ih]

/-- Only the sequence writes `seq`. -/
theorem setSeq_notMem_actsOf {i : Instr} (ho : ownerOf i = .command) (s : State) (q : Seq) :
    Act.setSeq q ∉ actsOf i s := by
  cases i with
  | shiftRow data a => simp [actsOf, shiftRowActs, setSeq_notMem_shiftActs]
  | strobe d => simp only [actsOf, strobeActs]; split <;> simp [setlActs, waitActs]
  | program | s1 | s2 | s3 | s4 | fRow | s5 | s6 | s7 | s8 => cases ho
  | _ => simp [actsOf, setupActs, setupOutput, setlActs, waitActs, xbitActs]

/-! ### What an admission asks for -/

theorem whenIdle_none {s : State} : whenIdle s = none ↔ s.seq = .idle := by simp [whenIdle]

theorem whenAt_none {q : Seq} {s : State} : whenAt q s = none ↔ s.seq = q := by simp [whenAt]

theorem withOperand_none {ok : Bool} {c : Option TurnAway} : withOperand ok c = none ↔ c = none ∧ ok = true := by
  cases c <;> cases ok <;> simp [withOperand]

theorem whenLineTaken_none {s : State} : whenLineTaken s = none ↔ s.seq = .idle ∧ s.ldr ≠ .valid := by
  by_cases hq : s.seq = .idle <;> simp [whenLineTaken, hq]

theorem whenReadable_none {s : State} : whenReadable s = none ↔ s.seq = .idle ∧ s.ldr = .valid := by
  by_cases hq : s.seq = .idle <;> simp [whenReadable, hq]

theorem whenAbort_none {s : State} : whenAbort s = none ↔ s.seq = .idle ∧ s.progUsed = false := by
  by_cases hq : s.seq = .idle <;> simp [whenAbort, hq]

/-- An admitted `PROGRAM` has operands of the sizes R151 asks for. -/
theorem programOperands_of_admitted {rows : List Bits} {olmc : Bits} {s : State}
    (h : whenProgram rows olmc s = none) : programOperands rows olmc = true := by
  obtain ⟨-, -, -, -, hn, hr, ho⟩ := whenProgram_none h
  simpa [programOperands, hn, ho] using hr

/-- Outside the sequence an operation is admitted in `Idle` only (D26, log 13). -/
theorem admission_command_idle {i : Instr} {s : State} (ho : ownerOf i = .command) (h : admission i s = none) :
    s.seq = .idle := by
  cases i with
  | ldClear | ldEof | ldIoErr | parse | setup | wait | xbit | strobe => exact whenIdle_none.1 h
  | setl | shiftRow => exact whenIdle_none.1 (withOperand_none.1 h).1
  | ldLine => exact (whenLineTaken_none.1 h).1
  | ldSkip | ldPatch => exact (whenLineTaken_none.1 (withOperand_none.1 h).1).1
  | ldRow => exact (whenReadable_none.1 (withOperand_none.1 h).1).1
  | ldOlmc => exact (whenReadable_none.1 h).1
  | abort => exact (whenAbort_none.1 h).1
  | program | s1 | s2 | s3 | s4 | fRow | s5 | s6 | s7 | s8 => cases ho

end Sys2Proof.Machine

namespace Sys2Proof.Safety

open Sys2Proof.Machine

/-! ### What the loader's operations keep -/

/-- What the loader writes keeps the invariant in `Idle`, where the array stays canonical, and zero while `Empty`. -/
theorem Inv.loaderWrite {s : State} (h : Inv s) (hq : s.seq = .idle) {m : List Host.Cell} {l : Ldr} {b : BitVec 17}
    {n k : Nat} {r : Reply} {w : Option TurnAway} (hm : Memory.wf m = true) (hc : l = .empty → m = []) :
    Inv { s with fa := m, ldr := l, base := b, runLen := n, lineNo := k, reply := r, turnedAway := w } :=
  { h with memory := hm, cleared := hc, started := fun hn => absurd hq hn }

/-- The command list, the answer and the model's note are free: the invariant does not speak of them. -/
theorem Inv.hostWrite {s : State} (h : Inv s) {r : Reply} {w : Option TurnAway} {c : List Byte} :
    Inv { s with reply := r, turnedAway := w, cmd := c } := { h with }

theorem Inv.answer {s : State} (h : Inv s) (r : Reply) : Inv (answer r s) := h.hostWrite

theorem Inv.refuse {s : State} (h : Inv s) (why : TurnAway) : Inv (refuse why s) := h.hostWrite

/-- A reset gives the reset value to everything the invariant speaks of but the control registers, which stay. -/
theorem Inv.hostReset {s : State} (h : Inv s) : Inv (hostReset s) where
  memory := rfl
  cleared := fun _ => rfl
  timing := h.timing
  pinsDistinct := h.pinsDistinct
  configured := fun hd => by cases hd
  lines := trivial
  started := fun hn => absurd rfl hn
  latched := rfl

theorem Inv.clearLoader {s : State} (h : Inv s) (hq : s.seq = .idle) : Inv (clearLoader s) :=
  h.loaderWrite hq rfl fun _ => rfl

/-- A loader fault leaves the array as it is. -/
theorem Inv.takeLoaderFault {s : State} (h : Inv s) (hq : s.seq = .idle) (f : LoaderFault) :
    Inv (takeLoaderFault f s) :=
  h.loaderWrite hq h.memory fun hf => by cases hf

/-- A line taken: `ldr` is no longer `Empty`. -/
theorem Inv.loading {s : State} (h : Inv s) (hq : s.seq = .idle) (k : Nat) :
    Inv { s with ldr := .loading, lineNo := k } :=
  h.loaderWrite hq h.memory fun hl => by cases hl

/-- A record is applied past the range check only, so the run lies inside the array (R61, R114). -/
theorem Inv.patch {s : State} (h : Inv s) (hq : s.seq = .idle) (hl : s.ldr ≠ .empty) (line : Line) :
    Inv (patch line s) := by
  unfold Machine.patch
  split
  · exact h.takeLoaderFault hq _
  · dsimp only
    split
    · exact h.loaderWrite hq h.memory fun hf => by cases hf
    · next hr =>
      have hm := memWrite_wf h.memory (a := decimalValue (addressField line)) (bs := (runField line).map boolOfChar)
        (by simpa using hr)
      exact h.loaderWrite hq hm fun he => absurd he hl

theorem Inv.takeLine {s : State} (h : Inv s) (hq : s.seq = .idle) (line : Line) : Inv (takeLine line s) := by
  have hcount : Inv (countLine s) := h.loading hq _
  unfold Machine.takeLine
  split
  · exact h.answer _
  · split
    · exact hcount.patch hq (by simp) line
    · exact hcount.answer _

theorem Inv.takePatch {s : State} (h : Inv s) (hq : s.seq = .idle) (line : Line) : Inv (takePatch line s) := by
  unfold Machine.takePatch
  split
  · exact h.answer _
  · exact (h.loading hq s.lineNo).patch hq (by simp) line

theorem atEof_ne_empty (l : Ldr) : l.atEof ≠ .empty := by cases l <;> simp [Ldr.atEof]

theorem Inv.takeEof {s : State} (h : Inv s) (hq : s.seq = .idle) : Inv (takeEof s) :=
  h.loaderWrite hq h.memory fun he => absurd he (atEof_ne_empty s.ldr)

theorem Inv.takeIoError {s : State} (h : Inv s) (hq : s.seq = .idle) : Inv (takeIoError s) := by
  unfold Machine.takeIoError
  split
  · exact h.answer _
  · exact h.takeLoaderFault hq _

end Sys2Proof.Safety

namespace Sys2Proof.Machine

open Sys2Proof.Safety

/-! ### The loader leaves `seq` -/

@[simp] theorem patch_seq (line : Line) (s : State) : (patch line s).seq = s.seq := by
  unfold patch
  split
  · rfl
  · dsimp only
    split <;> rfl

@[simp] theorem takeLine_seq (line : Line) (s : State) : (takeLine line s).seq = s.seq := by
  unfold takeLine
  split
  · rfl
  · split <;> simp

@[simp] theorem takeIoError_seq (s : State) : (takeIoError s).seq = s.seq := by
  unfold takeIoError
  split <;> rfl

end Sys2Proof.Machine

namespace Sys2Proof.Safety

open Sys2Proof.Machine

/-- Lines taken one after another keep the invariant and `Idle`. -/
theorem Inv.takeLines {s : State} (h : Inv s) (hq : s.seq = .idle) (lines : List Line) :
    Inv (lines.foldl (fun s l => Machine.takeLine l s) s) ∧
      (lines.foldl (fun s l => Machine.takeLine l s) s).seq = .idle := by
  induction lines generalizing s with
  | nil => exact ⟨h, hq⟩
  | cons l ls ih => exact ih (h.takeLine hq l) (by simpa using hq)

theorem Inv.parseFile {s : State} (h : Inv s) (hq : s.seq = .idle) (lines : List Line) (ioError : Bool) :
    Inv (parseFile lines ioError s) := by
  obtain ⟨hi, hs⟩ := (h.clearLoader hq).takeLines hq lines
  unfold Machine.parseFile
  dsimp only
  split
  · exact (hi.takeIoError hs).takeEof (by simpa using hs)
  · exact hi.takeEof hs

/-- What a loader operation or an abort does in `Idle` keeps the invariant. -/
theorem Inv.loaderUpdate {s : State} (h : Inv s) (hq : s.seq = .idle) (i : Instr) : Inv (loaderUpdate i s) := by
  cases i with
  | ldClear => exact h.clearLoader hq
  | ldLine l => exact h.takeLine hq l
  | ldPatch l => exact h.takePatch hq l
  | ldEof => exact h.takeEof hq
  | ldIoErr => exact h.takeIoError hq
  | parse ls e => exact (h.parseFile hq ls e).answer _
  | ldSkip | ldRow | ldOlmc | abort => exact h.answer _
  | _ => exact h

end Sys2Proof.Safety

namespace Sys2Proof.Machine

open Sys2Proof.Safety

/-! ### The directions -/

/-- Whether an event that sets a direction sets the one `SETUP` gives its role (R130). -/
def directsAsSetUp : Event → Bool
  | .dir role d => decide (d = if role = .dataOut then .input else .output)
  | .wr _ _ => true
  | .rd _ _ => true
  | .wait _ => true

/-- Such an event leaves configured lines configured. -/
theorem configured_pinEffect {e : Event} (he : directsAsSetUp e = true) {p : Pins} (h : Configured p) :
    Configured (pinEffect e p) := by
  cases e with
  | dir role d =>
    simp only [directsAsSetUp, decide_eq_true_eq] at he
    subst he
    simp only [Configured] at h
    cases role <;> simp [Configured, pinEffect, Pins.dirn_direct, pinOf, h]
  | wr role v => simpa [Configured, pinEffect] using h
  | rd role g => exact h
  | wait t => exact h

@[simp] theorem bitsEvents_all_directsAsSetUp (bs : Bits) : (bitsEvents bs).all directsAsSetUp = true := by
  simp [bitsEvents, bitEvents, directsAsSetUp]

@[simp] theorem rowEvents_all_directsAsSetUp (r : Config.RowAddr) (data : Bits) :
    (rowEvents r data).all directsAsSetUp = true := by
  simp only [rowEvents, List.all_append, bitsEvents_all_directsAsSetUp, Bool.and_self, Bool.true_and]
  rfl

@[simp] theorem rowsEvents_all_directsAsSetUp (r : Nat) (rows : List Bits) :
    (rowsEvents r rows).all directsAsSetUp = true := by
  induction rows generalizing r with
  | nil => rfl
  | cons data rest ih => rw [rowsEvents, List.all_append, rowEvents_all_directsAsSetUp, ih, Bool.and_self]

@[simp] theorem s5Events_all_directsAsSetUp (olmc : Bits) : (s5Events olmc).all directsAsSetUp = true := by
  simp only [s5Events, List.all_append, bitsEvents_all_directsAsSetUp]
  rfl

@[simp] theorem s6Events_all_directsAsSetUp : s6Events.all directsAsSetUp = true := by
  simp only [s6Events, List.all_append, bitsEvents_all_directsAsSetUp]
  rfl

/-- No operation sets a direction other than `SETUP` gives it. -/
theorem eventsFor_all_directsAsSetUp (i : Instr) (s : State) : (eventsFor i s).all directsAsSetUp = true := by
  cases i with
  | shiftRow data a => simp [eventsFor]
  | strobe d => simp only [eventsFor]; split <;> rfl
  | program rows olmc =>
    simp only [eventsFor, programEvents, List.all_append, rowsEvents_all_directsAsSetUp, s5Events_all_directsAsSetUp,
      s6Events_all_directsAsSetUp]
    rfl
  | s4 => exact rowsEvents_all_directsAsSetUp _ _
  | fRow r data => exact rowEvents_all_directsAsSetUp r data
  | s5 => exact s5Events_all_directsAsSetUp _
  | s6 => exact s6Events_all_directsAsSetUp
  | _ => rfl

/-- Configured lines stay so in every run of an operation, however it ends. -/
theorem perform_configured {i : Instr} {s u : State} (ht : s.timing = Config.params.timing) (o : Owner)
    (h : Configured u.pins) : Configured (perform o (actsOf i s) u).state.pins := by
  refine perform_pins (fun e he p hp => configured_pinEffect ?_ hp) h
  rw [eventsOf_actsOf i s ht] at he
  exact List.all_eq_true.1 (eventsFor_all_directsAsSetUp i s) e he

/-- `SETUP` configures the lines, whatever they were (R130). -/
theorem configured_after_setupEvents (p : Pins) : Configured (pinsAfter setupEvents p) :=
  ⟨rfl, rfl, rfl, rfl, rfl, rfl, rfl, rfl⟩

/-! ### The levels during a run of the sequence -/

/-- The lines before and after a written frame (R167): PROGRAM, CLOCK and STROBE high, ERASE low, the shared pin at any
level, and ACCESS_OLMC at the level the frame is written with. -/
def FrameLevels (accessOlmc : Bool) (p : Pins) : Prop := Levels p true (p.level .write) false accessOlmc true true

/-- The two roles of the shared pin have one level, so `FrameLevels` fixes the other five pins. -/
theorem frameLevels_iff {a : Bool} {p : Pins} :
    FrameLevels a p ↔ p.level .program = true ∧ p.level .erase = false ∧ p.level .accessOlmc = a ∧
      p.level .clock = true ∧ p.level .strobe = true := by
  have hshared : p.level .dataIn = p.level .write := rfl
  simp [FrameLevels, Levels, hshared]

/-- Shifting writes CLOCK and the shared pin, and leaves CLOCK high. -/
theorem FrameLevels.after_shift {a : Bool} {p : Pins} (h : FrameLevels a p) (bs : Bits) :
    FrameLevels a (pinsAfter (bitsEvents bs) p) := by
  by_cases hb : bs = []
  · subst hb; exact h
  · rw [pinsAfter_bitsEvents bs hb]
    simp only [frameLevels_iff] at h
    simp [frameLevels_iff, Pins.level_drive, pinOf, h]

/-- The closing strobe leaves STROBE high. -/
theorem FrameLevels.after_commit {a : Bool} {p : Pins} (h : FrameLevels a p) :
    FrameLevels a (pinsAfter commitEvents p) := by
  rw [pinsAfter_commitEvents]
  simp only [frameLevels_iff] at h
  simp [frameLevels_iff, Pins.level_drive, pinOf, h]

theorem FrameLevels.after_access {a : Bool} {p : Pins} (h : FrameLevels a p) (v : Bool) :
    FrameLevels v (pinsAfter [.wr .accessOlmc v] p) := by
  simp only [frameLevels_iff] at h
  simp [frameLevels_iff, pinEffect, Pins.level_drive, pinOf, h]

theorem FrameLevels.after_row {p : Pins} (h : FrameLevels false p) (r : Config.RowAddr) (data : Bits) :
    FrameLevels false (pinsAfter (rowEvents r data) p) := by
  simp only [rowEvents, pinsAfter_append]
  exact ((h.after_shift _).after_shift _).after_commit

theorem FrameLevels.after_rows {p : Pins} (h : FrameLevels false p) (r : Nat) (rows : List Bits) :
    FrameLevels false (pinsAfter (rowsEvents r rows) p) := by
  induction rows generalizing r p with
  | nil => exact h
  | cons data rest ih =>
    rw [rowsEvents, pinsAfter_append]
    exact ih (h.after_row _ data) _

theorem FrameLevels.after_s5 {p : Pins} (h : FrameLevels false p) (olmc : Bits) :
    FrameLevels false (pinsAfter (s5Events olmc) p) := by
  simp only [s5Events, pinsAfter_append]
  exact (((h.after_access true).after_shift olmc).after_commit).after_access false

theorem FrameLevels.after_s6 {p : Pins} (h : FrameLevels false p) : FrameLevels false (pinsAfter s6Events p) := by
  simp only [s6Events, pinsAfter_append]
  exact ((h.after_shift _).after_shift _).after_commit

/-- Step 1 puts the lines as R167 says, whatever they were. -/
theorem linesFollowSeq_after_s1 (p : Pins) : LinesFollowSeq .programmingModeEntered (pinsAfter s1Events p) :=
  ⟨rfl, rfl, rfl⟩

theorem frameLevels_after_s2 {p : Pins} (h : LinesFollowSeq .programmingModeEntered p) :
    FrameLevels false (pinsAfter s2Events p) := by
  obtain ⟨hp, hc, hs⟩ := h
  simp [frameLevels_iff, s2Events, pinEffect, Pins.level_drive, pinOf, hp, hc, hs]

theorem FrameLevels.after_s3 {p : Pins} (h : FrameLevels false p) : FrameLevels false (pinsAfter s3Events p) := by
  simp only [frameLevels_iff] at h
  simp [frameLevels_iff, s3Events, pinEffect, Pins.level_drive, pinOf, h]

/-- Step 7 leaves the shared pin low. -/
theorem FrameLevels.linesFollowSeq_after_s7 {p : Pins} (h : FrameLevels false p) :
    LinesFollowSeq .writeModeDisabled (pinsAfter s7Events p) := by
  simp only [frameLevels_iff] at h
  simp [LinesFollowSeq, Levels, s7Events, pinEffect, Pins.level_drive, pinOf, h]

/-- The lines follow the sequence after each of its operations that goes through (R167). -/
theorem linesFollowSeq_after {i : Instr} {s : State} (h : Inv s) (ha : admission i s = none)
    (ho : ownerOf i = .sequence) :
    LinesFollowSeq (placed (actsOf i s) (begins i s)).seq (pinsAfter (eventsFor i s) s.pins) := by
  have hl {q : Seq} (ha : whenAt q s = none) : LinesFollowSeq q s.pins := whenAt_none.1 ha ▸ h.lines
  cases i with
  | program rows olmc => rw [actsOf, h.timing, placed_programActs]; trivial
  | s1 => exact linesFollowSeq_after_s1 s.pins
  | s2 => exact frameLevels_after_s2 (hl ha)
  | s3 => rw [actsOf, h.timing, placed_s3Acts]; exact FrameLevels.after_s3 (hl ha)
  | s4 => rw [actsOf, s4Acts, placed_append_setSeq]; exact FrameLevels.after_rows (hl ha) 0 s.rows
  | fRow r data =>
    have hq : whenAt .erased s = none := (withOperand_none.1 ha).1
    have hp : (placed (actsOf (.fRow r data) s) s).seq = .erased := by
      rw [actsOf, h.timing, fRowActs, placed_append, placed_shiftRowActs, placed_commitActs]
      exact whenAt_none.1 hq
    rw [begins, hp]
    exact FrameLevels.after_row (hl hq) r data
  | s5 => rw [actsOf, s5Acts, placed_append_setSeq]; exact FrameLevels.after_s5 (hl ha) s.olmc
  | s6 => rw [actsOf, s6Acts, placed_append_setSeq]; exact FrameLevels.after_s6 (hl ha)
  | s7 => exact FrameLevels.linesFollowSeq_after_s7 (hl ha)
  | s8 => rw [actsOf, h.timing, placed_s8Acts]; trivial
  | _ => cases ho

/-! ### An operation and a step -/

/-- The run of acts of an admitted operation that issues events, as `exec_next` has it. -/
abbrev runOf (i : Instr) (s : State) : Run := perform (ownerOf i) (actsOf i s) (begins i s)

/-- Only the sequence leaves `Idle`: outside it a run ends there, however it ends. -/
theorem runOf_command_idle {i : Instr} {s : State} (ho : ownerOf i = .command) (ha : admission i s = none) :
    (runOf i s).state.seq = .idle := by
  obtain ⟨-, -, -, -, -, -, -, hb⟩ := begins_frame i s
  rw [runOf, ho, perform_command_seq (setSeq_notMem_actsOf ho s), hb, admission_command_idle ho ha]

/-- An operation that issues no events is outside the sequence. -/
theorem ownerOf_command_of_not_issues {i : Instr} (hi : issues i = false) : ownerOf i = .command := by
  cases i with
  | ldClear | ldLine | ldSkip | ldPatch | ldEof | ldIoErr | ldRow | ldOlmc | parse | abort => rfl
  | _ => cases hi

/-- What a step that answers can have done: the block waits, is reset, or runs an operation with its bytes taken off. -/
theorem step_next {s t : State} (h : step s = .next t) :
    t = s ∨ (∃ rest, t = hostReset { s with cmd := rest }) ∨ ∃ i rest, exec i { s with cmd := rest } = .next t := by
  unfold step fetch at h
  cases hc : s.cmd with
  | nil =>
    simp only [hc, Host.Outcome.next.injEq] at h
    exact .inl h.symm
  | cons b rest =>
    simp only [hc] at h
    by_cases hb : b = resetByte
    · simp only [hb, if_true, Host.Outcome.next.injEq] at h
      exact .inr (.inl ⟨rest, h.symm⟩)
    · simp only [hb, if_false] at h
      cases hd : decode (b :: rest) with
      | ok x => rw [hd] at h; exact .inr (.inr ⟨x.1, x.2, h⟩)
      | error why => rw [hd] at h; cases h

end Sys2Proof.Machine

namespace Sys2Proof.Safety

open Sys2Proof.Machine

/-! ### Every operation and every step -/

/-- The latched inputs have the sizes admitted and the one call is spent; `seq` is still `Idle`. -/
theorem Inv.startProgram {s : State} (h : Inv s) (hq : s.seq = .idle) {rows : List Bits} {olmc : Bits}
    (hp : programOperands rows olmc = true) : Inv (startProgram rows olmc s) :=
  { h with started := fun hn => absurd hq hn, latched := hp }

/-- `evIdx` is free: the invariant does not speak of it. -/
theorem Inv.countFromZero {s : State} (h : Inv s) : Inv { s with evIdx := 0 } := { h with }

/-- What an admitted operation writes before its first event keeps the invariant. -/
theorem Inv.begins {i : Instr} {s : State} (h : Inv s) (ha : admission i s = none) : Inv (begins i s) := by
  cases i with
  | program rows olmc =>
    obtain ⟨-, -, hq, -⟩ := whenProgram_none ha
    exact h.startProgram hq (programOperands_of_admitted ha)
  | s1 =>
    obtain ⟨-, -, hq, -⟩ := admission_s1.1 ha
    exact h.startProgram hq (programOperands_views s.fa)
  | setup | setl | wait | xbit | strobe | shiftRow => exact h.countFromZero
  | _ => exact h

/-- Before the first event of an operation of the sequence the parse is `Valid`, `SETUP` has been done and the one call
is spent (R2, R151). -/
theorem Inv.begins_started {i : Instr} {s : State} (h : Inv s) (ha : admission i s = none)
    (ho : ownerOf i = .sequence) :
    (Machine.begins i s).ldr = .valid ∧ (Machine.begins i s).setupDone = true ∧
      (Machine.begins i s).progUsed = true := by
  have hat {q : Seq} (hq : q ≠ .idle) (ha : whenAt q s = none) := h.started (whenAt_none.1 ha ▸ hq)
  cases i with
  | program rows olmc =>
    obtain ⟨hv, hd, -⟩ := whenProgram_none ha
    exact ⟨hv, hd, rfl⟩
  | s1 =>
    obtain ⟨hv, hd, -⟩ := admission_s1.1 ha
    exact ⟨hv, hd, rfl⟩
  | fRow r data => exact hat (by decide) (withOperand_none.1 ha).1
  | s2 | s3 | s4 | s5 | s6 | s7 | s8 => exact hat (by decide) ha
  | _ => cases ho

/-- What is left to show where the programmer has run: its frame keeps the rest of the invariant. -/
theorem Inv.of_sameFrame {s t : State} (h : Inv s) (hf : SameFrame s t)
    (hc : Configured s.pins → Configured t.pins) (hl : LinesFollowSeq t.seq t.pins)
    (hs : t.seq ≠ .idle → s.ldr = .valid ∧ s.setupDone = true ∧ s.progUsed = true) : Inv t where
  memory := hf.fa ▸ h.memory
  cleared := hf.fa ▸ hf.ldr ▸ h.cleared
  timing := hf.timing.trans h.timing
  pinsDistinct := hf.pinMap ▸ h.pinsDistinct
  configured := fun hd => hc (h.configured (hf.setupDone ▸ hd))
  lines := hl
  started := hf.ldr ▸ hf.setupDone ▸ hf.progUsed ▸ hs
  latched := hf.rows ▸ hf.olmc ▸ h.latched

/-- The run of an admitted operation that goes through: its `seq`, and its pins at the configured times. -/
theorem Inv.runOf_through {i : Instr} {s u : State} (h : Inv s) (hr : runOf i s = .through u) :
    u.seq = (placed (actsOf i s) (Machine.begins i s)).seq ∧ u.pins = pinsAfter (eventsFor i s) s.pins := by
  rw [perform_through hr, eventsOf_actsOf i s h.timing]
  simp [(begins_frame i s).1]

/-- The lines follow the sequence after the run of an admitted operation, however it ends: `seq` is still `Idle`, or the
sequence went through its operation, or it is `Aborted`. -/
theorem Inv.runOf_lines {i : Instr} {s : State} (h : Inv s) (ha : admission i s = none) :
    LinesFollowSeq (runOf i s).state.seq (runOf i s).state.pins := by
  cases ho : ownerOf i with
  | command => rw [runOf_command_idle ho ha]; trivial
  | sequence =>
    cases hr : runOf i s with
    | through u =>
      obtain ⟨hq, hp⟩ := h.runOf_through hr
      rw [Run.state, hq, hp]
      exact linesFollowSeq_after h ha ho
    | ended u =>
      rw [runOf, ho] at hr
      rw [Run.state, perform_ended_aborted hr]
      trivial

/-- The run of an admitted operation keeps the invariant, however it ends. -/
theorem Inv.runOf {i : Instr} {s : State} (h : Inv s) (ha : admission i s = none) : Inv (runOf i s).state := by
  refine (h.begins ha).of_sameFrame (perform_sameFrame ..) (perform_configured h.timing _) (h.runOf_lines ha)
    fun hn => ?_
  cases ho : ownerOf i with
  | command => exact absurd (runOf_command_idle ho ha) hn
  | sequence => exact h.begins_started ha ho

/-- What an operation writes after its last event keeps the invariant; `SETUP` has configured the lines by then. -/
theorem Inv.finishes {i : Instr} {u : State} (h : Inv u) (hc : i = .setup → Configured u.pins) :
    Inv (finishes i u) := by
  cases i with
  | setup =>
    have hd : Inv { u with setupDone := true } :=
      { h with
        configured := fun _ => hc rfl
        started := fun hn =>
          have ⟨hv, _, hp⟩ := h.started hn
          ⟨hv, rfl, hp⟩ }
    exact hd.answer _
  | ldClear | ldLine | ldSkip | ldPatch | ldEof | ldIoErr | ldRow | ldOlmc | parse | abort => exact h
  | _ => exact h.answer _

/-- Every operation keeps the invariant, however its calls end. -/
theorem Inv.exec {i : Instr} {s t : State} (h : Inv s) (he : exec i s = .next t) : Inv t := by
  obtain ⟨why, -, rfl⟩ | ⟨ha, hi, rfl⟩ | ⟨ha, -, hrun⟩ := exec_next he
  · exact h.refuse why
  · exact h.loaderUpdate (admission_command_idle (ownerOf_command_of_not_issues hi) ha) i
  · have hr := h.runOf ha
    obtain ⟨u, hu, rfl⟩ | hu := hrun <;> simp only [Machine.runOf, hu, Run.state] at hr
    · refine hr.finishes fun hs => ?_
      subst hs
      rw [(h.runOf_through hu).2]
      exact configured_after_setupEvents s.pins
    · exact hr

/-- Every step keeps the invariant. -/
theorem Inv.step {s t : State} (h : Inv s) (hs : step s = .next t) : Inv t := by
  obtain rfl | ⟨rest, rfl⟩ | ⟨i, rest, he⟩ := step_next hs
  · exact h
  · exact (h.hostWrite (c := rest)).hostReset
  · exact (h.hostWrite (c := rest)).exec he

end Sys2Proof.Safety

namespace Sys2Proof.Proofs

open Sys2Proof.Machine Sys2Proof.Safety

/-- Settles O3: `Inv` is inductive as it stands, by the three cases of `step_next` and, for an operation, the three of
`exec_next`. -/
theorem invariantKeptByEveryStep : Obligations.InvariantKeptByEveryStep := fun _ _ h hs => h.step hs

end Sys2Proof.Proofs
end

section
/-! SUPPORT. What each kind of operation writes. A loader operation or an abort writes the loader's registers and the
answer, and reads no more than those and the marker (`withLoaderOf`); an operation that issues events leaves the loader's
registers and the parameters (`SameLoader`). From the two frames: the loader's outcome is sticky, the control registers are
read-only, `seq` and the flags move as R34 and R37 say, and nothing depends on a sample. -/

namespace Sys2Proof.Machine

open Sys2Proof.Safety

/-! ### The loader's registers put beside another state's programmer -/

/-- The loader's registers and the answer of `s`, beside the rest of `p`. -/
def withLoaderOf (p s : State) : State :=
  { p with
    fa := s.fa, ldr := s.ldr, base := s.base, runLen := s.runLen, lineNo := s.lineNo, reply := s.reply,
    turnedAway := s.turnedAway }

@[simp] theorem withLoaderOf_self (s : State) : withLoaderOf s s = s := rfl

theorem withLoaderOf_answer (p s : State) (r : Reply) :
    answer r (withLoaderOf p s) = withLoaderOf p (answer r s) := rfl

theorem withLoaderOf_patch (p s : State) (line : Line) :
    patch line (withLoaderOf p s) = withLoaderOf p (patch line s) := by
  simp only [patch, withLoaderOf]
  split
  · rfl
  · split <;> rfl

/-- Of the rest of the state the loader reads the marker alone (R7). -/
theorem withLoaderOf_takeLine {p s : State} (hm : p.marker = s.marker) (line : Line) :
    takeLine line (withLoaderOf p s) = withLoaderOf p (takeLine line s) := by
  have hcount : countLine (withLoaderOf p s) = withLoaderOf p (countLine s) := rfl
  have hfault : (withLoaderOf p s).ldr.faulted = s.ldr.faulted := rfl
  have hmarker : (withLoaderOf p s).marker = s.marker := hm
  simp only [takeLine, hfault, hmarker, hcount, withLoaderOf_answer, withLoaderOf_patch]
  split
  · rfl
  · split <;> rfl

theorem withLoaderOf_takePatch (p s : State) (line : Line) :
    takePatch line (withLoaderOf p s) = withLoaderOf p (takePatch line s) := by
  have hfault : (withLoaderOf p s).ldr.faulted = s.ldr.faulted := rfl
  simp only [takePatch, hfault]
  split
  · rfl
  · exact withLoaderOf_patch p { s with ldr := .loading } line

theorem withLoaderOf_takeIoError (p s : State) : takeIoError (withLoaderOf p s) = withLoaderOf p (takeIoError s) := by
  have hfault : (withLoaderOf p s).ldr.faulted = s.ldr.faulted := rfl
  simp only [takeIoError, hfault]
  split <;> rfl

/-- A line taken does not write the marker. -/
@[simp] theorem takeLine_marker (line : Line) (s : State) : (takeLine line s).marker = s.marker := by
  have h := withLoaderOf_takeLine (p := s) (s := s) rfl line
  rw [withLoaderOf_self] at h
  exact (congrArg State.marker h).trans rfl

theorem withLoaderOf_takeLines {p s : State} (hm : p.marker = s.marker) (lines : List Line) :
    lines.foldl (fun s l => takeLine l s) (withLoaderOf p s) =
      withLoaderOf p (lines.foldl (fun s l => takeLine l s) s) := by
  induction lines generalizing s with
  | nil => rfl
  | cons l ls ih =>
    rw [List.foldl_cons, List.foldl_cons, withLoaderOf_takeLine hm, ih (by rw [takeLine_marker, hm])]

theorem withLoaderOf_parseFile {p s : State} (hm : p.marker = s.marker) (lines : List Line) (ioError : Bool) :
    parseFile lines ioError (withLoaderOf p s) = withLoaderOf p (parseFile lines ioError s) := by
  have hlines := withLoaderOf_takeLines (s := clearLoader s) hm lines
  have hclear : clearLoader (withLoaderOf p s) = withLoaderOf p (clearLoader s) := rfl
  cases ioError with
  | false => simp only [parseFile, hclear, hlines]; rfl
  | true => simp only [parseFile, hclear, hlines, if_true, withLoaderOf_takeIoError]; rfl

/-- What a loader operation or an abort writes depends on the loader's registers and the marker alone, and it writes no
more than the loader's registers and the answer. -/
theorem withLoaderOf_loaderUpdate {p s : State} (hm : p.marker = s.marker) (i : Instr) :
    loaderUpdate i (withLoaderOf p s) = withLoaderOf p (loaderUpdate i s) := by
  cases i with
  | ldLine line => exact withLoaderOf_takeLine hm line
  | ldPatch line => exact withLoaderOf_takePatch p s line
  | ldIoErr => exact withLoaderOf_takeIoError p s
  | parse lines ioError => simp only [loaderUpdate, withLoaderOf_parseFile hm]; rfl
  | _ => rfl

/-- The frame of a loader operation or an abort. -/
theorem loaderUpdate_frame (i : Instr) (s : State) : loaderUpdate i s = withLoaderOf s (loaderUpdate i s) :=
  withLoaderOf_loaderUpdate (p := s) (s := s) rfl i

/-- The frame of an operation that issues no event: it writes the loader's registers and the answer alone (R68). -/
theorem exec_loader_frame {i : Instr} {s t : State} (hi : issues i = false) (h : exec i s = .next t) :
    t = withLoaderOf s t := by
  obtain ⟨why, -, rfl⟩ | ⟨-, -, rfl⟩ | ⟨-, hi', -⟩ := exec_next h
  · rfl
  · exact loaderUpdate_frame i s
  · rw [hi] at hi'; cases hi'

/-! ### What the programmer's operations leave -/

/-- Before its first event an operation writes `prog_used`, the latched inputs and the event index, and nothing else. -/
theorem begins_writes (i : Instr) (s : State) :
    ∃ p r o k, begins i s = { s with progUsed := p, rows := r, olmc := o, evIdx := k } := by
  cases i <;> exact ⟨_, _, _, _, rfl⟩

/-- After its last event an operation writes `setup_done` and the answer, and nothing else. -/
theorem finishes_writes (i : Instr) (s : State) :
    ∃ d r w, finishes i s = { s with setupDone := d, reply := r, turnedAway := w } := by
  cases i <;> exact ⟨_, _, _, rfl⟩

/-- No operation clears `prog_used` before its first event. -/
theorem begins_progUsed {i : Instr} {s : State} (h : s.progUsed = true) : (begins i s).progUsed = true := by
  cases i with
  | program | s1 => rfl
  | _ => exact h

/-- No operation clears `setup_done` after its last event. -/
theorem finishes_setupDone {i : Instr} {s : State} (h : s.setupDone = true) : (finishes i s).setupDone = true := by
  cases i with
  | setup => rfl
  | _ => exact h

@[simp] theorem finishes_seq (i : Instr) (s : State) : (finishes i s).seq = s.seq := by
  obtain ⟨d, r, w, h⟩ := finishes_writes i s
  rw [h]

@[simp] theorem finishes_progUsed (i : Instr) (s : State) : (finishes i s).progUsed = s.progUsed := by
  obtain ⟨d, r, w, h⟩ := finishes_writes i s
  rw [h]

/-- The loader's registers, the parameters, the control registers and the commands are the same. -/
structure SameLoader (s t : State) : Prop where
  fa : t.fa = s.fa
  ldr : t.ldr = s.ldr
  base : t.base = s.base
  runLen : t.runLen = s.runLen
  lineNo : t.lineNo = s.lineNo
  marker : t.marker = s.marker
  pinMap : t.pinMap = s.pinMap
  timing : t.timing = s.timing
  cmd : t.cmd = s.cmd

/-- What a run leaves, the operation around it leaves. -/
theorem SameFrame.sameLoader_of_begins {i : Instr} {s u : State} (h : SameFrame (begins i s) u) : SameLoader s u := by
  obtain ⟨p, r, o, k, hb⟩ := begins_writes i s
  rw [hb] at h
  exact ⟨h.fa, h.ldr, h.base, h.runLen, h.lineNo, h.marker, h.pinMap, h.timing, h.cmd⟩

theorem SameLoader.finishes {s u : State} (h : SameLoader s u) (i : Instr) : SameLoader s (finishes i u) := by
  obtain ⟨d, r, w, hf⟩ := finishes_writes i u
  rw [hf]
  exact { h with }

/-- The frame of an operation that issues events, however its calls end (R67). -/
theorem exec_programmer_frame {i : Instr} {s t : State} (hi : issues i = true) (h : exec i s = .next t) :
    SameLoader s t := by
  have hrun : SameLoader s (runOf i s).state := (perform_sameFrame ..).sameLoader_of_begins
  obtain ⟨why, -, rfl⟩ | ⟨-, hi', -⟩ | ⟨-, -, ⟨u, hu, rfl⟩ | hu⟩ := exec_next h
  · constructor <;> rfl
  · rw [hi] at hi'; cases hi'
  · rw [runOf, hu] at hrun
    exact hrun.finishes i
  · rw [runOf, hu] at hrun
    exact hrun

/-! ### The loader's outcome -/

theorem takeLine_faulted {s : State} {f : LoaderFault} (h : s.ldr = .fault f) (line : Line) :
    takeLine line s = answer .nothing s := by
  simp [takeLine, h, Ldr.faulted]

theorem takePatch_faulted {s : State} {f : LoaderFault} (h : s.ldr = .fault f) (line : Line) :
    takePatch line s = answer .nothing s := by
  simp [takePatch, h, Ldr.faulted]

theorem takeIoError_faulted {s : State} {f : LoaderFault} (h : s.ldr = .fault f) :
    takeIoError s = answer .nothing s := by
  simp [takeIoError, h, Ldr.faulted]

@[simp] theorem takeIoError_fa (s : State) : (takeIoError s).fa = s.fa := by
  unfold takeIoError
  split <;> rfl

/-- Once the loader has faulted, only `LD.CLEAR` and `PARSE` write its status, the array or the line counter (R23). -/
theorem loaderUpdate_faulted {i : Instr} {s : State} {f : LoaderFault} (hc : i ≠ .ldClear)
    (hp : ∀ ls e, i ≠ .parse ls e) (h : s.ldr = .fault f) :
    (loaderUpdate i s).ldr = .fault f ∧ (loaderUpdate i s).fa = s.fa ∧ (loaderUpdate i s).lineNo = s.lineNo := by
  cases i with
  | ldClear => exact absurd rfl hc
  | parse ls e => exact absurd rfl (hp ls e)
  | ldLine line => simp [loaderUpdate, takeLine_faulted h, h]
  | ldPatch line => simp [loaderUpdate, takePatch_faulted h, h]
  | ldIoErr => simp [loaderUpdate, takeIoError_faulted h, h]
  | ldEof => simp [loaderUpdate, h, Ldr.atEof]
  | _ => exact ⟨h, rfl, rfl⟩

/-- Once the parse is `Valid`, only `LD.CLEAR` and `PARSE` write the array, for no line is taken (D24); of the others only
`LD.IOERR` writes the status. -/
theorem loaderUpdate_valid {i : Instr} {s : State} (hc : i ≠ .ldClear) (hp : ∀ ls e, i ≠ .parse ls e)
    (h : s.ldr = .valid) (ha : admission i s = none) :
    (loaderUpdate i s).fa = s.fa ∧ (i ≠ .ldIoErr → (loaderUpdate i s).ldr = .valid) := by
  cases i with
  | ldClear => exact absurd rfl hc
  | parse ls e => exact absurd rfl (hp ls e)
  | ldLine line => exact absurd h (whenLineTaken_none.1 ha).2
  | ldPatch line => exact absurd h (whenLineTaken_none.1 (withOperand_none.1 ha).1).2
  | ldIoErr => exact ⟨takeIoError_fa s, fun hn => absurd rfl hn⟩
  | ldEof => simp [loaderUpdate, h, Ldr.atEof]
  | _ => exact ⟨rfl, fun _ => h⟩

/-! ### How `seq` moves -/

/-- A move of `seq` that R34 allows: none, to the next value, to `Aborted`, or from the end of step 7 to `Idle`. -/
def SeqMove (q q' : Seq) : Prop :=
  q' = q ∨ q' = q.succ ∨ q' = .aborted ∨ (q = .writeModeDisabled ∧ q' = .idle)

/-- A row frame writes no `seq` (R150). -/
theorem setSeq_notMem_fRowActs (q : Seq) (t : Config.Timing) (r : Config.RowAddr) (data : Bits) :
    Act.setSeq q ∉ fRowActs t r data := by
  have hstrobe (d : Nat) : Act.setSeq q ∉ strobeActs d := by
    unfold strobeActs
    split <;> simp [setlActs, waitActs]
  simp [fRowActs, shiftRowActs, setSeq_notMem_shiftActs, commitActs, hstrobe, waitActs]

/-- A run of `PROGRAM` that goes through is back at `Idle`, whatever the times (R164). -/
theorem placed_programActs_seq (t : Config.Timing) (rows : List Bits) (olmc : Bits) (s : State) :
    (placed (programActs t rows olmc) s).seq = .idle := by
  rw [programActs, placed_append]; rfl

/-- What a step of the sequence that goes through makes of `seq`, whatever the times (R150). -/
theorem placed_actsOf_seq {i : Instr} {s : State} (ho : ownerOf i = .sequence) (ha : admission i s = none) :
    SeqMove s.seq (placed (actsOf i s) (begins i s)).seq := by
  have next {q q' : Seq} (hs : s.seq = q) (hq : q' = q.succ) : SeqMove s.seq q' := .inr (.inl (hs ▸ hq))
  cases i with
  | program rows olmc =>
    obtain ⟨-, -, hs, -⟩ := whenProgram_none ha
    exact .inl ((placed_programActs_seq ..).trans hs.symm)
  | s1 =>
    obtain ⟨-, -, hs, -⟩ := admission_s1.1 ha
    exact next hs (placed_append_setSeq ..)
  | fRow r data => exact .inl (placed_seq (fun q => setSeq_notMem_fRowActs q s.timing r data) s)
  | s8 => exact .inr (.inr (.inr ⟨whenAt_none.1 ha, rfl⟩))
  | s2 | s3 | s4 | s5 | s6 | s7 => exact next (whenAt_none.1 ha) (placed_append_setSeq ..)
  | _ => cases ho

/-- A run outside the sequence leaves `seq`, however it ends. -/
theorem runOf_command_seq {i : Instr} (ho : ownerOf i = .command) (s : State) : (runOf i s).state.seq = s.seq := by
  obtain ⟨-, -, -, -, -, -, -, hb⟩ := begins_frame i s
  rw [runOf, ho, perform_command_seq (setSeq_notMem_actsOf ho s), hb]

/-- The run of an admitted operation moves `seq` as R34 allows, however it ends. -/
theorem runOf_seqMove {i : Instr} {s : State} (ha : admission i s = none) : SeqMove s.seq (runOf i s).state.seq := by
  cases ho : ownerOf i with
  | command => exact .inl (runOf_command_seq ho s)
  | sequence =>
    cases hr : runOf i s with
    | through u =>
      rw [Run.state, perform_through hr, afterEvents_seq]
      exact placed_actsOf_seq ho ha
    | ended u =>
      rw [runOf, ho] at hr
      exact .inr (.inr (.inl (perform_ended_aborted hr)))

/-- A whole `PROGRAM` leaves `seq` where it was, or `Aborted`. -/
theorem runOf_program_seq {rows : List Bits} {olmc : Bits} {s : State} (ha : admission (.program rows olmc) s = none) :
    (runOf (.program rows olmc) s).state.seq = s.seq ∨ (runOf (.program rows olmc) s).state.seq = .aborted := by
  obtain ⟨-, -, hs, -⟩ := whenProgram_none ha
  cases hr : runOf (.program rows olmc) s with
  | through u =>
    rw [Run.state, perform_through hr, afterEvents_seq, hs]
    exact .inl (placed_programActs_seq ..)
  | ended u => exact .inr (perform_ended_aborted hr)

/-- The two flags that a run of an operation never clears, however it ends (R37, D27). -/
theorem runOf_flags (i : Instr) (s : State) :
    (s.progUsed = true → (runOf i s).state.progUsed = true) ∧
      (runOf i s).state.setupDone = s.setupDone := by
  have hf : SameFrame (begins i s) (runOf i s).state := perform_sameFrame ..
  obtain ⟨-, -, -, -, hd, -⟩ := begins_frame i s
  exact ⟨fun hp => hf.progUsed.trans (begins_progUsed hp), hf.setupDone.trans hd⟩

/-- After its run an operation leaves `seq` and `prog_used`, and does not clear `setup_done`. -/
theorem seq_flags_of_runOf {i : Instr} {s t : State}
    (h : (∃ u, runOf i s = .through u ∧ t = finishes i u) ∨ runOf i s = .ended t) :
    t.seq = (runOf i s).state.seq ∧ t.progUsed = (runOf i s).state.progUsed ∧
      ((runOf i s).state.setupDone = true → t.setupDone = true) := by
  obtain ⟨u, hu, rfl⟩ | hu := h
  · rw [hu]
    exact ⟨finishes_seq i u, finishes_progUsed i u, finishes_setupDone⟩
  · rw [hu]
    exact ⟨rfl, rfl, id⟩

/-! ### Samples -/

/-- Two states that differ in nothing but the samples drawn: the register, the counter, and the bits in the trace. -/
def SameButSamples (s s' : State) : Prop :=
  ∃ n b tr, tr.map unanswered = s.trace.map unanswered ∧ s' = { s with draws := n, sample := b, trace := tr }

/-- Two runs that end the same way, in states that differ in samples alone. -/
inductive Run.SameButSamples : Run → Run → Prop
  | through {s s' : State} (h : Machine.SameButSamples s s') : SameButSamples (.through s) (.through s')
  | ended {s s' : State} (h : Machine.SameButSamples s s') : SameButSamples (.ended s) (.ended s')

/-- A call shows the same in the trace whatever was sampled, but for the bit it returned. -/
theorem unanswered_answered (e : Event) (s : State) : unanswered (answered e s) = unanswered e := by
  cases e <;> rfl

/-- Which move the environment makes does not depend on the samples, nor does what a call does but sample. -/
theorem SameButSamples.issue {s s' : State} (h : SameButSamples s s') (o : Owner) (e : Event) :
    (issue o e s).SameButSamples (issue o e s') := by
  obtain ⟨n, b, tr, ht, rfl⟩ := h
  have hm : moveAt o e { s with draws := n, sample := b, trace := tr } = moveAt o e s := rfl
  unfold Machine.issue
  rw [hm]
  split
  · exact .through ⟨_, _, _, by simp [returned, record, popMove, unanswered_answered, ht], rfl⟩
  · exact .ended ⟨_, _, _, by simp [takeGpioFailure, record, popMove, ht], rfl⟩
  · exact .ended ⟨_, _, _, ht, rfl⟩

theorem SameButSamples.place {s s' : State} (h : SameButSamples s s') (a : Act) :
    SameButSamples (place a s) (place a s') := by
  obtain ⟨n, b, tr, ht, rfl⟩ := h
  cases a <;> exact ⟨n, b, tr, ht, rfl⟩

/-- A run ends the same way whatever was sampled (R35). -/
theorem SameButSamples.perform {s s' : State} (h : SameButSamples s s') (o : Owner) (acts : List Act) :
    (perform o acts s).SameButSamples (perform o acts s') := by
  induction acts generalizing s s' with
  | nil => exact .through h
  | cons a acts ih =>
    cases a with
    | call e =>
      have hi := h.issue o e
      simp only [Machine.perform]
      generalize Machine.issue o e s = r, Machine.issue o e s' = r' at hi ⊢
      cases hi with
      | through hu => exact ih hu
      | ended hu => exact .ended hu
    | setRow x => exact ih (h.place (.setRow x))
    | setCol x => exact ih (h.place (.setCol x))
    | setUstep x => exact ih (h.place (.setUstep x))
    | setSeq x => exact ih (h.place (.setSeq x))

theorem SameButSamples.withoutSamples_eq {s s' : State} (h : SameButSamples s s') :
    withoutSamples s = withoutSamples s' := by
  obtain ⟨n, b, tr, ht, rfl⟩ := h
  simp [withoutSamples, ht]

/-- Of the operations only `XBIT` answers with the sample (R133). -/
theorem SameButSamples.withoutSamples_finishes {s s' : State} (h : SameButSamples s s') (i : Instr) :
    withoutSamples (finishes i s) = withoutSamples (finishes i s') := by
  obtain ⟨n, b, tr, ht, rfl⟩ := h
  cases i <;> simp [finishes, answer, withoutSamples, ht]

/-- What an operation leaves after its run, however that ended. -/
theorem Run.SameButSamples.withoutSamples_conclude {r r' : Run} (h : r.SameButSamples r') {i : Instr} {t t' : State}
    (ht : conclude r (finishes i) = .next t) (ht' : conclude r' (finishes i) = .next t') :
    withoutSamples t = withoutSamples t' := by
  cases h with
  | through h =>
    cases ht; cases ht'
    exact h.withoutSamples_finishes i
  | ended h =>
    cases ht; cases ht'
    exact h.withoutSamples_eq

/-- The samples are among what the loader neither reads nor writes. -/
theorem SameButSamples.loaderUpdate {s s' : State} (h : SameButSamples s s') (i : Instr) :
    SameButSamples (loaderUpdate i s) (loaderUpdate i s') := by
  obtain ⟨n, b, tr, ht, rfl⟩ := h
  have hf := loaderUpdate_frame i s
  refine ⟨n, b, tr, by rw [hf]; exact ht, ?_⟩
  calc Machine.loaderUpdate i { s with draws := n, sample := b, trace := tr }
      = withLoaderOf { s with draws := n, sample := b, trace := tr } (Machine.loaderUpdate i s) :=
        withLoaderOf_loaderUpdate (p := { s with draws := n, sample := b, trace := tr }) (s := s) rfl i
    _ = { withLoaderOf s (Machine.loaderUpdate i s) with draws := n, sample := b, trace := tr } := rfl
    _ = { Machine.loaderUpdate i s with draws := n, sample := b, trace := tr } := by rw [← hf]

theorem SameButSamples.begins {s s' : State} (h : SameButSamples s s') (i : Instr) :
    SameButSamples (begins i s) (begins i s') := by
  obtain ⟨n, b, tr, ht, rfl⟩ := h
  cases i <;> exact ⟨n, b, tr, ht, rfl⟩

/-- No admission reads a sample. -/
theorem SameButSamples.admission_eq {s s' : State} (h : SameButSamples s s') (i : Instr) :
    admission i s' = admission i s := by
  obtain ⟨n, b, tr, -, rfl⟩ := h
  cases i <;> rfl

/-- No acts are chosen by a sample. -/
theorem SameButSamples.actsOf_eq {s s' : State} (h : SameButSamples s s') (i : Instr) :
    actsOf i s' = actsOf i s := by
  obtain ⟨n, b, tr, -, rfl⟩ := h
  cases i <;> rfl

/-- The two runs of an operation issue the same events and end alike. -/
theorem SameButSamples.runOf {s s' : State} (h : SameButSamples s s') (i : Instr) :
    (runOf i s).SameButSamples (runOf i s') := by
  rw [Machine.runOf, Machine.runOf, h.actsOf_eq]
  exact (h.begins i).perform ..

/-- The two runs of an operation are turned away alike, or are the same update, or issue the same events and end alike. -/
theorem SameButSamples.exec {s s' t t' : State} (h : SameButSamples s s') {i : Instr} (ht : exec i s = .next t)
    (ht' : exec i s' = .next t') : withoutSamples t = withoutSamples t' := by
  rw [exec_eq] at ht ht'
  rw [h.admission_eq] at ht'
  cases ha : admission i s with
  | some why =>
    rw [ha] at ht ht'
    cases ht; cases ht'
    obtain ⟨n, b, tr, hm, rfl⟩ := h
    simp [refuse, withoutSamples, hm]
  | none =>
    rw [ha] at ht ht'
    cases hi : issues i with
    | true =>
      rw [hi] at ht ht'
      exact (h.runOf i).withoutSamples_conclude ht ht'
    | false =>
      rw [hi] at ht ht'
      cases ht; cases ht'
      exact (h.loaderUpdate i).withoutSamples_eq

/-! ### Pins -/

/-- Every pin, in the order of PINMAP. -/
def allPins : List Pin := [.program, .writeDataIn, .erase, .accessOlmc, .clock, .dataOut, .strobe]

theorem mem_allPins (k : Pin) : k ∈ allPins := by cases k <;> decide

/-- Under a PINMAP of distinct numbers a number is one pin's (R29). -/
theorem pinNumber_inj {m : Config.PinMap} (h : m.distinct = true) {k k' : Pin}
    (hk : pinNumber m k = pinNumber m k') : k = k' := by
  have hnodup : (allPins.map (pinNumber m)).Nodup := of_decide_eq_true h
  obtain ⟨i, hi, rfl⟩ := List.getElem_of_mem (mem_allPins k)
  obtain ⟨j, hj, rfl⟩ := List.getElem_of_mem (mem_allPins k')
  rw [← List.getElem_map (pinNumber m) (h := by rwa [List.length_map]),
    ← List.getElem_map (pinNumber m) (h := by rwa [List.length_map]), List.getElem_inj hnodup] at hk
  subst hk
  rfl

/-- WRITE and DATA_IN are the only two roles with one pin. -/
theorem eq_or_shared_of_pinOf_eq {r r' : Role} (h : pinOf r = pinOf r') :
    r = r' ∨ (r ∈ [Role.write, .dataIn] ∧ r' ∈ [Role.write, .dataIn]) := by
  cases r <;> cases r' <;> revert h <;> decide

end Sys2Proof.Machine

namespace Sys2Proof.Proofs

open Sys2Proof.Machine Sys2Proof.Safety

/-- Settles O26: an operation that issues events leaves the loader's registers; of the others, one that is turned away
does, and the rest have a clause each. -/
theorem loaderOutcomeIsSticky : Obligations.LoaderOutcomeIsSticky := by
  intro i s t hc hp h
  cases hi : issues i with
  | true =>
    have hf := exec_programmer_frame hi h
    rw [hf.ldr, hf.fa, hf.lineNo]
    exact ⟨fun f hl => ⟨hl, rfl, rfl⟩, fun hl => ⟨rfl, fun _ => hl⟩⟩
  | false =>
    obtain ⟨why, -, rfl⟩ | ⟨ha, -, rfl⟩ | ⟨-, hi', -⟩ := exec_next h
    · exact ⟨fun f hl => ⟨hl, rfl, rfl⟩, fun hl => ⟨rfl, fun _ => hl⟩⟩
    · exact ⟨fun f hl => loaderUpdate_faulted hc hp hl, fun hl => loaderUpdate_valid hc hp hl ha⟩
    · rw [hi] at hi'; cases hi'

/-- Settles O51: `seq` is written by the sequence's own operations and by an early end alone. -/
theorem seqOnlyAdvances : Obligations.SeqOnlyAdvances := by
  intro i s t h
  obtain ⟨why, -, rfl⟩ | ⟨-, hi, -⟩ | ⟨ha, -, hrun⟩ := exec_next h
  · exact ⟨.inl rfl, fun _ _ _ => .inl rfl, id, id⟩
  · rw [exec_loader_frame hi h]
    exact ⟨.inl rfl, fun _ _ _ => .inl rfl, id, id⟩
  · obtain ⟨hq, hp, hd⟩ := seq_flags_of_runOf hrun
    obtain ⟨hrp, hrd⟩ := runOf_flags i s
    rw [hq, hp]
    refine ⟨runOf_seqMove ha, ?_, hrp, fun hs => hd (hrd.trans hs)⟩
    rintro rows olmc rfl
    exact runOf_program_seq ha

/-- Settles O57: the control registers are in the frame of both kinds of operation. -/
theorem controlRegistersAreReadOnly : Obligations.ControlRegistersAreReadOnly := by
  intro i s t h
  cases hi : issues i with
  | true =>
    have hf := exec_programmer_frame hi h
    exact ⟨hf.timing, hf.pinMap⟩
  | false =>
    rw [exec_loader_frame hi h]
    exact ⟨rfl, rfl⟩

/-- Settles O59: neither the admission nor the acts of an operation read a sample, so the two runs issue the same events
and end the same way. -/
theorem nothingDependsOnSamples : Obligations.NothingDependsOnSamples := by
  intro i s t t' n b h h'
  have hs : SameButSamples s { s with draws := n, sample := b } := ⟨n, b, s.trace, rfl, rfl⟩
  exact hs.exec h h'

/-- Settles O1: a host reset is the reset state with the parameters, the control registers and the inputs kept. -/
theorem resetGivesStartOfLife : Obligations.ResetGivesStartOfLife := by
  intro s r hr
  have hpins (role : Role) : Pins.reset.dirn role = .unconfigured := by cases role <;> rfl
  have hkept : r = hostReset s → r.timing = s.timing ∧ r.pinMap = s.pinMap ∧ r.marker = s.marker := by
    rintro rfl
    exact ⟨rfl, rfl, rfl⟩
  have htiming : r = State.reset → r.timing = ⟨5000, 10000, 30000, 5000, 10000⟩ := by
    rintro rfl
    rfl
  obtain rfl | rfl := hr <;> exact ⟨fuse_nil, rfl, rfl, rfl, rfl, rfl, rfl, hpins, htiming, hkept⟩

/-- Settles O33: a level is read after a write to the same pin, and a number names one pin. -/
theorem writeAndDataInShareAPin : Obligations.WriteAndDataInShareAPin := by
  intro p m v
  refine ⟨?_, ?_, rfl, fun hm r r' h => eq_or_shared_of_pinOf_eq (pinNumber_inj hm h)⟩
  · exact (Pins.level_drive ..).trans (if_pos rfl)
  · exact (Pins.level_drive ..).trans (if_pos rfl)

end Sys2Proof.Proofs
end

section
/-! SUPPORT. The memory rules. What a record in range writes, said once of `patch`; what two parses share
(`SameParse`): `base` and the run length are written by the loader and never read. By the frames of the two kinds of
operation the trace only grows, and the loader and the programmer keep apart. -/

namespace Sys2Proof.Machine

open Sys2Proof.Safety

/-! ### A record in range -/

theorem addressWellFormed_iff {field : List Byte} :
    addressWellFormed field = true ↔
      field.length = 5 ∧ ∀ ch ∈ field, 0x30 ≤ ch.toNat ∧ ch.toNat ≤ 0x39 := by
  simp [addressWellFormed, isDigit]

/-- The value of a field of five characters, most significant digit first (R54, R83). -/
theorem decimalValue_five (d0 d1 d2 d3 d4 : Byte) :
    decimalValue [d0, d1, d2, d3, d4] =
      (d0.toNat - 0x30) * 10000 + (d1.toNat - 0x30) * 1000 + (d2.toNat - 0x30) * 100 + (d3.toNat - 0x30) * 10 +
        (d4.toNat - 0x30) := by
  simp only [decimalValue, digitValue, List.foldl]
  omega

/-- `LD.PATCH` by itself takes a record in `Idle` until the array is complete (log 12). -/
theorem admission_ldPatch {line : Line} {s : State} :
    admission (.ldPatch line) s = none ↔
      s.seq = .idle ∧ s.ldr ≠ .valid ∧ line.take 2 = [s.marker.first, s.marker.second] := by
  simp [admission, withOperand_none, whenLineTaken_none, isRecord, and_assoc]

/-- A well-formed record whose run ends inside the array is written (R112). -/
theorem patch_inRange {line : Line} {s : State} (hw : addressWellFormed (addressField line) = true)
    (hr : decimalValue (addressField line) + (runField line).length ≤ Config.faLen) :
    patch line s =
      answer .nothing { s with
        base := BitVec.ofNat 17 (decimalValue (addressField line)), runLen := (runField line).length,
        fa := memWrite s.fa (decimalValue (addressField line)) ((runField line).map boolOfChar) } := by
  simp only [patch, hw, Bool.true_eq_false, if_false, if_neg (Nat.not_lt.2 hr)]

theorem takePatch_unfaulted {s : State} (h : s.ldr.faulted = false) (line : Line) :
    takePatch line s = patch line { s with ldr := .loading } := by
  simp [takePatch, h]

/-- The cells of a run written inside the array hold its characters as fuse values, leftmost first (R53, R58, R90). -/
theorem fuse_memWrite_run {m : List Host.Cell} (h : Memory.wf m = true) {b : Nat} {run : List Byte}
    (hb : b + run.length ≤ Config.faLen) {j : Nat} {ch : Byte} (hj : run[j]? = some ch) :
    fuse (memWrite m b (run.map boolOfChar)) (b + j) = boolOfChar ch := by
  obtain ⟨hlt, -⟩ := List.getElem?_eq_some_iff.1 hj
  have hin : b ≤ b + j ∧ b + j < b + (run.map boolOfChar).length := by simpa using hlt
  rw [fuse_memWrite h (by simpa using hb), if_pos hin]
  simp [hj]

/-- A run written inside the array leaves every cell outside it (R62). -/
theorem fuse_memWrite_outside {m : List Host.Cell} (h : Memory.wf m = true) {b : Nat} {bs : Bits}
    (hb : b + bs.length ≤ Config.faLen) {a : Nat} (ha : a < b ∨ b + bs.length ≤ a) :
    fuse (memWrite m b bs) a = fuse m a := by
  rw [fuse_memWrite h hb, if_neg (by omega)]

/-! ### What two parses share -/

/-- Two states with one array, status, line counter and marker: all that taking a line reads. -/
structure SameParse (s s' : State) : Prop where
  fa : s.fa = s'.fa
  ldr : s.ldr = s'.ldr
  lineNo : s.lineNo = s'.lineNo
  marker : s.marker = s'.marker

theorem SameParse.of_clearLoader {s s' : State} (h : s.marker = s'.marker) :
    SameParse (clearLoader s) (clearLoader s') := ⟨rfl, rfl, rfl, h⟩

theorem SameParse.answer {s s' : State} (h : SameParse s s') (r r' : Reply) :
    SameParse (answer r s) (answer r' s') := { h with }

theorem SameParse.countLine {s s' : State} (h : SameParse s s') : SameParse (countLine s) (countLine s') :=
  ⟨h.fa, rfl, congrArg (· + 1) h.lineNo, h.marker⟩

theorem SameParse.patch {s s' : State} (h : SameParse s s') (line : Line) :
    SameParse (patch line s) (patch line s') := by
  simp only [Machine.patch, h.fa, h.lineNo]
  split
  · exact ⟨h.fa, rfl, h.lineNo, h.marker⟩
  · split
    · exact ⟨rfl, rfl, rfl, h.marker⟩
    · exact ⟨rfl, h.ldr, rfl, h.marker⟩

theorem SameParse.takeLine {s s' : State} (h : SameParse s s') (line : Line) :
    SameParse (takeLine line s) (takeLine line s') := by
  simp only [Machine.takeLine, h.ldr, h.marker]
  split
  · exact h.answer _ _
  · split
    · exact h.countLine.patch line
    · exact h.countLine.answer _ _

theorem SameParse.takeLines {s s' : State} (h : SameParse s s') (lines : List Line) :
    SameParse (lines.foldl (fun s l => Machine.takeLine l s) s) (lines.foldl (fun s l => Machine.takeLine l s) s') := by
  induction lines generalizing s s' with
  | nil => exact h
  | cons l ls ih => exact ih (h.takeLine l)

theorem SameParse.takeIoError {s s' : State} (h : SameParse s s') : SameParse (takeIoError s) (takeIoError s') := by
  simp only [Machine.takeIoError, h.ldr]
  split
  · exact h.answer _ _
  · exact ⟨h.fa, rfl, h.lineNo, h.marker⟩

theorem SameParse.takeEof {s s' : State} (h : SameParse s s') : SameParse (takeEof s) (takeEof s') :=
  ⟨h.fa, congrArg Ldr.atEof h.ldr, h.lineNo, h.marker⟩

/-- Two parses of the same lines share their outcome: the array, the status and the counter are cleared first (R63). -/
theorem SameParse.parseFile {s s' : State} (h : s.marker = s'.marker) (lines : List Line) (ioError : Bool) :
    SameParse (parseFile lines ioError s) (parseFile lines ioError s') := by
  have hlines := (SameParse.of_clearLoader h).takeLines lines
  cases ioError with
  | false => exact hlines.takeEof
  | true => exact hlines.takeIoError.takeEof

theorem SameParse.parseResult_eq {s s' : State} (h : SameParse s s') : parseResult s = parseResult s' := by
  simp only [parseResult, h.fa, h.ldr]

/-- In `Idle` a file is taken whole, whatever `ldr` is (R119). -/
theorem exec_parse_idle {s : State} (h : s.seq = .idle) (lines : List Line) (ioError : Bool) :
    exec (.parse lines ioError) s =
      .next (answer (parseResult (parseFile lines ioError s)) (parseFile lines ioError s)) :=
  exec_loader (i := .parse lines ioError) (whenIdle_none.2 h) rfl

/-! ### The trace, and the two kinds of operation -/

@[simp] theorem finishes_trace (i : Instr) (s : State) : (finishes i s).trace = s.trace := by
  obtain ⟨d, r, w, h⟩ := finishes_writes i s
  rw [h]

/-- An operation's run only adds to the trace it begins with, however it ends. -/
theorem runOf_trace (i : Instr) (s : State) : s.trace <+: (runOf i s).state.trace := by
  obtain ⟨-, htrace, -⟩ := begins_frame i s
  have h : (begins i s).trace <+: (runOf i s).state.trace := perform_trace ..
  rwa [htrace] at h

theorem issues_of_isLoader {i : Instr} (h : isLoader i = true) : issues i = false := by
  cases i <;> trivial

/-- `ABORT` alone neither belongs to the loader nor issues an event. -/
theorem eq_abort_of_not_loader {i : Instr} (hl : isLoader i = false) (hi : issues i = false) : i = .abort := by
  cases i <;> trivial

/-- `ABORT`, admitted or not, writes the answer alone (R186). -/
theorem sameLoader_of_exec_abort {s t : State} (h : exec .abort s = .next t) : SameLoader s t := by
  obtain ⟨why, -, rfl⟩ | ⟨-, -, rfl⟩ | ⟨-, hi, -⟩ := exec_next h
  · constructor <;> rfl
  · constructor <;> rfl
  · cases hi

end Sys2Proof.Machine

namespace Sys2Proof.Proofs

open Sys2Proof.Machine Sys2Proof.Safety

/-- Settles O15: the record is admitted, its address reads `b`, and the write is `MemWrite` inside the array. -/
theorem recordWritesItsRun : Obligations.RecordWritesItsRun := by
  intro line s d0 d1 d2 d3 d4 b hq hl hm hrec hfield hdig hb hrange
  have haddr : addressField line = [d0, d1, d2, d3, d4] := hfield
  have hval : decimalValue (addressField line) = b := by rw [haddr, decimalValue_five, hb]
  have hword : addressWellFormed (addressField line) = true := by
    rw [haddr]
    exact addressWellFormed_iff.2 ⟨rfl, hdig⟩
  have hrun : b + (runField line).length ≤ Config.faLen := hrange
  have hbits : b + ((runField line).map boolOfChar).length ≤ Config.faLen := by rwa [List.length_map]
  obtain ⟨hvalid, hfault⟩ : s.ldr ≠ .valid ∧ s.ldr.faulted = false := by
    obtain h | h := hl <;> rw [h] <;> exact ⟨by decide, rfl⟩
  have hexec : exec (.ldPatch line) s = .next (takePatch line s) :=
    exec_loader (admission_ldPatch.2 ⟨hq, hvalid, hrec⟩) rfl
  rw [takePatch_unfaulted hfault, patch_inRange hword (hval ▸ hrun), hval] at hexec
  refine ⟨_, hexec, rfl, memWrite_wf hm hbits, fun j ch hj => fuse_memWrite_run hm hrun hj, fun a ha => ?_⟩
  exact fuse_memWrite_outside hm hbits (by rwa [List.length_map])

/-- Settles O25: a parse clears what it reads of the loader, but for the marker. -/
theorem parseIsDeterministic : Obligations.ParseIsDeterministic := by
  intro lines ioError s s' t t' hq hq' hm h h'
  have hs := SameParse.parseFile hm lines ioError
  rw [exec_parse_idle hq] at h
  rw [exec_parse_idle hq'] at h'
  cases h; cases h'
  exact ⟨hs.fa, hs.ldr, hs.lineNo, hs.parseResult_eq⟩

/-- Settles O58: a run only adds to the trace, and nothing else writes it. -/
theorem traceOnlyGrows : Obligations.TraceOnlyGrows := by
  intro i s t h
  have hrun := runOf_trace i s
  obtain ⟨why, -, rfl⟩ | ⟨-, hi, -⟩ | ⟨-, -, ⟨u, hu, rfl⟩ | hu⟩ := exec_next h
  · exact List.prefix_refl _
  · rw [exec_loader_frame hi h]
    exact List.prefix_refl _
  · rw [runOf, hu] at hrun
    rwa [finishes_trace]
  · rw [runOf, hu] at hrun
    exact hrun

/-- Settles O60: the frames of the two kinds of operation, and `ABORT`, which is of neither. -/
theorem loaderAndProgrammerKeepApart : Obligations.LoaderAndProgrammerKeepApart := by
  intro i s t h
  refine ⟨fun hl => exec_loader_frame (issues_of_isLoader hl) h, fun hl => ?_⟩
  have hsame : SameLoader s t := by
    cases hi : issues i with
    | true => exact exec_programmer_frame hi h
    | false =>
      obtain rfl := eq_abort_of_not_loader hl hi
      exact sameLoader_of_exec_abort h
  exact ⟨hsame.fa, hsame.ldr, hsame.base, hsame.runLen, hsame.lineNo, hsame.marker, hsame.cmd⟩

end Sys2Proof.Proofs
end

section
/-! SUPPORT. The encoding. The equation of the decoder at each kind of first byte; each operand decoder gives back what
its encoder wrote, and yields operands in their ranges only (`Decoded.Yields`). -/

namespace Sys2Proof

/-! ### The first byte (R101, R102) -/

theorem decode_eraseFrame {b : Byte} (h : b &&& 0xC0#8 = 0x80#8) (bytes : List Byte) :
    decode (b :: bytes) = .ok (.s3, bytes) := by
  rw [decode, frameMask, if_pos h, plain]

theorem decode_olmcFrame {b : Byte} (h : b &&& 0xC0#8 = 0x40#8) (bytes : List Byte) :
    decode (b :: bytes) = .ok (.s5, bytes) := by
  rw [decode, frameMask, if_neg (by rw [h]; decide), if_pos h, plain]

/-- A byte below 64 has neither control bit. -/
theorem and_frameMask_of_lt {b : Byte} (h : b.toNat < 64) : b &&& 0xC0#8 = 0x00#8 := by
  have hb (a : Config.RowAddr) : a.setWidth 8 &&& 0xC0#8 = 0x00#8 := by revert a; decide
  have hw : (b.setWidth 6).setWidth 8 = b := by bv_omega
  rw [← hw]
  exact hb (b.setWidth 6)

/-- A word without a control bit is a row's, the power-down-disable row's or a reserved address (R101, R102). -/
theorem decode_row {b : Byte} (h : b.toNat < 64) (hp : b ≠ 0x3B#8) (bytes : List Byte) :
    decode (b :: bytes) =
      if b.toNat < Config.nRows then
        (decodeBits Config.nCols bytes).andThen fun data => plain (.fRow (b.setWidth Config.addrBits) data)
      else .error (.reservedRowAddress (b.setWidth Config.addrBits)) := by
  have hm := and_frameMask_of_lt h
  rw [decode, frameMask, hm, if_neg (by decide), if_neg (by decide), if_neg hp, if_pos rfl]

/-! ### An operand and its encoding -/

@[simp] theorem decodeBit_encodeBit (b : Bool) (rest : List Byte) :
    decodeBit (encodeBit b :: rest) = .ok (b, rest) := by
  cases b <;> rfl

theorem decodeBits_encodeBits {n : Nat} {bs : Bits} (h : bs.length = n) (rest : List Byte) :
    decodeBits n (encodeBits bs ++ rest) = .ok (bs, rest) := by
  subst h
  induction bs with
  | nil => rfl
  | cons b bs ih =>
    rw [encodeBits, List.map_cons, List.cons_append, ← encodeBits, List.length_cons, decodeBits, decodeBit_encodeBit,
      Decoded.andThen_ok, ih, Decoded.andThen_ok]

theorem decodeBitString_encodeBitString (bs : Bits) (rest : List Byte) :
    decodeBitString (encodeBitString bs ++ rest) = .ok (bs, rest) := by
  induction bs with
  | nil => rfl
  | cons b bs ih =>
    have hb : decodeBitString (encodeBit b :: (encodeBitString bs ++ rest)) =
        (decodeBitString (encodeBitString bs ++ rest)).andThen fun bs rest' => .ok (b :: bs, rest') := by
      cases b <;> rfl
    rw [ih] at hb
    exact hb

theorem Line.wf_cons {b : Byte} {l : Line} : Line.wf (b :: l) = true ↔ b ≠ lineFeed ∧ Line.wf l = true := by
  simp [Line.wf]

theorem decodeLine_encodeLine {l : Line} (h : Line.wf l = true) (rest : List Byte) :
    decodeLine (encodeLine l ++ rest) = .ok (l, rest) := by
  induction l with
  | nil => rfl
  | cons b l ih =>
    obtain ⟨hb, hl⟩ := Line.wf_cons.1 h
    rw [encodeLine, List.cons_append, ← encodeLine, List.cons_append, decodeLine, if_neg hb, ih hl,
      Decoded.andThen_ok]

/-- Fuel past the number of lines is enough. -/
theorem decodeFile_of_fuel {ls : List Line} (h : ∀ l ∈ ls, Line.wf l = true) (ioError : Bool) (fuel : Nat)
    (rest : List Byte) :
    decodeFile (ls.length + fuel + 1) (encodeFile ls ioError ++ rest) = .ok ((ls, ioError), rest) := by
  induction ls with
  | nil => cases ioError <;> rfl
  | cons l ls ih =>
    obtain ⟨hl, hls⟩ := List.forall_mem_cons.1 h
    have hfuel : (l :: ls).length + fuel + 1 = (ls.length + fuel + 1) + 1 := by rw [List.length_cons]; omega
    rw [hfuel, encodeFile, List.cons_append, List.cons_append, List.append_assoc, decodeFile, if_neg (by decide),
      if_neg (by decide), if_pos rfl, decodeLine_encodeLine hl, Decoded.andThen_ok, ih hls, Decoded.andThen_ok]

theorem length_le_encodeFile (ls : List Line) (ioError : Bool) : ls.length ≤ (encodeFile ls ioError).length := by
  induction ls with
  | nil => exact Nat.zero_le _
  | cons l ls ih => simp [encodeFile]; omega

/-- Each line has a tag, so the decoder's fuel, one more than the bytes there are, is enough. -/
theorem decodeFile_encodeFile {ls : List Line} (h : ∀ l ∈ ls, Line.wf l = true) (ioError : Bool)
    (rest : List Byte) :
    decodeFile ((encodeFile ls ioError ++ rest).length + 1) (encodeFile ls ioError ++ rest) =
      .ok ((ls, ioError), rest) := by
  have hlen : ls.length ≤ (encodeFile ls ioError ++ rest).length :=
    Nat.le_trans (length_le_encodeFile ls ioError) (by simp)
  obtain ⟨fuel, hfuel⟩ := Nat.exists_eq_add_of_le hlen
  rw [hfuel, decodeFile_of_fuel h]

/-- Fuel past the number of rows is enough. -/
theorem decodeRows_of_fuel (rows : List Bits) (fuel : Nat) (rest : List Byte) :
    decodeRows (rows.length + fuel + 1) (encodeRows rows ++ rest) = .ok (rows, rest) := by
  induction rows with
  | nil => rfl
  | cons r rows ih =>
    have hfuel : (r :: rows).length + fuel + 1 = (rows.length + fuel + 1) + 1 := by rw [List.length_cons]; omega
    rw [hfuel, encodeRows, List.cons_append, List.cons_append, List.append_assoc, decodeRows, if_neg (by decide),
      if_pos rfl, decodeBitString_encodeBitString, Decoded.andThen_ok, ih, Decoded.andThen_ok]

theorem length_le_encodeRows (rows : List Bits) : rows.length ≤ (encodeRows rows).length := by
  induction rows with
  | nil => exact Nat.zero_le _
  | cons r rows ih => simp [encodeRows]; omega

/-- Each row has a tag, so the decoder's fuel is enough here too. -/
theorem decodeRows_encodeRows (rows : List Bits) (rest : List Byte) :
    decodeRows ((encodeRows rows ++ rest).length + 1) (encodeRows rows ++ rest) = .ok (rows, rest) := by
  have hlen : rows.length ≤ (encodeRows rows ++ rest).length := Nat.le_trans (length_le_encodeRows rows) (by simp)
  obtain ⟨fuel, hfuel⟩ := Nat.exists_eq_add_of_le hlen
  rw [hfuel, decodeRows_of_fuel]

theorem decodeDuration_encodeDuration {t : Nat} (h : durationFits t = true) (rest : List Byte) :
    decodeDuration (encodeDuration t ++ rest) = .ok (t, rest) := by
  have ht : t < 2 ^ 32 := by simpa [durationFits] using h
  have hval : (BitVec.ofNat 8 t).toNat + 2 ^ 8 * (BitVec.ofNat 8 (t / 2 ^ 8)).toNat +
      2 ^ 16 * (BitVec.ofNat 8 (t / 2 ^ 16)).toNat + 2 ^ 24 * (BitVec.ofNat 8 (t / 2 ^ 24)).toNat = t := by
    simp only [BitVec.toNat_ofNat]
    omega
  simp only [encodeDuration, List.cons_append, List.nil_append, decodeDuration, hval]

theorem decodeOutputRole_roleCode {role : Role} (h : role ≠ .dataOut) (rest : List Byte) :
    decodeOutputRole (roleCode role :: rest) = .ok (role, rest) := by
  cases role with
  | dataOut => exact absurd rfl h
  | _ => rfl

theorem decodeRowNumber_ofNat {r : Nat} (h : r < Config.nRows) (rest : List Byte) :
    decodeRowNumber (BitVec.ofNat 8 r :: rest) = .ok (r, rest) := by
  have hr : (BitVec.ofNat 8 r).toNat = r := by
    rw [Config.nRows_eq] at h
    rw [BitVec.toNat_ofNat]
    omega
  rw [decodeRowNumber, hr, if_pos h]

theorem setWidth_addrBits_setWidth (a : Config.RowAddr) : (a.setWidth 8).setWidth Config.addrBits = a :=
  BitVec.setWidth_setWidth_of_le a (by decide)

theorem decodeAddress_setWidth (a : Config.RowAddr) (rest : List Byte) :
    decodeAddress (a.setWidth 8 :: rest) = .ok (a, rest) := by
  have ha : (a.setWidth 8).toNat < 2 ^ Config.addrBits := by
    rw [BitVec.toNat_setWidth_of_le (by decide)]
    exact a.isLt
  rw [decodeAddress, if_pos ha, setWidth_addrBits_setWidth]

/-- A row frame: its command word is its address, below 44 (R102). -/
theorem decode_rowFrame {b : Byte} {data : Bits} (hb : b.toNat < Config.nRows) (hd : data.length = Config.nCols)
    (rest : List Byte) :
    decode (b :: (encodeBits data ++ rest)) = .ok (.fRow (b.setWidth Config.addrBits) data, rest) := by
  have hlt : b.toNat < 44 := hb
  have hp : b ≠ 0x3B#8 := by bv_omega
  rw [decode_row (by omega) hp, if_pos hb, decodeBits_encodeBits hd, Decoded.andThen_ok, plain]

theorem wf_fRow {r : Config.RowAddr} {data : Bits} :
    (Instr.fRow r data).wf = true ↔ r.toNat < Config.nRows ∧ data.length = Config.nCols := by
  simp [Instr.wf]

/-- An operand read, then what follows it. -/
theorem Decoded.andThen_eq {α β : Type} {x : Decoded α} {a : α} {rest : List Byte} {f : α → List Byte → Decoded β}
    {y : Decoded β} (h : x = .ok (a, rest)) (hf : f a rest = y) : x.andThen f = y := by
  rw [h]
  exact hf

/-- The last operand read. -/
theorem Decoded.andThen_plain {α : Type} {x : Decoded α} {a : α} {rest : List Byte} {f : α → Instr}
    (h : x = .ok (a, rest)) : (x.andThen fun a => plain (f a)) = .ok (f a, rest) := andThen_eq h rfl

/-! ### What a decoder yields -/

/-- Whatever a decoder of an operand answers has a property. -/
def Decoded.Yields {α : Type} (P : α → Prop) (x : Decoded α) : Prop := ∀ a rest, x = .ok (a, rest) → P a

theorem Decoded.Yields.ok {α : Type} {P : α → Prop} {a : α} {rest : List Byte} (h : P a) :
    Decoded.Yields P (.ok (a, rest)) := by
  rintro _ _ ⟨⟩
  exact h

theorem Decoded.Yields.error {α : Type} {P : α → Prop} (e : Reject) : Decoded.Yields P (.error e) := by
  rintro _ _ ⟨⟩

/-- An operand with its property, then what follows it. -/
theorem Decoded.Yields.andThen {α β : Type} {P : α → Prop} {Q : β → Prop} {x : Decoded α}
    {f : α → List Byte → Decoded β} (h : x.Yields P) (hf : ∀ a, P a → ∀ rest, (f a rest).Yields Q) :
    (x.andThen f).Yields Q := by
  match x with
  | .ok (a, rest) => exact hf a (h a rest rfl) rest
  | .error e => exact .error e

/-- An operand that may be any. -/
theorem Decoded.yields_true {α : Type} (x : Decoded α) : x.Yields fun _ => True := fun _ _ _ => trivial

/-- An operation whose last operand makes it well formed. -/
theorem Decoded.Yields.plain {α : Type} {P : α → Prop} {x : Decoded α} {f : α → Instr} (h : x.Yields P)
    (hf : ∀ a, P a → (f a).wf = true) : (x.andThen fun a => Sys2Proof.plain (f a)).Yields (·.wf = true) :=
  h.andThen fun a ha _ => .ok (hf a ha)

theorem decodeLine_yields (bytes : List Byte) : (decodeLine bytes).Yields (Line.wf · = true) := by
  induction bytes with
  | nil => exact .error _
  | cons b bytes ih =>
    rw [decodeLine]
    split
    · exact .ok rfl
    · next hb => exact ih.andThen fun l hl _ => .ok (Line.wf_cons.2 ⟨hb, hl⟩)

theorem decodeBits_yields (n : Nat) (bytes : List Byte) : (decodeBits n bytes).Yields (·.length = n) := by
  induction n generalizing bytes with
  | zero => exact .ok rfl
  | succ n ih =>
    exact (Decoded.yields_true _).andThen fun b _ rest =>
      (ih rest).andThen fun bs hbs _ => .ok (congrArg (· + 1) hbs)

theorem decodeFile_yields (fuel : Nat) (bytes : List Byte) :
    (decodeFile fuel bytes).Yields (·.1.all Line.wf = true) := by
  induction fuel generalizing bytes with
  | zero => exact .error _
  | succ fuel ih =>
    cases bytes with
    | nil => exact .error _
    | cons b bytes =>
      rw [decodeFile]
      split
      · exact .ok rfl
      split
      · exact .ok rfl
      split
      · exact (decodeLine_yields _).andThen fun l hl rest =>
          (ih rest).andThen fun f hf _ => .ok (by simpa [hl] using hf)
      · exact .error _

theorem decodeDuration_yields (bytes : List Byte) : (decodeDuration bytes).Yields (durationFits · = true) := by
  unfold decodeDuration
  split
  · next b0 b1 b2 b3 rest =>
    refine .ok (decide_eq_true ?_)
    have := b0.isLt; have := b1.isLt; have := b2.isLt; have := b3.isLt
    omega
  · exact .error _

theorem decodeOutputRole_yields (bytes : List Byte) : (decodeOutputRole bytes).Yields (· ≠ .dataOut) := by
  cases bytes with
  | nil => exact .error _
  | cons b bytes =>
    rw [decodeOutputRole]
    split
    case h_8 => exact .error _
    all_goals exact .ok (by decide)

theorem decodeRowNumber_yields (bytes : List Byte) : (decodeRowNumber bytes).Yields (· < Config.nRows) := by
  cases bytes with
  | nil => exact .error _
  | cons b bytes =>
    rw [decodeRowNumber]
    split
    · next h => exact .ok h
    · exact .error _

/-- An operation without operands is well formed. -/
theorem plain_yields {i : Instr} (h : i.wf = true) (rest : List Byte) : (plain i rest).Yields (·.wf = true) := .ok h

/-- The arms that check an operand are the lines, `LD.ROW`, `PARSE`, `SETL`, the two durations and `SHIFTROW`. -/
theorem decodeCommand_yields (b : Byte) (rest : List Byte) : (decodeCommand b rest).Yields (·.wf = true) := by
  unfold decodeCommand
  split
  case h_2 | h_3 | h_4 => exact (decodeLine_yields _).plain fun _ h => h
  case h_7 => exact (decodeRowNumber_yields _).plain fun _ h => decide_eq_true h
  case h_9 => exact (decodeFile_yields _ _).plain fun _ h => h
  case h_11 =>
    exact (decodeOutputRole_yields _).andThen fun _ hr _ => (Decoded.yields_true _).plain fun _ _ => decide_eq_true hr
  case h_12 | h_14 => exact (decodeDuration_yields _).plain fun _ h => h
  case h_13 => exact (Decoded.yields_true _).plain fun _ _ => rfl
  case h_15 =>
    exact (decodeBits_yields _ _).andThen fun data hd _ => (Decoded.yields_true _).plain fun _ _ => decide_eq_true hd
  case h_16 => exact (Decoded.yields_true _).andThen fun _ _ _ => (Decoded.yields_true _).plain fun _ _ => rfl
  case h_23 => exact .error _
  all_goals exact plain_yields rfl _

/-- The three frames without operands, a row's frame or a reserved address, and the commands. -/
theorem decode_yields (bytes : List Byte) : (decode bytes).Yields (·.wf = true) := by
  cases bytes with
  | nil => exact .error _
  | cons b bytes =>
    rw [decode]
    split
    · exact plain_yields rfl _
    split
    · exact plain_yields rfl _
    split
    · exact plain_yields rfl _
    split
    · split
      · next hr =>
        have hb : (b.setWidth Config.addrBits).toNat < Config.nRows := by
          rw [BitVec.toNat_setWidth]
          exact Nat.lt_of_le_of_lt (Nat.mod_le ..) hr
        exact (decodeBits_yields _ _).plain fun data hd => wf_fRow.2 ⟨hb, hd⟩
      · exact .error _
    · exact decodeCommand_yields b bytes

end Sys2Proof

namespace Sys2Proof.Proofs

/-- Settles O4: by the kind of operand; the first byte of a command computes to its arm of the decoder, and a row
frame's is its address. -/
theorem decodeEncodeRoundTrip : Obligations.DecodeEncodeRoundTrip := by
  intro i rest h
  cases i with
  | ldLine l | ldSkip l | ldPatch l => exact Decoded.andThen_plain (decodeLine_encodeLine h rest)
  | ldRow r => exact Decoded.andThen_plain (decodeRowNumber_ofNat (of_decide_eq_true h) rest)
  | parse ls e => exact Decoded.andThen_plain (decodeFile_encodeFile (List.all_eq_true.1 h) e rest)
  | setl role v =>
    refine Decoded.andThen_eq (decodeOutputRole_roleCode (of_decide_eq_true h) _) ?_
    exact Decoded.andThen_plain (decodeBit_encodeBit v rest)
  | wait t | strobe t => exact Decoded.andThen_plain (decodeDuration_encodeDuration h rest)
  | xbit b => exact Decoded.andThen_plain (decodeBit_encodeBit b rest)
  | shiftRow data a =>
    have hdata := decodeBits_encodeBits (of_decide_eq_true h) (a.setWidth 8 :: rest)
    rw [List.append_cons] at hdata
    exact Decoded.andThen_eq hdata (Decoded.andThen_plain (decodeAddress_setWidth a rest))
  | program rows olmc =>
    have hrows := decodeRows_encodeRows rows (encodeBitString olmc ++ rest)
    rw [← List.append_assoc] at hrows
    exact Decoded.andThen_eq hrows (Decoded.andThen_plain (decodeBitString_encodeBitString olmc rest))
  | fRow r data =>
    obtain ⟨hr, hd⟩ := wf_fRow.1 h
    have hb : (r.setWidth 8).toNat < Config.nRows := by rwa [BitVec.toNat_setWidth_of_le (by decide)]
    have hrow := decode_rowFrame hb hd rest
    rwa [setWidth_addrBits_setWidth] at hrow
  | _ => rfl

/-- Settles O5: what the decoder yields, said of its answer. -/
theorem decodeYieldsWellFormed : Obligations.DecodeYieldsWellFormed :=
  fun bytes rest i h => decode_yields bytes i rest h

/-- Settles O6: the decoder's equation at each kind of first byte. -/
theorem commandWordsClassifyFrames : Obligations.CommandWordsClassifyFrames := by
  intro b rest
  refine ⟨fun h => decode_eraseFrame h rest, fun h => decode_olmcFrame h rest, ?_, fun h data hd => ?_,
    fun h h63 hp => ?_⟩
  · rintro rfl
    rfl
  · exact decode_rowFrame (by rw [Config.nRows_eq]; omega) hd rest
  · rw [decode_row (by omega) hp, if_neg (by rw [Config.nRows_eq]; omega)]

/-- Settles O7: the words compute, and the row frame's data by the rule of row frames. -/
theorem sampleWordsDecode : Obligations.SampleWordsDecode := by
  have hbytes : tableBytes 8 0x2B = 0x2B#8 :: (encodeBits (List.replicate 132 false) ++ []) := by
    rw [encodeBits, List.map_replicate, List.append_nil]
    rfl
  have hrow : decodeTableWord 8 0x2B = some (.fRow 43#6 (List.replicate 132 false)) := by
    rw [decodeTableWord, hbytes, decode_rowFrame (by decide) List.length_replicate]
    rfl
  exact ⟨rfl, rfl, rfl, hrow, rfl, rfl, rfl, rfl, rfl⟩

end Sys2Proof.Proofs
end

section
/-! SUPPORT. Lines. `rtrim` is the library's `dropWhile` from the right end; a line and its line feed are cut off the
head of a file; and no line makes a parse `Valid`. -/

namespace Sys2Proof.Machine

/-! ### Trailing whitespace (R85) -/

theorem isWhitespace_iff {ch : Byte} :
    isWhitespace ch = true ↔ ch ∈ [0x09#8, 0x0A#8, 0x0B#8, 0x0C#8, 0x0D#8, 0x20#8] := by
  have hch : isWhitespace ch = true ↔ ch.toNat = 32 ∨ (9 ≤ ch.toNat ∧ ch.toNat ≤ 13) := by simp [isWhitespace]
  simp only [hch, List.mem_cons, List.not_mem_nil, or_false]
  bv_omega

theorem rtrim_cons (ch : Byte) (l : List Byte) :
    rtrim (ch :: l) = if rtrim l = [] ∧ isWhitespace ch = true then [] else ch :: rtrim l := by
  rw [rtrim]
  cases rtrim l with
  | nil => cases isWhitespace ch <;> rfl
  | cons t ts => simp

/-- `rtrim` drops whitespace while there is some at the end. -/
theorem rtrim_eq (l : List Byte) : rtrim l = (l.reverse.dropWhile isWhitespace).reverse := by
  induction l with
  | nil => rfl
  | cons ch l ih =>
    rw [rtrim_cons, ih, List.reverse_cons, List.dropWhile_append]
    cases l.reverse.dropWhile isWhitespace with
    | nil => cases hw : isWhitespace ch <;> simp [hw]
    | cons t ts => simp

/-- What `rtrim` removes is whitespace only. -/
theorem exists_rtrim_append (l : List Byte) : ∃ ws, l = rtrim l ++ ws ∧ ∀ ch ∈ ws, isWhitespace ch = true := by
  refine ⟨(l.reverse.takeWhile isWhitespace).reverse, ?_, fun ch hch => ?_⟩
  · rw [rtrim_eq, ← List.reverse_append, List.takeWhile_append_dropWhile, List.reverse_reverse]
  · exact List.all_eq_true.1 List.all_takeWhile ch (List.mem_reverse.1 hch)

theorem isWhitespace_getLast_rtrim {l : List Byte} {ch : Byte} (h : (rtrim l).getLast? = some ch) :
    isWhitespace ch = false := by
  rw [rtrim_eq, List.getLast?_reverse] at h
  have hnot := List.head?_dropWhile_not isWhitespace l.reverse
  rw [h] at hnot
  simpa using hnot

theorem rtrim_append_singleton {ch : Byte} (h : isWhitespace ch = true) (l : List Byte) :
    rtrim (l ++ [ch]) = rtrim l := by
  rw [rtrim_eq, List.reverse_append, List.reverse_singleton, List.singleton_append, List.dropWhile_cons_of_pos h,
    rtrim_eq]

/-- A whitespace character at the end of a line is no part of its run. -/
theorem runField_append_singleton {ch : Byte} (h : isWhitespace ch = true) (line : Line) :
    runField (line ++ [ch]) = runField line := by
  rw [runField, runField, List.drop_append]
  cases 2 + Config.addrDigits + 1 - line.length with
  | zero => exact rtrim_append_singleton h _
  | succ k => rw [List.drop_succ_cons, List.drop_nil, List.append_nil]

theorem runField_short {line : Line} (h : line.length ≤ 8) : runField line = [] := by
  have hdrop : line.drop (2 + Config.addrDigits + 1) = [] := List.drop_eq_nil_of_le h
  rw [runField, hdrop, rtrim]

/-! ### Cutting a file (R87) -/

/-- The first line of a file, up to its line feed. -/
theorem splitLines_line {l : Line} (h : Line.wf l = true) (rest : List Byte) :
    splitLines (l ++ lineFeed :: rest) = l :: splitLines rest := by
  induction l with
  | nil => rw [List.nil_append, splitLines, if_pos rfl]
  | cons ch l ih =>
    obtain ⟨hch, hl⟩ := Line.wf_cons.1 h
    rw [List.cons_append, splitLines, if_neg hch, ih hl]

theorem splitLines_lines {lines : List Line} (h : ∀ l ∈ lines, Line.wf l = true) (rest : List Byte) :
    splitLines ((lines.flatMap fun l => l ++ [lineFeed]) ++ rest) = lines ++ splitLines rest := by
  induction lines with
  | nil => rfl
  | cons l lines ih =>
    obtain ⟨hl, hlines⟩ := List.forall_mem_cons.1 h
    rw [List.flatMap_cons, List.append_assoc, List.append_assoc, List.singleton_append, splitLines_line hl, ih hlines,
      List.cons_append]

/-- Characters without a line feed are one line. -/
theorem splitLines_last {l : Line} (h : Line.wf l = true) (hne : l ≠ []) : splitLines l = [l] := by
  induction l with
  | nil => exact absurd rfl hne
  | cons ch l ih =>
    obtain ⟨hch, hl⟩ := Line.wf_cons.1 h
    rw [splitLines, if_neg hch]
    cases l with
    | nil => rfl
    | cons c cs => rw [ih hl (by simp)]

/-! ### A line leaves the parse open (R87, R116) -/

theorem patch_ne_valid {s : State} (h : s.ldr ≠ .valid) (line : Line) : (patch line s).ldr ≠ .valid := by
  unfold patch
  split
  · simp
  · dsimp only
    split
    · simp
    · exact h

theorem takeLine_ne_valid {s : State} (h : s.ldr ≠ .valid) (line : Line) : (takeLine line s).ldr ≠ .valid := by
  unfold takeLine
  split
  · exact h
  · split
    · exact patch_ne_valid (by simp) line
    · simp

theorem exec_ldLine_ne_valid {line : Line} {s t : State} (hv : s.ldr ≠ .valid) (h : exec (.ldLine line) s = .next t) :
    t.ldr ≠ .valid := by
  obtain ⟨why, -, rfl⟩ | ⟨-, -, rfl⟩ | ⟨-, hi, -⟩ := exec_next h
  · exact hv
  · exact takeLine_ne_valid hv line
  · cases hi

end Sys2Proof.Machine

namespace Sys2Proof.Proofs

open Sys2Proof.Machine

/-- Settles O17: what is cut off is the whitespace at the end, and what is left ends before it. -/
theorem runLosesTrailingWhitespaceOnly : Obligations.RunLosesTrailingWhitespaceOnly := by
  refine ⟨fun l => ⟨?_, fun ch hch hm => ?_⟩, fun line => ⟨rfl, runField_short⟩⟩
  · obtain ⟨ws, hl, hws⟩ := exists_rtrim_append l
    exact ⟨ws, hl, fun ch hch => isWhitespace_iff.1 (hws ch hch)⟩
  · have hw := isWhitespace_getLast_rtrim hch
    rw [isWhitespace_iff.2 hm] at hw
    cases hw

/-- Settles O18: a file of lines, a line that ends with a carriage return, and the status after `LD.LINE`. -/
theorem filesAreCutAtLineFeeds : Obligations.FilesAreCutAtLineFeeds := by
  refine ⟨fun lines last hlines hlast => ⟨?_, fun hne => ?_⟩, fun line hline => ⟨?_, ?_⟩,
    fun line s t hv h => exec_ldLine_ne_valid hv h⟩
  · have hcut := splitLines_lines hlines []
    rwa [List.append_nil, splitLines, List.append_nil] at hcut
  · have hcut := splitLines_lines hlines last
    rwa [splitLines_last hlast hne] at hcut
  · have hcr : Line.wf (line ++ [0x0D#8]) = true := by
      rw [Line.wf, List.all_append, ← Line.wf, hline]
      rfl
    have hcut := splitLines_line hcr []
    rwa [List.append_assoc] at hcut
  · exact runField_append_singleton (by decide) line

end Sys2Proof.Proofs
end

section
/-! SUPPORT. The frames of a run. A reader between two strobes is `Reader.atRest`; the bits and the strobe of a written
frame add that frame and leave it at rest, so the frames of the list are read off step by step. -/

namespace Sys2Proof.Safety

open Sys2Proof.Machine

/-! ### The reader (R92, R93) -/

/-- The events seen in order. -/
def Reader.sees (r : Reader) (es : List Event) : Reader := es.foldl Reader.see r

@[simp] theorem Reader.sees_nil (r : Reader) : r.sees [] = r := rfl

theorem Reader.sees_append (r : Reader) (a b : List Event) : r.sees (a ++ b) = (r.sees a).sees b :=
  List.foldl_append ..

theorem framesOf_eq (es : List Event) : framesOf es = (Reader.start.sees es).frames := rfl

/-- The reader between two strobes: STROBE is high, and no bit has been shifted since the last. -/
def Reader.atRest (data erase accessOlmc : Bool) (frames : List Frame) : Reader :=
  { data := data, erase := erase, accessOlmc := accessOlmc, strobe := true, inBit := false, inPulse := false,
    bits := [], width := 0, frames := frames }

/-- Shifted bits are read in order, and the last is left on the shared pin. -/
theorem Reader.sees_bitsEvents {r : Reader} (h : r.inBit = false) (bs : Bits) :
    r.sees (bitsEvents bs) = { r with data := bs.getLastD r.data, bits := r.bits ++ bs } := by
  induction bs generalizing r with
  | nil => simp [bitsEvents]
  | cons b bs ih =>
    have hbit : r.sees (bitEvents b) = { r with data := b, bits := r.bits ++ [b] } := by
      cases r
      cases h
      rfl
    have hcons : bitsEvents (b :: bs) = bitEvents b ++ bitsEvents bs := rfl
    have hrest := ih (r := { r with data := b, bits := r.bits ++ [b] }) h
    rw [hcons, Reader.sees_append, hbit, hrest, List.getLastD_cons]
    simp

/-- A written frame: its bits, then the strobe that closes it. -/
theorem Reader.atRest_sees_frame (d e a : Bool) (fs : List Frame) (bs : Bits) :
    (Reader.atRest d e a fs).sees (bitsEvents bs ++ commitEvents) =
      Reader.atRest (bs.getLastD d) e a (fs ++ [{ erase := e, accessOlmc := a, bits := bs, width := 5000 }]) := by
  rw [Reader.sees_append, Reader.sees_bitsEvents rfl]
  rfl

theorem Reader.atRest_sees_row (d : Bool) (fs : List Frame) (r : Config.RowAddr) (data : Bits) :
    ∃ d', (Reader.atRest d false false fs).sees (rowEvents r data) =
      Reader.atRest d' false false
        (fs ++ [{ erase := false, accessOlmc := false, bits := data ++ addressOrder r, width := 5000 }]) := by
  rw [rowEvents, ← bitsEvents_append]
  exact ⟨_, Reader.atRest_sees_frame ..⟩

theorem Reader.atRest_sees_rows (d : Bool) (fs : List Frame) (r : Nat) (rows : List Bits) :
    ∃ d', (Reader.atRest d false false fs).sees (rowsEvents r rows) =
      Reader.atRest d' false false (fs ++ rowFrames r rows) := by
  induction rows generalizing d fs r with
  | nil => exact ⟨d, by simp [rowsEvents, rowFrames]⟩
  | cons data rows ih =>
    obtain ⟨d₁, hrow⟩ := Reader.atRest_sees_row d fs (BitVec.ofNat 6 r) data
    obtain ⟨d₂, hrows⟩ := ih d₁ _ (r + 1)
    refine ⟨d₂, ?_⟩
    rw [rowsEvents, Reader.sees_append, hrow, hrows, rowFrames, ← List.append_cons]

/-! ### The frames of the list (R94 to R97, R105) -/

/-- The erase frame: no bit has been shifted before it (R96). -/
def eraseFrame : Frame := { erase := true, accessOlmc := false, bits := [], width := 30000 }

/-- The OLMC frame (R95). -/
def olmcFrame (olmc : Bits) : Frame := { erase := false, accessOlmc := true, bits := olmc, width := 5000 }

/-- The power-down-disable row's frame (R97). -/
def powerDownFrame : Frame :=
  { erase := false, accessOlmc := false, bits := List.replicate 132 false ++ [true, true, true, false, true, true],
    width := 5000 }

theorem Reader.start_sees_erase :
    Reader.start.sees (s1Events ++ s2Events ++ s3Events) = Reader.atRest true false false [eraseFrame] := rfl

theorem Reader.atRest_sees_s5 (d : Bool) (fs : List Frame) (olmc : Bits) :
    ∃ d', (Reader.atRest d false false fs).sees (s5Events olmc) =
      Reader.atRest d' false false (fs ++ [olmcFrame olmc]) := by
  have haccess : (Reader.atRest d false false fs).sees [.wr .accessOlmc true] = Reader.atRest d false true fs := rfl
  rw [s5Events, List.append_assoc _ (bitsEvents olmc), Reader.sees_append, Reader.sees_append, haccess,
    Reader.atRest_sees_frame]
  exact ⟨_, rfl⟩

theorem Reader.atRest_sees_s6 (d : Bool) (fs : List Frame) :
    ∃ d', (Reader.atRest d false false fs).sees s6Events = Reader.atRest d' false false (fs ++ [powerDownFrame]) := by
  rw [s6Events, ← bitsEvents_append]
  exact ⟨_, Reader.atRest_sees_frame ..⟩

/-- The last two steps close no frame: STROBE is written low once and not high again (R163, R164). -/
theorem Reader.atRest_sees_exit (d : Bool) (fs : List Frame) :
    ((Reader.atRest d false false fs).sees (s7Events ++ s8Events)).frames = fs := rfl

theorem framesOf_programEvents (rows : List Bits) (olmc : Bits) :
    framesOf (programEvents rows olmc) = [eraseFrame] ++ rowFrames 0 rows ++ [olmcFrame olmc, powerDownFrame] := by
  obtain ⟨d₁, hrows⟩ := Reader.atRest_sees_rows true [eraseFrame] 0 rows
  obtain ⟨d₂, holmc⟩ := Reader.atRest_sees_s5 d₁ ([eraseFrame] ++ rowFrames 0 rows) olmc
  obtain ⟨d₃, hpd⟩ := Reader.atRest_sees_s6 d₂ ([eraseFrame] ++ rowFrames 0 rows ++ [olmcFrame olmc])
  rw [framesOf_eq, programEvents, List.append_assoc _ s7Events, Reader.sees_append .start, Reader.sees_append .start,
    Reader.sees_append .start, Reader.sees_append .start, Reader.start_sees_erase, hrows, holmc, hpd,
    Reader.atRest_sees_exit, ← List.append_cons]

/-- A reader does not look at the bits that reads return. -/
theorem Reader.sees_answeredFrom (r : Reader) (n : Nat) (es : List Event) : r.sees (answeredFrom n es) = r.sees es := by
  induction es generalizing r n with
  | nil => rfl
  | cons e es ih => cases e <;> exact ih ..

theorem framesOf_answeredFrom (n : Nat) (es : List Event) : framesOf (answeredFrom n es) = framesOf es :=
  congrArg Reader.frames (Reader.sees_answeredFrom ..)

end Sys2Proof.Safety

namespace Sys2Proof.Machine

open Sys2Proof.Safety

/-! ### What a run adds to the trace -/

theorem programEvents_length {rows : List Bits} {olmc : Bits} (hr : ∀ r ∈ rows, r.length = 132)
    (ho : olmc.length = 20) : (programEvents rows olmc).length = 664 + 556 * rows.length := by
  simp only [programEvents, List.length_append, rowsEvents_length hr, s5Events_length ho, s6Events_length, s1Events,
    s2Events, s3Events, s7Events, s8Events, List.length_cons, List.length_nil]
  omega

/-- An admitted `PROGRAM` whose calls return adds the list of R166 to the trace, each read with its answer. -/
theorem exec_program_trace {rows : List Bits} {olmc : Bits} {s : State} (ht : s.timing = Config.params.timing)
    (ha : whenProgram rows olmc s = none) (hc : CallsReturn (664 + 556 * rows.length) s) :
    ∃ t, exec (.program rows olmc) s = .next t ∧
      t.trace = s.trace ++ answeredFrom s.draws (programEvents rows olmc) := by
  obtain ⟨-, -, -, -, -, hr, ho⟩ := whenProgram_none ha
  have hlen := programEvents_length hr ho
  refine ⟨_, exec_events (.program rows olmc) s _ _ ha rfl (eventsOf_actsOf _ s ht) hlen hc, ?_⟩
  obtain ⟨q, r, c, u, hp⟩ := placed_writes (actsOf (.program rows olmc) s) (begins (.program rows olmc) s)
  rw [finishes_trace, afterEvents_trace, hp]
  rfl

end Sys2Proof.Machine

namespace Sys2Proof.Safety

/-! ### Command words (R101) -/

/-- The word of a frame of six bits or more: its low bits are the last six shifted, the first of them the highest. -/
theorem Frame.commandWord_of_last_six {f : Frame} {bs last : Bits} (hb : f.bits = bs ++ last) (hl : last.length = 6) :
    f.commandWord = BitVec.ofNat 8
      (last.foldl (fun n b => 2 * n + b.toNat) 0 + 64 * f.accessOlmc.toNat + 128 * f.erase.toNat) := by
  have hdrop : f.bits.drop (f.bits.length - 6) = last := by
    rw [hb, List.length_append, hl, Nat.add_sub_cancel, List.drop_left]
  rw [Frame.commandWord, hdrop]

/-- The value of a row address's bits, bit 5 first (R98). -/
theorem foldl_addressOrder (a : Config.RowAddr) :
    (addressOrder a).foldl (fun n b => 2 * n + b.toNat) 0 = a.toNat := by
  revert a; decide

theorem map_commandWord_rowFrames {r : Nat} {rows : List Bits} (h : r + rows.length ≤ 64) :
    (rowFrames r rows).map Frame.commandWord = (List.range' r rows.length).map (BitVec.ofNat 8) := by
  induction rows generalizing r with
  | nil => rfl
  | cons data rows ih =>
    rw [List.length_cons] at h
    have hr : (BitVec.ofNat 6 r).toNat = r := by rw [BitVec.toNat_ofNat]; omega
    rw [rowFrames, List.map_cons, ih (by omega), Frame.commandWord_of_last_six rfl rfl, foldl_addressOrder, hr,
      List.length_cons, List.range'_succ, List.map_cons]
    rfl

theorem commandWord_powerDownFrame : powerDownFrame.commandWord = 0x3B#8 := by
  rw [Frame.commandWord_of_last_six rfl rfl]
  rfl

/-- The OLMC frame's word: `01`, then the last six bits of the string. -/
theorem commandWord_olmcFrame {olmc : Bits} (h : olmc.length = 20) :
    (olmcFrame olmc).commandWord &&& 0xC0#8 = 0x40#8 ∧
      ∀ k, k < 6 → (olmcFrame olmc).commandWord.getLsbD (5 - k) = olmc.getD (14 + k) false := by
  have hlen : (olmc.drop 14).length = 6 := by rw [List.length_drop, h]
  rw [Frame.commandWord_of_last_six (f := olmcFrame olmc) (List.take_append_drop 14 olmc).symm hlen]
  have hget (k : Nat) : olmc.getD (14 + k) false = (olmc.drop 14).getD k false := by simp
  simp only [hget]
  match olmc.drop 14, hlen with
  | [b0, b1, b2, b3, b4, b5], _ =>
    simp only [olmcFrame]
    revert b0 b1 b2 b3 b4 b5
    decide

end Sys2Proof.Safety

namespace Sys2Proof.Proofs

open Sys2Proof.Machine Sys2Proof.Safety

/-- Settles O48: the list is read step by step, and the bits that reads return are not looked at. -/
theorem programEmitsItsFrames : Obligations.ProgramEmitsItsFrames := by
  intro rows olmc
  refine ⟨framesOf_programEvents rows olmc, fun s ht ha hc => ?_⟩
  obtain ⟨t, hexec, htrace⟩ := exec_program_trace ht ha hc
  exact ⟨t, _, hexec, htrace, framesOf_answeredFrom ..⟩

/-- Settles O49: the word of each frame of O48's list. -/
theorem commandWordsOfARun : Obligations.CommandWordsOfARun := by
  intro rows olmc hr ho
  obtain ⟨hmask, hbits⟩ := commandWord_olmcFrame ho
  refine ⟨eraseFrame.commandWord, (olmcFrame olmc).commandWord, by decide, hmask, hbits, ?_⟩
  have hrows : (rowFrames 0 rows).map Frame.commandWord = (List.range rows.length).map (BitVec.ofNat 8) := by
    rw [map_commandWord_rowFrames (by omega), List.range_eq_range']
  simp only [framesOf_programEvents, List.map_append, List.map_cons, List.map_nil, hrows, commandWord_powerDownFrame]

end Sys2Proof.Proofs
end

section
/-! SUPPORT. The loader by operation. What each admission of the loader asks for, in the statements' terms; what taking a
line, the end of the file and a read failure leave; the cells the two views read; and a file taken whole as its operations
one after another. -/

namespace Sys2Proof.Machine

open Sys2Proof.Safety

/-! ### Where a loader operation is admitted (R111, R117, R118, D24, D26) -/

theorem turnedAway_of_not_admitted {i : Instr} {s : State} (h : admission i s ≠ none) : TurnedAway i s :=
  Classical.byContradiction fun hn => h (admission_none hn)

/-- Outside the sequence every operation is turned away unless `seq` is `Idle` (D26, log 13). -/
theorem turnedAway_of_not_idle {i : Instr} {s : State} (ho : ownerOf i = .command) (h : s.seq ≠ .idle) :
    TurnedAway i s :=
  turnedAway_of_not_admitted (mt (admission_command_idle ho) h)

theorem isRecord_iff {m : Config.Marker} {line : Line} : isRecord m line = true ↔ line.take 2 = [m.first, m.second] :=
  decide_eq_true_iff

/-- A line of one character or none is no record (R82). -/
theorem two_le_length_of_isRecord {m : Config.Marker} {line : Line} (h : isRecord m line = true) : 2 ≤ line.length := by
  have hlen : min 2 line.length = 2 := by rw [← List.length_take, isRecord_iff.1 h]; rfl
  omega

theorem admission_ldSkip {line : Line} {s : State} :
    admission (.ldSkip line) s = none ↔
      s.seq = .idle ∧ s.ldr ≠ .valid ∧ line.take 2 ≠ [s.marker.first, s.marker.second] := by
  simp [admission, withOperand_none, whenLineTaken_none, isRecord, and_assoc]

theorem admission_ldRow {r : Nat} {s : State} :
    admission (.ldRow r) s = none ↔ s.seq = .idle ∧ s.ldr = .valid ∧ r ≤ 43 := by
  simp [admission, withOperand_none, whenReadable_none, Nat.lt_succ_iff, and_assoc]

/-! ### The status (R23) -/

/-- A parse that is still open, as a line finds it: not complete and not faulted. -/
theorem Ldr.open_iff {l : Ldr} : (l = .empty ∨ l = .loading) ↔ l ≠ .valid ∧ l.faulted = false := by
  cases l <;> simp [Ldr.faulted]

theorem Ldr.faulted_eq_false {l : Ldr} (h : ∀ f, l ≠ .fault f) : l.faulted = false := by
  cases l with
  | fault f => exact absurd rfl (h f)
  | _ => rfl

theorem Ldr.atEof_open {l : Ldr} (h : l = .empty ∨ l = .loading) : l.atEof = .valid := by
  obtain rfl | rfl := h <;> rfl

theorem Ldr.atEof_closed {l : Ldr} (he : l ≠ .empty) (hl : l ≠ .loading) : l.atEof = l := by
  cases l with
  | empty => exact absurd rfl he
  | loading => exact absurd rfl hl
  | valid | fault => rfl

/-- After the end of the file a parse is valid or faulted (R116). -/
theorem Ldr.atEof_cases (l : Ldr) : l.atEof = .valid ∨ ∃ f, l.atEof = .fault f := by
  cases l with
  | fault f => exact .inr ⟨f, rfl⟩
  | _ => exact .inl rfl

/-! ### Lines, the end of the file, a read failure -/

theorem takeLine_record {line : Line} {s : State} (hf : s.ldr.faulted = false) (hr : isRecord s.marker line = true) :
    takeLine line s = patch line (countLine s) := by
  simp [takeLine, hf, hr]

theorem takeLine_notRecord {line : Line} {s : State} (hf : s.ldr.faulted = false)
    (hr : isRecord s.marker line = false) : takeLine line s = answer .nothing (countLine s) := by
  simp [takeLine, hf, hr]

theorem takeEof_open {s : State} (h : s.ldr = .empty ∨ s.ldr = .loading) :
    takeEof s = answer .nothing { s with ldr := .valid } := by
  rw [takeEof, Ldr.atEof_open h]

/-- Past the end of the file, and after a fault, `LD.EOF` leaves the status (R116, log 14). -/
theorem takeEof_closed {s : State} (he : s.ldr ≠ .empty) (hl : s.ldr ≠ .loading) : takeEof s = answer .nothing s := by
  rw [takeEof, Ldr.atEof_closed he hl]

theorem takeIoError_unfaulted {s : State} (h : s.ldr.faulted = false) :
    takeIoError s = takeLoaderFault .ioError s := by
  simp [takeIoError, h]

/-- A faulted parse whose trace drives no line high has failed (R168). -/
theorem loaderEnd_fault {t : State} {f : LoaderFault} (h : t.ldr = .fault f) (hd : t.trace.any drivesHigh = false) :
    loaderEnd t = some (.loaderFault f) := by
  simp [loaderEnd, h, hd]

theorem exec_ldEof_idle {s : State} (h : s.seq = .idle) : exec .ldEof s = .next (takeEof s) :=
  exec_loader (i := .ldEof) (whenIdle_none.2 h) rfl

theorem exec_ldIoErr_idle {s : State} (h : s.seq = .idle) : exec .ldIoErr s = .next (takeIoError s) :=
  exec_loader (i := .ldIoErr) (whenIdle_none.2 h) rfl

theorem exec_ldClear_idle {s : State} (h : s.seq = .idle) : exec .ldClear s = .next (clearLoader s) :=
  exec_loader (i := .ldClear) (whenIdle_none.2 h) rfl

theorem exec_ldLine_taken {s : State} (hq : s.seq = .idle) (hv : s.ldr ≠ .valid) (line : Line) :
    exec (.ldLine line) s = .next (takeLine line s) :=
  exec_loader (i := .ldLine line) (whenLineTaken_none.2 ⟨hq, hv⟩) rfl

/-! ### The views (R24, R25) -/

@[simp] theorem matrixRow_length (m : List Host.Cell) (r : Nat) : (matrixRow m r).length = 132 := by
  simp [matrixRow]

theorem matrixRow_getElem? (m : List Host.Cell) (r : Nat) {c : Nat} (h : c < 132) :
    (matrixRow m r)[c]? = some (fuse m (c * 44 + r)) := by
  simp [matrixRow, h]

/-- Port by port with the higher cell first is cell by cell with each pair swapped. -/
theorem olmcString_eq (m : List Host.Cell) : olmcString m = (List.range 20).map fun k => fuse m (5808 + (k ^^^ 1)) := rfl

/-! ### A file taken whole (R119) -/

theorem execAll_cons {i : Instr} {s t : State} (h : exec i s = .next t) (is : List Instr) :
    execAll (i :: is) s = execAll is t := by
  simp [execAll, h]

theorem takeLines_seq (lines : List Line) (s : State) : (lines.foldl (fun s l => takeLine l s) s).seq = s.seq := by
  induction lines generalizing s with
  | nil => rfl
  | cons l ls ih => rw [List.foldl_cons, ih, takeLine_seq]

/-- Lines presented to an open parse are all taken: none of them completes the array. -/
theorem execAll_ldLines {s : State} (hq : s.seq = .idle) (hv : s.ldr ≠ .valid) (lines : List Line) (is : List Instr) :
    execAll (lines.map .ldLine ++ is) s = execAll is (lines.foldl (fun s l => takeLine l s) s) := by
  induction lines generalizing s with
  | nil => rfl
  | cons l ls ih =>
    rw [List.map_cons, List.cons_append, execAll_cons (exec_ldLine_taken hq hv l),
      ih (by rw [takeLine_seq, hq]) (takeLine_ne_valid hv l), List.foldl_cons]

theorem execAll_parse {s : State} (h : s.seq = .idle) (lines : List Line) (ioError : Bool) :
    execAll ([.ldClear] ++ lines.map .ldLine ++ (if ioError then [.ldIoErr] else []) ++ [.ldEof]) s =
      some (parseFile lines ioError s) := by
  have hclear : (clearLoader s).ldr ≠ .valid := by simp
  have hlines : (lines.foldl (fun s l => takeLine l s) (clearLoader s)).seq = .idle := by
    rw [takeLines_seq, clearLoader_seq, h]
  rw [List.append_assoc, List.append_assoc, List.singleton_append, execAll_cons (exec_ldClear_idle h),
    execAll_ldLines ((clearLoader_seq s).trans h) hclear]
  cases ioError with
  | false => exact execAll_cons (exec_ldEof_idle hlines) []
  | true =>
    have hend := execAll_cons (exec_ldEof_idle ((takeIoError_seq _).trans hlines)) []
    exact (execAll_cons (exec_ldIoErr_idle hlines) _).trans hend

/-- A file taken whole leaves the parse valid or faulted: its last operation is `LD.EOF`. -/
theorem parseFile_ldr (lines : List Line) (ioError : Bool) (s : State) :
    (parseFile lines ioError s).ldr = .valid ∨ ∃ f, (parseFile lines ioError s).ldr = .fault f :=
  Ldr.atEof_cases _

theorem parseResult_valid {s : State} (h : s.ldr = .valid) :
    parseResult s = .views (matrixRows s.fa) (olmcString s.fa) := by
  simp [parseResult, h]

theorem parseResult_fault {s : State} {f : LoaderFault} (h : s.ldr = .fault f) : parseResult s = .loaderFault f := by
  simp [parseResult, h]

end Sys2Proof.Machine

namespace Sys2Proof.Proofs

open Sys2Proof.Machine Sys2Proof.Safety

/-- Settles O24: the operations are each admitted and together take the file whole, which ends valid or faulted. -/
theorem parseIsItsOperations : Obligations.ParseIsItsOperations := by
  refine fun lines ioError s => ⟨fun hq => ⟨_, execAll_parse hq lines ioError, ?_⟩,
    fun hq => turnedAway_of_not_idle rfl hq⟩
  obtain hv | ⟨f, hf⟩ := parseFile_ldr lines ioError s
  · refine .inl ⟨hv, ?_⟩
    rw [exec_parse_idle hq, parseResult_valid hv]
    rfl
  · refine .inr ⟨f, hf, ?_⟩
    rw [exec_parse_idle hq, parseResult_fault hf]
    rfl

/-- Settles O11: the empty list of cells reads 0 everywhere. -/
theorem ldClearZeroesTheArray : Obligations.LdClearZeroesTheArray := fun _ =>
  ⟨fun hq => ⟨_, exec_ldClear_idle hq, fuse_nil, rfl⟩,
    fun hq => turnedAway_of_not_idle rfl hq⟩

/-- Settles O12: in the counted state `LD.PATCH` is admitted, and it patches as the line's own taking does. -/
theorem ldLineTakesOneLine : Obligations.LdLineTakesOneLine := by
  refine fun line s => ⟨fun h => ?_, fun hq ⟨f, hf⟩ => ?_, fun hq hl => ?_⟩
  · refine turnedAway_of_not_admitted fun ha => ?_
    obtain ⟨hq, hv⟩ := whenLineTaken_none.1 ha
    exact h.elim (· hq) hv
  · rw [exec_ldLine_taken hq (by simp [hf]), takeLine_faulted hf]
    rfl
  · obtain ⟨hv, hf⟩ := Ldr.open_iff.1 hl
    rw [exec_ldLine_taken hq hv]
    refine ⟨fun ⟨_, hm⟩ => ?_, fun hm => ?_⟩
    · have hpatch : exec (.ldPatch line) (countLine s) = .next (takePatch line (countLine s)) :=
        exec_loader (admission_ldPatch.2 ⟨hq, by simp, hm⟩) rfl
      rw [takeLine_record hf (isRecord_iff.2 hm)]
      exact hpatch.symm
    · have hm' : isRecord s.marker line = false :=
        Bool.eq_false_iff.2 fun hr => hm ⟨two_le_length_of_isRecord hr, isRecord_iff.1 hr⟩
      rw [takeLine_notRecord hf hm']
      rfl

/-- Settles O16: the admission asks for a record in an `Idle`, incomplete parse, and a fault drops what it admits. -/
theorem ldPatchOutsideItsStates : Obligations.LdPatchOutsideItsStates := by
  refine fun line s => ⟨fun h => ?_, fun hq ⟨f, hf⟩ hm => ?_⟩
  · refine turnedAway_of_not_admitted fun ha => ?_
    obtain ⟨hq, hv, hm⟩ := admission_ldPatch.1 ha
    exact h.elim (· hq) (·.elim hv (· hm))
  · rw [exec_loader (admission_ldPatch.2 ⟨hq, by simp [hf], hm⟩) rfl, loaderUpdate, takePatch_faulted hf]
    rfl

/-- Settles O19: an admitted `LD.SKIP` writes the answer alone. -/
theorem ldSkipChangesNothing : Obligations.LdSkipChangesNothing := by
  refine fun line s => ⟨fun hq hv hm => exec_loader (admission_ldSkip.2 ⟨hq, hv, hm⟩) rfl,
    fun h => turnedAway_of_not_admitted fun ha => ?_⟩
  obtain ⟨hq, hv, hm⟩ := admission_ldSkip.1 ha
  exact h.elim (· hq) (·.elim hv hm)

/-- Settles O20: the status moves only where the parse is open, and a failed parse is the first end of its run. -/
theorem ldEofValidates : Obligations.LdEofValidates := by
  refine fun s => ⟨fun hq hl => ?_, fun hq he hl => ?_, fun f hq hf hd is => ?_,
    fun hq => turnedAway_of_not_idle rfl hq⟩
  · rw [exec_ldEof_idle hq, takeEof_open hl]
    rfl
  · rw [exec_ldEof_idle hq, takeEof_closed he hl]
    rfl
  · have hldr : (takeEof s).ldr = .fault f := by rw [takeEof_ldr, hf, Ldr.atEof]
    exact runEnd_first (exec_ldEof_idle hq) (loaderEnd_fault hldr hd) is

/-- Settles O21: the first fault stays. -/
theorem ldIoErrFaults : Obligations.LdIoErrFaults := by
  refine fun s => ⟨fun hq hn => ?_, fun hq ⟨f, hf⟩ => ?_,
    fun hq => turnedAway_of_not_idle rfl hq⟩
  · rw [exec_ldIoErr_idle hq, takeIoError_unfaulted (Ldr.faulted_eq_false hn)]
    rfl
  · rw [exec_ldIoErr_idle hq, takeIoError_faulted hf]
    rfl

/-- Settles O22: the answer is the row's view of the array. -/
theorem ldRowReadsItsCells : Obligations.LdRowReadsItsCells := by
  refine fun r s => ⟨fun hq hv hr => ⟨matrixRow s.fa r, exec_loader (admission_ldRow.2 ⟨hq, hv, hr⟩) rfl, matrixRow_length ..,
      fun _ hc => matrixRow_getElem? _ _ hc⟩,
    fun h => turnedAway_of_not_admitted fun ha => ?_⟩
  obtain ⟨hq, hv, hr⟩ := admission_ldRow.1 ha
  exact h.elim (· hq) (·.elim (· hv) (Nat.not_lt.2 hr))

/-- Settles O23: the answer is the OLMC view of the array, whose pairs are swapped. -/
theorem ldOlmcReadsSwappedPairs : Obligations.LdOlmcReadsSwappedPairs := by
  refine fun s => ⟨fun hq hv => ⟨olmcString s.fa, exec_loader (i := .ldOlmc) (whenReadable_none.2 ⟨hq, hv⟩) rfl, rfl,
      fun k hk => by simp [olmcString_eq, hk]⟩,
    fun h => turnedAway_of_not_admitted fun ha => ?_⟩
  obtain ⟨hq, hv⟩ := whenReadable_none.1 ha
  exact h.elim (· hq) (· hv)

end Sys2Proof.Proofs
end

section
/-! SUPPORT. The primitives. Where each is admitted, the state it leaves where its calls return, as its events and its
register writes, and what those events make of the pins. -/

namespace Sys2Proof.Machine

open Sys2Proof.Safety

/-! ### Where a primitive with an operand range is admitted (R131, R135, D21, log 13) -/

theorem admission_setl {role : Role} {v : Bool} {s : State} :
    admission (.setl role v) s = none ↔ s.seq = .idle ∧ role ≠ .dataOut := by
  simp [admission, withOperand_none, whenIdle_none]

theorem admission_shiftRow {data : Bits} {a : BitVec 6} {s : State} :
    admission (.shiftRow data a) s = none ↔ s.seq = .idle ∧ data.length = 132 := by
  simp [admission, withOperand_none, whenIdle_none]

/-! ### What each leaves -/

theorem exec_setup_idle {s : State} (hq : s.seq = .idle) (hc : CallsReturn 15 s) :
    exec .setup s =
      .next { afterEvents setupEvents { s with evIdx := 0 } with
        setupDone := true, reply := .nothing, turnedAway := none } :=
  exec_events .setup s setupEvents 15 (whenIdle_none.2 hq) rfl rfl rfl hc

/-- What a second `SETUP` finds, and leaves in its turn. -/
theorem setup_leaves {s t : State} (hq : s.seq = .idle) (hc : CallsReturn 15 s) (h : exec .setup s = .next t) :
    t.seq = .idle ∧ t.env = s.env.drop 15 ∧ t.setupDone = true ∧ t.pins = pinsAfter setupEvents s.pins ∧
      t.trace = s.trace ++ setupEvents := by
  rw [exec_setup_idle hq hc] at h
  cases h
  exact ⟨hq, rfl, rfl, rfl, rfl⟩

theorem exec_setl_idle {role : Role} {s : State} (hq : s.seq = .idle) (hr : role ≠ .dataOut) (hc : CallsReturn 1 s)
    (v : Bool) :
    exec (.setl role v) s =
      .next { afterEvents [.wr role v] { s with evIdx := 0 } with reply := .nothing, turnedAway := none } :=
  exec_events (.setl role v) s [.wr role v] 1 (admission_setl.2 ⟨hq, hr⟩) rfl rfl rfl hc

/-- Outside the sequence a wait returns on every move of the environment (R198, log 7). -/
theorem moveAt_command_wait (t : Nat) (s : State) : moveAt .command (.wait t) s = .ok := by
  unfold moveAt
  cases s.env.head? with
  | none => rfl
  | some m => cases m <;> rfl

theorem exec_wait_idle {s : State} (hq : s.seq = .idle) (t : Nat) :
    exec (.wait t) s =
      .next { afterEvents [.wait t] { s with evIdx := 0 } with reply := .nothing, turnedAway := none } := by
  have hrun : perform .command (waitActs t) { s with evIdx := 0 } =
      .through (afterEvents [.wait t] { s with evIdx := 0 }) := by
    rw [waitActs, perform, issue, moveAt_command_wait, returned_eq]
    rfl
  rw [exec_eq, admission, whenIdle_none.2 hq]
  simp only [admitted, issues, ownerOf, actsOf, begins, if_true, hrun]
  rfl

/-- One bit reads once and drives CLOCK twice (R92, R133). -/
theorem afterEvents_bitEvents (b : Bool) (s : State) :
    afterEvents (bitEvents b) s =
      { s with
        sample := Config.dataOutLevel s.draws
        draws := s.draws + 1
        trace := s.trace ++
          [.rd .dataOut (some (Config.dataOutLevel s.draws)), .wr .clock false, .wr .dataIn b, .wr .clock true]
        pins := ((s.pins.drive .clock false).drive .dataIn b).drive .clock true
        evIdx := s.evIdx + 4
        env := s.env.drop 4 } := by
  simp [afterEvents, bitEvents, answeredFrom, sampleAfter, pinEffect, List.countP_cons]

theorem exec_xbit_idle {s : State} (hq : s.seq = .idle) (hc : CallsReturn 4 s) (b : Bool) :
    exec (.xbit b) s =
      .next { afterEvents (bitEvents b) { s with evIdx := 0 } with
        ustep := 0#2, reply := .sampled (Config.dataOutLevel s.draws), turnedAway := none } := by
  rw [exec_events (.xbit b) s (bitEvents b) 4 (whenIdle_none.2 hq) rfl rfl rfl hc, actsOf, placed_xbitActs, finishes,
    begins, afterEvents_bitEvents, afterEvents_bitEvents]
  rfl

/-- A pulse of duration 0 has no wait (D28). -/
theorem exec_strobe_zero {s : State} (hq : s.seq = .idle) (hc : CallsReturn 2 s) :
    exec (.strobe 0) s =
      .next { afterEvents [.wr .strobe false, .wr .strobe true] { s with evIdx := 0 } with
        reply := .nothing, turnedAway := none } :=
  exec_events (.strobe 0) s [.wr .strobe false, .wr .strobe true] 2 (whenIdle_none.2 hq) rfl rfl rfl hc

theorem strobeActs_pos {d : Nat} (hd : 0 < d) :
    strobeActs d = [.call (.wr .strobe false), .call (.wait d), .call (.wr .strobe true)] := by
  rw [strobeActs, if_pos hd]
  rfl

theorem exec_strobe_pos {d : Nat} {s : State} (hq : s.seq = .idle) (hd : 0 < d) (hc : CallsReturn 3 s) :
    exec (.strobe d) s =
      .next { afterEvents [.wr .strobe false, .wait d, .wr .strobe true] { s with evIdx := 0 } with
        reply := .nothing, turnedAway := none } := by
  rw [exec_events (.strobe d) s [.wr .strobe false, .wait d, .wr .strobe true] 3 (whenIdle_none.2 hq) rfl
    (by rw [actsOf, strobeActs_pos hd]; rfl) rfl hc, actsOf, strobeActs_pos hd]
  rfl

theorem shiftRowEvents_length {data : Bits} (h : data.length = 132) (a : BitVec 6) :
    (bitsEvents data ++ bitsEvents (addressOrder a)).length = 552 := by
  simp [h, addressOrder]

theorem exec_shiftRow_idle {data : Bits} {s : State} (hq : s.seq = .idle) (hd : data.length = 132)
    (hc : CallsReturn 552 s) (a : BitVec 6) :
    exec (.shiftRow data a) s =
      .next { afterEvents (bitsEvents data ++ bitsEvents (addressOrder a)) { s with evIdx := 0 } with
        row := a, col := 137#8, ustep := 0#2, reply := .nothing, turnedAway := none } := by
  rw [exec_events (.shiftRow data a) s _ 552 (admission_shiftRow.2 ⟨hq, hd⟩) rfl (eventsOf_shiftRowActs data a)
    (shiftRowEvents_length hd a) hc, actsOf, placed_shiftRowActs]
  rfl

/-! ### The pins after it -/

/-- `SETUP` leaves six low outputs and one input, whatever the pins were; DATA_OUT's level alone is not its own (R130). -/
theorem pinsAfter_setupEvents (p : Pins) :
    pinsAfter setupEvents p =
      { program := ⟨.output, false⟩, writeDataIn := ⟨.output, false⟩, erase := ⟨.output, false⟩,
        accessOlmc := ⟨.output, false⟩, clock := ⟨.output, false⟩, dataOut := { p.dataOut with dirn := .input },
        strobe := ⟨.output, false⟩ } := rfl

theorem pinsAfter_setupEvents_idem (p : Pins) :
    pinsAfter setupEvents (pinsAfter setupEvents p) = pinsAfter setupEvents p := by
  rw [pinsAfter_setupEvents, pinsAfter_setupEvents]

theorem levels_after_setupEvents (p : Pins) :
    Levels (pinsAfter setupEvents p) false false false false false false :=
  ⟨rfl, rfl, rfl, rfl, rfl, rfl, rfl⟩

@[simp] theorem Pins.level_drive_same (p : Pins) (role : Role) (v : Bool) : (p.drive role v).level role = v := by
  rw [Pins.level_drive, if_pos rfl]

/-- A write leaves every other pin (R31). -/
theorem Pins.get_drive_other (p : Pins) {role : Role} {k : Pin} (h : k ≠ pinOf role) (v : Bool) :
    (p.drive role v).get k = p.get k :=
  Pins.get_set_other p h _

/-- A row frame leaves its address bit 0, the last bit shifted, on the shared pin, and CLOCK high (R56). -/
theorem pinsAfter_shiftRowEvents (data : Bits) (a : BitVec 6) (p : Pins) :
    pinsAfter (bitsEvents data ++ bitsEvents (addressOrder a)) p =
      ((pinsAfter (bitsEvents data) p).drive .dataIn (a.getLsbD 0)).drive .clock true := by
  rw [pinsAfter_append, pinsAfter_bitsEvents (addressOrder a) (by simp [addressOrder])]
  rfl

end Sys2Proof.Machine

namespace Sys2Proof.Proofs

open Sys2Proof.Machine Sys2Proof.Safety

/-- Settles O27: the events set every direction and every output's level, so the pins after them do not depend on those
before, and the second `SETUP` is admitted as the first was. -/
theorem setupConfiguresTheLines : Obligations.SetupConfiguresTheLines := by
  refine fun s => ⟨fun hq hc => ?_, fun hq hc t u ht hu => ?_, fun hq => turnedAway_of_not_idle rfl hq⟩
  · exact ⟨_, setupEvents, exec_setup_idle hq hc, .refl _, rfl, configured_after_setupEvents s.pins,
      levels_after_setupEvents s.pins⟩
  · obtain ⟨hq', henv, -, hp, htr⟩ := setup_leaves hq (callsReturn_mono hc (by decide)) ht
    obtain ⟨-, -, hd, hp', htr'⟩ := setup_leaves hq' (callsReturn_drop hc henv) hu
    exact ⟨by rw [hp', hp, pinsAfter_setupEvents_idem], hd, setupEvents, htr, htr'⟩

/-- Settles O32: the bits shifted last are the address, whose bit 0 stays on the shared pin. -/
theorem shiftRowShiftsDataThenAddress : Obligations.ShiftRowShiftsDataThenAddress := by
  refine fun data a s => ⟨fun hq hd hc => ⟨_, exec_shiftRow_idle hq hd hc a, rfl, ?_, ?_, ?_⟩,
    fun h => turnedAway_of_not_admitted fun ha => ?_⟩
  · rw [afterEvents_evIdx, shiftRowEvents_length hd]
  · rw [afterEvents_pins, pinsAfter_shiftRowEvents, Pins.level_drive, if_neg (by decide), Pins.level_drive_same]
  · rw [afterEvents_pins, pinsAfter_shiftRowEvents, Pins.level_drive_same]
  · obtain ⟨hq, hd⟩ := admission_shiftRow.1 ha
    exact h.elim (· hq) (· hd)

/-- Settles O28: the one event drives the role's pin. -/
theorem setlDrivesOnePin : Obligations.SetlDrivesOnePin := by
  refine fun role v s => ⟨fun hq hr hc => ⟨_, exec_setl_idle hq hr hc v, rfl, Pins.level_drive_same s.pins role v,
      fun _ ho => Pins.get_drive_other s.pins ho v⟩,
    fun h => turnedAway_of_not_admitted fun ha => ?_⟩
  obtain ⟨hq, hr⟩ := admission_setl.1 ha
  exact h.elim (· hq) hr

/-- Settles O29: a wait returns on every move of the environment. -/
theorem waitRecordsItsDuration : Obligations.WaitRecordsItsDuration := by
  refine fun t s => ⟨fun hq => ?_, fun hq => turnedAway_of_not_idle rfl hq⟩
  rw [exec_wait_idle hq]
  simp [afterEvents, answeredFrom, sampleAfter, pinEffect]

/-- Settles O30: the four events of a bit, and the sample as the answer. -/
theorem xbitTransfersOneBit : Obligations.XbitTransfersOneBit :=
  fun b s => ⟨fun hq hc => ⟨_, exec_xbit_idle hq hc b, by rw [afterEvents_bitEvents, Nat.zero_add], rfl, rfl, rfl⟩,
    fun hq => turnedAway_of_not_idle rfl hq⟩

/-- Settles O31: with and without the wait, the last event drives STROBE high. -/
theorem strobePulses : Obligations.StrobePulses := by
  refine fun d s => ⟨?_, fun hq hd hc => ⟨_, exec_strobe_pos hq hd hc, Pins.level_drive_same _ .strobe true, rfl⟩,
    fun hq => turnedAway_of_not_idle rfl hq⟩
  rintro hq rfl hc
  exact ⟨_, exec_strobe_zero hq hc, Pins.level_drive_same _ .strobe true, rfl⟩

end Sys2Proof.Proofs
end

section
/-! SUPPORT. The steps of the sequence. Where each is admitted, the state it leaves where its calls return, as its
events and its register writes, and the level its events leave on the shared pin. -/

namespace Sys2Proof.Machine

open Sys2Proof.Safety

/-! ### Where the row frame is admitted (R102, log 12) -/

theorem admission_fRow {r : BitVec 6} {data : Bits} {s : State} :
    admission (.fRow r data) s = none ↔ s.seq = .erased ∧ r.toNat ≤ 43 ∧ data.length = 132 := by
  simp [admission, withOperand_none, whenAt_none, Nat.lt_succ_iff]

/-! ### What each leaves -/

theorem exec_s1_admitted {s : State} (ht : s.timing = Config.params.timing) (ha : admission .s1 s = none)
    (hc : CallsReturn 5 s) :
    exec .s1 s =
      .next { afterEvents s1Events
          { s with progUsed := true, rows := matrixRows s.fa, olmc := olmcString s.fa, evIdx := 0 } with
        seq := .programmingModeEntered, reply := .nothing, turnedAway := none } := by
  have hacts : actsOf .s1 s = s1Acts Config.params.timing := congrArg s1Acts ht
  rw [exec_events .s1 s s1Events 5 ha rfl (eventsOf_actsOf .s1 s ht) rfl hc, hacts, placed_s1Acts]
  rfl

theorem exec_s2_at {s : State} (hq : s.seq = .programmingModeEntered) (hc : CallsReturn 3 s) :
    exec .s2 s =
      .next { afterEvents s2Events s with seq := .writeModeEnabled, reply := .nothing, turnedAway := none } :=
  exec_events .s2 s s2Events 3 (whenAt_none.2 hq) rfl rfl rfl hc

theorem exec_s3_at {s : State} (ht : s.timing = Config.params.timing) (hq : s.seq = .writeModeEnabled)
    (hc : CallsReturn 7 s) :
    exec .s3 s = .next { afterEvents s3Events s with seq := .erased, reply := .nothing, turnedAway := none } := by
  rw [exec_events .s3 s s3Events 7 (whenAt_none.2 hq) rfl (eventsOf_actsOf .s3 s ht) rfl hc, actsOf, ht, placed_s3Acts]
  rfl

/-- Step 4 with no row issues no event (R155). -/
theorem exec_s4_nil {s : State} (hq : s.seq = .erased) (hr : s.rows = []) :
    exec .s4 s = .next { s with seq := .matrixWritten, reply := .nothing, turnedAway := none } := by
  have hacts : actsOf .s4 s = [.setSeq .matrixWritten] := by rw [actsOf, hr]; rfl
  rw [exec_events .s4 s [] 0 (whenAt_none.2 hq) rfl (by rw [hacts]; rfl) rfl (by simp [CallsReturn]), hacts,
    afterEvents_nil]
  rfl

theorem exec_s4_rows {s : State} (ht : s.timing = Config.params.timing) (hq : s.seq = .erased) (hr : s.rows ≠ [])
    (hl : ∀ r ∈ s.rows, r.length = 132) (hc : CallsReturn (556 * s.rows.length) s) :
    exec .s4 s =
      .next { afterEvents (rowsEvents 0 s.rows) s with
        seq := .matrixWritten, row := BitVec.ofNat 6 (s.rows.length - 1), col := 137#8, ustep := 0#2,
        reply := .nothing, turnedAway := none } := by
  rw [exec_events .s4 s _ _ (whenAt_none.2 hq) rfl (eventsOf_actsOf .s4 s ht) (rowsEvents_length hl) hc, actsOf, ht,
    placed_s4Acts _ _ hr]
  rfl

theorem exec_fRow_admitted {r : BitVec 6} {data : Bits} {s : State} (ht : s.timing = Config.params.timing)
    (hq : s.seq = .erased) (hr : r.toNat ≤ 43) (hd : data.length = 132) (hc : CallsReturn 556 s) :
    exec (.fRow r data) s =
      .next { afterEvents (rowEvents r data) s with
        row := r, col := 137#8, ustep := 0#2, reply := .nothing, turnedAway := none } := by
  rw [exec_events (.fRow r data) s _ 556 (admission_fRow.2 ⟨hq, hr, hd⟩) rfl (eventsOf_actsOf _ s ht)
    (rowEvents_length hd) hc, actsOf, ht, fRowActs, placed_append, placed_shiftRowActs, placed_commitActs]
  rfl

theorem exec_s5_at {s : State} (ht : s.timing = Config.params.timing) (hq : s.seq = .matrixWritten)
    (ho : s.olmc.length = 20) (hc : CallsReturn 86 s) :
    exec .s5 s =
      .next { afterEvents (s5Events s.olmc) s with
        seq := .olmcWritten, col := 19#8, ustep := 0#2, reply := .nothing, turnedAway := none } := by
  have hne : s.olmc ≠ [] := List.ne_nil_of_length_eq_add_one ho
  rw [exec_events .s5 s _ 86 (whenAt_none.2 hq) rfl (eventsOf_actsOf .s5 s ht) (s5Events_length ho) hc, actsOf, ht,
    placed_s5Acts _ _ hne, ho]
  rfl

theorem exec_s6_at {s : State} (ht : s.timing = Config.params.timing) (hq : s.seq = .olmcWritten)
    (hc : CallsReturn 556 s) :
    exec .s6 s =
      .next { afterEvents s6Events s with
        seq := .powerDownRowWritten, row := 59#6, col := 137#8, ustep := 0#2,
        reply := .nothing, turnedAway := none } := by
  rw [exec_events .s6 s _ 556 (whenAt_none.2 hq) rfl (eventsOf_actsOf .s6 s ht) s6Events_length hc, actsOf, ht,
    placed_s6Acts]
  rfl

theorem exec_s7_at {s : State} (hq : s.seq = .powerDownRowWritten) (hc : CallsReturn 2 s) :
    exec .s7 s =
      .next { afterEvents s7Events s with seq := .writeModeDisabled, reply := .nothing, turnedAway := none } :=
  exec_events .s7 s s7Events 2 (whenAt_none.2 hq) rfl rfl rfl hc

theorem exec_s8_at {s : State} (ht : s.timing = Config.params.timing) (hq : s.seq = .writeModeDisabled)
    (hc : CallsReturn 5 s) :
    exec .s8 s = .next { afterEvents s8Events s with seq := .idle, reply := .nothing, turnedAway := none } := by
  rw [exec_events .s8 s s8Events 5 (whenAt_none.2 hq) rfl (eventsOf_actsOf .s8 s ht) rfl hc, actsOf, ht, placed_s8Acts]
  rfl

/-! ### The shared pin after it (R29, R157) -/

theorem level_write_after_bitsEvents (bs : Bits) (h : bs ≠ []) (p : Pins) :
    (pinsAfter (bitsEvents bs) p).level .write = bs.getLast h := by
  rw [pinsAfter_bitsEvents bs h]
  rfl

@[simp] theorem level_write_after_commitEvents (p : Pins) :
    (pinsAfter commitEvents p).level .write = p.level .write := rfl

/-- A row frame leaves its address bit 0, the last bit shifted, on the shared pin. -/
theorem level_write_after_rowEvents (r : Config.RowAddr) (data : Bits) (p : Pins) :
    (pinsAfter (rowEvents r data) p).level .write = r.getLsbD 0 := by
  rw [rowEvents, pinsAfter_append, level_write_after_commitEvents, pinsAfter_shiftRowEvents]
  rfl

/-- The OLMC frame leaves its last bit on the shared pin. -/
theorem level_write_after_s5Events (olmc : Bits) (h : olmc ≠ []) (p : Pins) :
    (pinsAfter (s5Events olmc) p).level .write = olmc.getLast h := by
  have haccess (p : Pins) (v : Bool) : (pinsAfter [.wr .accessOlmc v] p).level .write = p.level .write := rfl
  rw [s5Events, pinsAfter_append, haccess, pinsAfter_append, level_write_after_commitEvents, pinsAfter_append,
    level_write_after_bitsEvents olmc h]

/-- Step 6 is a row frame at address 59 (R97). -/
theorem s6Events_eq_rowEvents : s6Events = rowEvents 59#6 (List.replicate 132 false) := rfl

theorem level_write_after_s6Events (p : Pins) : (pinsAfter s6Events p).level .write = true := by
  rw [s6Events_eq_rowEvents, level_write_after_rowEvents]
  rfl

end Sys2Proof.Machine

namespace Sys2Proof.Proofs

open Sys2Proof.Machine Sys2Proof.Safety

/-- Settles O34: step 1 is admitted as `PROGRAM` is, with the loader's views as operands of the right sizes. -/
theorem s1EntersProgrammingMode : Obligations.S1EntersProgrammingMode := by
  refine fun s ht => ⟨fun hv hd hq hp hc =>
      ⟨_, exec_s1_admitted ht (admission_s1.2 ⟨hv, hd, hq, hp⟩) hc, rfl, rfl, rfl, rfl⟩,
    fun h => turnedAway_of_not_admitted fun ha => ?_⟩
  obtain ⟨hv, hd, hq, hp⟩ := admission_s1.1 ha
  simp [hv, hd, hq, hp] at h

/-- Settles O35: its three events, from the state of step 1. -/
theorem s2EnablesWriteMode : Obligations.S2EnablesWriteMode := fun _ =>
  ⟨fun hq hc => ⟨_, exec_s2_at hq hc, rfl, rfl, rfl, rfl⟩,
    fun hq => turnedAway_of_not_admitted (mt whenAt_none.1 hq)⟩

/-- Settles O36: its seven events at the configured times. -/
theorem s3Erases : Obligations.S3Erases := fun _ ht =>
  ⟨fun hq hc => ⟨_, exec_s3_at ht hq hc, rfl, rfl, rfl⟩,
    fun hq => turnedAway_of_not_admitted (mt whenAt_none.1 hq)⟩

/-- Settles O37: with no row there is nothing to issue; with rows the registers are as the last frame leaves them. -/
theorem s4ProgramsTheRows : Obligations.S4ProgramsTheRows := by
  refine fun s ht _ hl => ⟨fun hq hc => ?_, fun hq => turnedAway_of_not_admitted (mt whenAt_none.1 hq)⟩
  by_cases hr : s.rows = []
  · exact ⟨_, exec_s4_nil hq hr, rowsEvents_length hl, fun _ => rfl, fun hn => absurd hr hn⟩
  · exact ⟨_, exec_s4_rows ht hq hr hl hc, rowsEvents_length hl, fun hn => absurd hn hr, fun _ => rfl⟩

/-- Settles O38: the frame's last bit is bit 0 of its address. -/
theorem fRowProgramsOneRow : Obligations.FRowProgramsOneRow := by
  refine fun r data s ht => ⟨fun hq hr hd hc => ⟨_, exec_fRow_admitted ht hq hr hd hc, rfl, ?_,
      level_write_after_rowEvents r data s.pins⟩,
    fun h => turnedAway_of_not_admitted fun ha => ?_⟩
  · rw [afterEvents_evIdx, rowEvents_length hd]
  · obtain ⟨hq, hr, hd⟩ := admission_fRow.1 ha
    exact h.elim (· hq) (·.elim (Nat.not_lt.2 hr) (· hd))

/-- Settles O39: ACCESS_OLMC is driven low last, and the shared pin keeps the last of the twenty bits. -/
theorem s5ProgramsTheOlmcWord : Obligations.S5ProgramsTheOlmcWord := by
  refine fun s ht ho => ⟨fun hq hc => ⟨_, exec_s5_at ht hq ho hc, rfl, ?_, ?_, ?_⟩,
    fun hq => turnedAway_of_not_admitted (mt whenAt_none.1 hq)⟩
  · rw [afterEvents_evIdx, s5Events_length ho]
  · rw [afterEvents_pins, s5Events, pinsAfter_append]
    rfl
  · have hne : s.olmc ≠ [] := List.ne_nil_of_length_eq_add_one ho
    rw [afterEvents_pins, level_write_after_s5Events _ hne, ← List.getLast?_eq_some_getLast, List.getLast?_eq_getElem?,
      ho]

/-- Settles O40: the frame is a row's at address 59, whatever was loaded. -/
theorem s6WritesThePowerDownRow : Obligations.S6WritesThePowerDownRow := by
  refine fun s ht => ⟨fun hq hc => ⟨_, exec_s6_at ht hq hc, ?_, ?_, ?_⟩,
    fun hq => turnedAway_of_not_admitted (mt whenAt_none.1 hq)⟩
  · rw [s6Events, commitEvents]
  · rw [afterEvents_evIdx, s6Events_length]
  · rw [afterEvents_pins, level_write_after_s6Events]

/-- Settles O41: both its events drive the one shared pin. -/
theorem s7DisablesWriteMode : Obligations.S7DisablesWriteMode := fun _ =>
  ⟨fun hq hc => ⟨_, exec_s7_at hq hc, rfl, rfl⟩, fun hq => turnedAway_of_not_admitted (mt whenAt_none.1 hq)⟩

/-- Settles O42: its five events at the configured times, the last state of the list left at once for `Idle`. -/
theorem s8ExitsProgrammingMode : Obligations.S8ExitsProgrammingMode := fun _ ht =>
  ⟨fun hq hc => ⟨_, exec_s8_at ht hq hc, rfl, rfl, rfl, rfl⟩,
    fun hq => turnedAway_of_not_admitted (mt whenAt_none.1 hq)⟩

/-- Settles O44: `whenProgram` asks for each of the conditions. -/
theorem programIsAdmittedOnce : Obligations.ProgramIsAdmittedOnce := by
  refine fun rows olmc s h => turnedAway_of_not_admitted fun ha => ?_
  obtain ⟨hv, hd, hq, hp, hn, hr, ho⟩ := whenProgram_none ha
  obtain h | h | h | h | h | ⟨r, hm, h⟩ | h := h
  · exact h hv
  · simp [hd] at h
  · exact h hq
  · simp [hp] at h
  · omega
  · exact h (hr r hm)
  · exact h ho

end Sys2Proof.Proofs
end

section
/-! SUPPORT. A whole run of the sequence. A list of acts whose calls all return has the closed form `afterActs`, which
takes two lists one after the other, so `PROGRAM` is its steps in turn; between two steps the run is `Between`; the
lines after each step are read off its events. -/

namespace Sys2Proof.Machine

open Sys2Proof.Safety

/-! ### Acts whose calls return -/

/-- A list of acts whose calls all returned: what `perform_returns` leaves. -/
def afterActs (acts : List Act) (s : State) : State := afterEvents (eventsOf acts) (placed acts s)

/-- Register writes and events that returned do not meet. -/
theorem placed_afterEvents (acts : List Act) (es : List Event) (s : State) :
    placed acts (afterEvents es s) = afterEvents es (placed acts s) := by
  induction es generalizing s with
  | nil => simp
  | cons e es ih => rw [afterEvents_cons, ih, placed_returned, ← afterEvents_cons]

/-- Two lists of acts, one after the other. -/
theorem afterActs_append (a b : List Act) (s : State) : afterActs (a ++ b) s = afterActs b (afterActs a s) := by
  simp only [afterActs, eventsOf_append, placed_append, afterEvents_append, placed_afterEvents]

/-- Acts do not read the answer to the host. -/
theorem afterActs_answer (acts : List Act) (r : Reply) (s : State) :
    afterActs acts (answer r s) = answer r (afterActs acts s) := by
  have hplaced : placed acts (answer r s) = answer r (placed acts s) := by
    induction acts generalizing s with
    | nil => rfl
    | cons a acts ih =>
      have hplace : place a (answer r s) = answer r (place a s) := by cases a <;> rfl
      rw [placed, hplace, ih, placed]
  rw [afterActs, hplaced]
  rfl

/-! ### A step of the sequence -/

/-- What a step leaves where its calls return: its acts, then its answer. -/
def afterStep (acts : List Act) (s : State) : State := answer .nothing (afterActs acts s)

@[simp] theorem afterStep_pins (acts : List Act) (s : State) :
    (afterStep acts s).pins = pinsAfter (eventsOf acts) s.pins := by
  rw [afterStep, answer_pins, afterActs, afterEvents_pins, placed_pins]

/-- The answer of a step is all that stands between its acts and the next step's, and the next answer replaces it. -/
theorem afterStep_append (a b : List Act) (s : State) : afterStep (a ++ b) s = afterStep b (afterStep a s) := by
  rw [afterStep, afterStep, afterStep, afterActs_append, afterActs_answer]
  rfl

theorem finishes_sequence {i : Instr} (ho : ownerOf i = .sequence) (s : State) : finishes i s = answer .nothing s := by
  cases i with
  | program | s1 | s2 | s3 | s4 | fRow | s5 | s6 | s7 | s8 => rfl
  | _ => cases ho

theorem exec_sequence_returns {i : Instr} {s : State} (ho : ownerOf i = .sequence) (ha : admission i s = none)
    (hc : CallsReturn (eventsOf (actsOf i s)).length s) :
    exec i s = .next (afterStep (actsOf i s) (begins i s)) := by
  have hi : issues i = true := by
    cases hi : issues i with
    | true => rfl
    | false =>
      rw [ownerOf_command_of_not_issues hi] at ho
      cases ho
  rw [exec_returns ha hi (callsReturn_of_env hc (begins_env i s)), finishes_sequence ho]
  rfl

/-- A run of the sequence between two steps: its inputs, `seq`, the event index, and how many calls are still to
return. -/
structure Between (rows : List Bits) (olmc : Bits) (q : Seq) (idx left : Nat) (t : State) : Prop where
  timing : t.timing = Config.params.timing
  rows : t.rows = rows
  olmc : t.olmc = olmc
  seq : t.seq = q
  evIdx : t.evIdx = idx
  calls : CallsReturn left t

section
variable {rows : List Bits} {olmc : Bits} {q q' : Seq} {idx left n : Nat} {t : State}

/-- A list of acts takes a run from one step's end to the next. -/
theorem Between.returns (h : Between rows olmc q idx (n + left) t) {acts : List Act}
    (hn : (eventsOf acts).length = n) (hq : (placed acts t).seq = q') :
    Between rows olmc q' (idx + n) left (afterStep acts t) := by
  obtain ⟨q₁, r, c, u, hw⟩ := placed_writes acts t
  rw [hw] at hq
  rw [afterStep, afterActs, hw]
  exact ⟨h.timing, h.rows, h.olmc, hq, by simp [h.evIdx, hn], callsReturn_drop h.calls (by simp [hn])⟩

/-- A step after the first, taken where `seq` names the step before it. -/
theorem Between.step (h : Between rows olmc q idx (n + left) t) (i : Instr) {acts : List Act}
    (ho : ownerOf i = .sequence) (ha : admission i t = none) (hb : begins i t = t) (hacts : actsOf i t = acts)
    (hn : (eventsOf acts).length = n) (hq : (placed acts t).seq = q') :
    exec i t = .next (afterStep acts t) ∧
      Between rows olmc q' (idx + n) left (afterStep acts t) := by
  subst hacts
  refine ⟨?_, h.returns hn hq⟩
  rw [exec_sequence_returns ho ha (callsReturn_mono h.calls (by omega)), hb]

theorem Between.s2 (h : Between rows olmc .programmingModeEntered idx (3 + left) t) :
    exec .s2 t = .next (afterStep s2Acts t) ∧
      Between rows olmc .writeModeEnabled (idx + 3) left (afterStep s2Acts t) :=
  h.step .s2 rfl (whenAt_none.2 h.seq) rfl rfl rfl rfl

theorem Between.s3 (h : Between rows olmc .writeModeEnabled idx (7 + left) t) :
    exec .s3 t = .next (afterStep (s3Acts Config.params.timing) t) ∧
      Between rows olmc .erased (idx + 7) left (afterStep (s3Acts Config.params.timing) t) :=
  h.step .s3 rfl (whenAt_none.2 h.seq) rfl (congrArg s3Acts h.timing) rfl rfl

theorem Between.s4 (hr : ∀ r ∈ rows, r.length = 132)
    (h : Between rows olmc .erased idx (556 * rows.length + left) t) :
    exec .s4 t = .next (afterStep (s4Acts Config.params.timing rows) t) ∧
      Between rows olmc .matrixWritten (idx + 556 * rows.length) left
        (afterStep (s4Acts Config.params.timing rows) t) :=
  h.step .s4 rfl (whenAt_none.2 h.seq) rfl (by rw [actsOf, h.timing, h.rows])
    (by rw [eventsOf_s4Acts, rowsEvents_length hr]) (placed_append_setSeq ..)

theorem Between.s5 (ho : olmc.length = 20) (h : Between rows olmc .matrixWritten idx (86 + left) t) :
    exec .s5 t = .next (afterStep (s5Acts Config.params.timing olmc) t) ∧
      Between rows olmc .olmcWritten (idx + 86) left (afterStep (s5Acts Config.params.timing olmc) t) :=
  h.step .s5 rfl (whenAt_none.2 h.seq) rfl (by rw [actsOf, h.timing, h.olmc])
    (by rw [eventsOf_s5Acts, s5Events_length ho]) (placed_append_setSeq ..)

theorem Between.s6 (h : Between rows olmc .olmcWritten idx (556 + left) t) :
    exec .s6 t = .next (afterStep (s6Acts Config.params.timing) t) ∧
      Between rows olmc .powerDownRowWritten (idx + 556) left (afterStep (s6Acts Config.params.timing) t) :=
  h.step .s6 rfl (whenAt_none.2 h.seq) rfl (congrArg s6Acts h.timing) (by rw [eventsOf_s6Acts, s6Events_length])
    (placed_append_setSeq ..)

theorem Between.s7 (h : Between rows olmc .powerDownRowWritten idx (2 + left) t) :
    exec .s7 t = .next (afterStep s7Acts t) ∧
      Between rows olmc .writeModeDisabled (idx + 2) left (afterStep s7Acts t) :=
  h.step .s7 rfl (whenAt_none.2 h.seq) rfl rfl rfl rfl

theorem Between.s8 (h : Between rows olmc .writeModeDisabled idx (5 + left) t) :
    exec .s8 t = .next (afterStep (s8Acts Config.params.timing) t) ∧
      Between rows olmc .idle (idx + 5) left (afterStep (s8Acts Config.params.timing) t) :=
  h.step .s8 rfl (whenAt_none.2 h.seq) rfl (congrArg s8Acts h.timing) rfl rfl

end

/-- Step 1, presented by itself where `PROGRAM` is admitted: it latches the loader's views. -/
theorem exec_s1_returns {s : State} (ht : s.timing = Config.params.timing) (ha : admission .s1 s = none)
    (hc : CallsReturn 5 s) :
    exec .s1 s =
      .next (afterStep (s1Acts Config.params.timing) (startProgram (matrixRows s.fa) (olmcString s.fa) s)) := by
  have hacts : actsOf .s1 s = s1Acts Config.params.timing := congrArg s1Acts ht
  rw [exec_sequence_returns rfl ha (by rw [hacts]; exact hc), hacts]
  rfl

/-- After step 1 the latched inputs are all that depends on what it latched. -/
theorem afterStep_s1Acts_latch (rows rows' : List Bits) (olmc olmc' : Bits) (s : State) :
    { afterStep (s1Acts Config.params.timing) (startProgram rows' olmc' s) with rows := rows, olmc := olmc } =
      afterStep (s1Acts Config.params.timing) (startProgram rows olmc s) := rfl

/-- A run after step 1. -/
theorem between_after_s1 {s : State} {left : Nat} (ht : s.timing = Config.params.timing)
    (hc : CallsReturn (5 + left) s) (rows : List Bits) (olmc : Bits) :
    Between rows olmc .programmingModeEntered 5 left
      (afterStep (s1Acts Config.params.timing) (startProgram rows olmc s)) := by
  have hstart : Between rows olmc s.seq 0 (5 + left) (startProgram rows olmc s) := ⟨ht, rfl, rfl, rfl, rfl, hc⟩
  exact hstart.returns rfl rfl

/-! ### The whole of `PROGRAM` -/

/-- `PROGRAM` is admitted under the conditions of R151. -/
theorem whenProgram_iff {rows : List Bits} {olmc : Bits} {s : State} :
    whenProgram rows olmc s = none ↔
      s.ldr = .valid ∧ s.setupDone = true ∧ s.seq = .idle ∧ s.progUsed = false ∧ rows.length ≤ 44 ∧
        (∀ r ∈ rows, r.length = 132) ∧ olmc.length = 20 := by
  refine ⟨whenProgram_none, fun ⟨hv, hd, hq, hp, hn, hr, ho⟩ => ?_⟩
  have hops : programOperands rows olmc = true := by
    simpa [programOperands, hn, ho] using hr
  simp [whenProgram, hv, hd, hq, hp, hops]

theorem exec_program_returns {rows : List Bits} {olmc : Bits} {s : State} (ht : s.timing = Config.params.timing)
    (ha : whenProgram rows olmc s = none) (hc : CallsReturn (664 + 556 * rows.length) s) :
    exec (.program rows olmc) s =
      .next (afterStep (programActs Config.params.timing rows olmc) (startProgram rows olmc s)) := by
  obtain ⟨-, -, -, -, -, hr, ho⟩ := whenProgram_none ha
  have hacts : actsOf (.program rows olmc) s = programActs Config.params.timing rows olmc := by rw [actsOf, ht]
  have hlen : (eventsOf (actsOf (.program rows olmc) s)).length = 664 + 556 * rows.length := by
    rw [hacts, eventsOf_programActs, programEvents_length hr ho]
  rw [exec_sequence_returns (i := .program rows olmc) rfl ha (hlen ▸ hc), hacts]
  rfl

/-- The eight steps in turn are `PROGRAM`'s acts. -/
theorem afterStep_programActs (rows : List Bits) (olmc : Bits) (s : State) :
    afterStep (programActs Config.params.timing rows olmc) s =
      afterStep (s8Acts Config.params.timing) (afterStep s7Acts (afterStep (s6Acts Config.params.timing)
        (afterStep (s5Acts Config.params.timing olmc) (afterStep (s4Acts Config.params.timing rows)
          (afterStep (s3Acts Config.params.timing)
            (afterStep s2Acts (afterStep (s1Acts Config.params.timing) s))))))) := by
  simp only [programActs, afterStep_append]

/-- Registers that `PROGRAM` leaves: those of step 6, and `seq` back at `Idle`. -/
theorem afterStep_programActs_eq {rows : List Bits} {olmc : Bits} {s : State} (hq : s.seq = .idle) :
    afterStep (programActs Config.params.timing rows olmc) (startProgram rows olmc s) =
      { afterEvents (programEvents rows olmc)
          { s with progUsed := true, rows := rows, olmc := olmc, evIdx := 0 } with
        row := 59#6, col := 137#8, ustep := 0#2, reply := .nothing, turnedAway := none } := by
  rw [afterStep, afterActs, eventsOf_programActs, placed_programActs, ← hq]
  rfl

theorem exec_program_admitted {rows : List Bits} {olmc : Bits} {s : State} (ht : s.timing = Config.params.timing)
    (ha : whenProgram rows olmc s = none) (hc : CallsReturn (664 + 556 * rows.length) s) :
    exec (.program rows olmc) s =
      .next { afterEvents (programEvents rows olmc)
          { s with progUsed := true, rows := rows, olmc := olmc, evIdx := 0 } with
        row := 59#6, col := 137#8, ustep := 0#2, reply := .nothing, turnedAway := none } := by
  obtain ⟨-, -, hq, -⟩ := whenProgram_none ha
  rw [exec_program_returns ht ha hc, afterStep_programActs_eq hq]

/-! ### The end of a completed run (R168) -/

@[simp] theorem map_unanswered_bitsEvents (bs : Bits) : (bitsEvents bs).map unanswered = bitsEvents bs := by
  rw [bitsEvents, List.map_flatMap]
  rfl

@[simp] theorem map_unanswered_rowEvents (r : Config.RowAddr) (data : Bits) :
    (rowEvents r data).map unanswered = rowEvents r data := by
  simp only [rowEvents, List.map_append, map_unanswered_bitsEvents]
  rfl

@[simp] theorem map_unanswered_rowsEvents (r : Nat) (rows : List Bits) :
    (rowsEvents r rows).map unanswered = rowsEvents r rows := by
  induction rows generalizing r with
  | nil => rfl
  | cons data rest ih => rw [rowsEvents, List.map_append, map_unanswered_rowEvents, ih]

@[simp] theorem map_unanswered_s5Events (olmc : Bits) : (s5Events olmc).map unanswered = s5Events olmc := by
  simp only [s5Events, List.map_append, map_unanswered_bitsEvents]
  rfl

/-- The list of R166 is of calls, with no bit returned. -/
theorem map_unanswered_programEvents (rows : List Bits) (olmc : Bits) :
    (programEvents rows olmc).map unanswered = programEvents rows olmc := by
  have hs6 : s6Events.map unanswered = s6Events := by
    rw [s6Events_eq_rowEvents, map_unanswered_rowEvents]
  simp only [programEvents, List.map_append, map_unanswered_rowsEvents, map_unanswered_s5Events, hs6]
  rfl

theorem sequenceEnd_completed {t : State} (hq : t.seq = .idle) (hp : t.progUsed = true)
    (hs : programEvents t.rows t.olmc <:+ t.trace.map unanswered) : sequenceEnd t = some .completed := by
  simp [sequenceEnd, hq, hp, hs]

/-- Where `PROGRAM` went through, the latest events are the list of R166. -/
theorem sequenceEnd_afterStep_programActs {rows : List Bits} {olmc : Bits} {s : State} (hq : s.seq = .idle) :
    sequenceEnd (afterStep (programActs Config.params.timing rows olmc) (startProgram rows olmc s)) =
      some .completed := by
  rw [afterStep_programActs_eq hq]
  refine sequenceEnd_completed hq rfl ⟨s.trace.map unanswered, ?_⟩
  rw [afterEvents_trace, List.map_append, unanswered_answeredFrom, map_unanswered_programEvents]
  rfl

/-! ### The lines after each step (R167) -/

/-- The lines before or after a written frame, with the level of the shared pin. -/
theorem levels_iff_frameLevels {a w : Bool} {p : Pins} :
    Levels p true w false a true true ↔ FrameLevels a p ∧ p.level .write = w := by
  rw [frameLevels_iff]
  exact ⟨fun ⟨hp, hw, _, he, ha, hc, hs⟩ => ⟨⟨hp, he, ha, hc, hs⟩, hw⟩,
    fun ⟨⟨hp, he, ha, hc, hs⟩, hw⟩ => ⟨hp, hw, hw, he, ha, hc, hs⟩⟩

theorem levels_after_s1 {p : Pins} (h : Levels p false false false false false false) :
    Levels (pinsAfter s1Events p) true false false false true true := by
  obtain ⟨-, hw, hd, he, ha, -, -⟩ := h
  exact ⟨rfl, hw, hd, he, ha, rfl, rfl⟩

theorem levels_after_s2 {w : Bool} {p : Pins} (h : Levels p true w false false true true) :
    Levels (pinsAfter s2Events p) true true false false true true := by
  obtain ⟨hp, -, -, -, -, hc, hs⟩ := h
  exact ⟨hp, rfl, rfl, rfl, rfl, hc, hs⟩

theorem levels_after_s3 {w : Bool} {p : Pins} (h : Levels p true w false false true true) :
    Levels (pinsAfter s3Events p) true w false false true true := by
  obtain ⟨hf, hw⟩ := levels_iff_frameLevels.1 h
  exact levels_iff_frameLevels.2 ⟨hf.after_s3, hw⟩

/-- The rows leave bit 0 of the last address on the shared pin, and no row leaves it alone (R157). -/
theorem level_write_after_rowsEvents {r : Nat} {rows : List Bits} (h : rows ≠ []) (p : Pins) :
    (pinsAfter (rowsEvents r rows) p).level .write = decide ((r + rows.length - 1) % 2 = 1) := by
  induction rows generalizing r p with
  | nil => exact absurd rfl h
  | cons data rest ih =>
    rw [rowsEvents, pinsAfter_append]
    cases rest with
    | nil =>
      rw [rowsEvents, pinsAfter_nil, level_write_after_rowEvents, BitVec.getLsbD_ofNat]
      simp
    | cons data' rest =>
      rw [ih (by simp)]
      simp [Nat.add_assoc, Nat.add_comm 1]

theorem levels_after_rows {p : Pins} (h : Levels p true true false false true true) (rows : List Bits) :
    Levels (pinsAfter (rowsEvents 0 rows) p) true (rows.length = 0 ∨ (rows.length - 1) % 2 = 1) false false true
      true := by
  obtain ⟨hf, hw⟩ := levels_iff_frameLevels.1 h
  refine levels_iff_frameLevels.2 ⟨hf.after_rows 0 rows, ?_⟩
  by_cases hr : rows = []
  · subst hr
    exact hw
  · rw [level_write_after_rowsEvents hr]
    simp [hr]

theorem levels_after_s5 {w : Bool} {p : Pins} (h : Levels p true w false false true true) {olmc : Bits}
    (ho : olmc.length = 20) :
    Levels (pinsAfter (s5Events olmc) p) true (olmc.getD 19 false) false false true true := by
  have hne : olmc ≠ [] := List.ne_nil_of_length_eq_add_one ho
  obtain ⟨hf, -⟩ := levels_iff_frameLevels.1 h
  refine levels_iff_frameLevels.2 ⟨hf.after_s5 olmc, ?_⟩
  rw [level_write_after_s5Events olmc hne, List.getLast_eq_getElem]
  simp [ho]

theorem levels_after_s6 {w : Bool} {p : Pins} (h : Levels p true w false false true true) :
    Levels (pinsAfter s6Events p) true true false false true true := by
  obtain ⟨hf, -⟩ := levels_iff_frameLevels.1 h
  exact levels_iff_frameLevels.2 ⟨hf.after_s6, level_write_after_s6Events p⟩

theorem levels_after_s7 {w : Bool} {p : Pins} (h : Levels p true w false false true true) :
    Levels (pinsAfter s7Events p) true false false false true true := by
  obtain ⟨hf, -⟩ := levels_iff_frameLevels.1 h
  exact hf.linesFollowSeq_after_s7

theorem levels_after_s8 {p : Pins} (h : Levels p true false false false true true) :
    Levels (pinsAfter s8Events p) false false false false false false := by
  obtain ⟨-, hw, hd, he, ha, -, -⟩ := h
  exact ⟨rfl, hw, hd, he, ha, rfl, rfl⟩

/-- A whole run leaves every output low, whatever the lines were before it: steps 1 and 2 write all six. -/
theorem levels_after_programEvents (rows : List Bits) (olmc : Bits) (p : Pins) :
    Levels (pinsAfter (programEvents rows olmc) p) false false false false false false := by
  have hs2 := frameLevels_after_s2 (linesFollowSeq_after_s1 p)
  have hs6 := ((hs2.after_s3.after_rows 0 rows).after_s5 olmc).after_s6
  simp only [programEvents, pinsAfter_append]
  exact levels_after_s8 (levels_after_s7 hs6)

end Sys2Proof.Machine

namespace Sys2Proof.Proofs

open Sys2Proof.Machine Sys2Proof.Safety

/-- Settles O43: the acts of the eight steps issue the list of R166, which is then the end of the trace. -/
theorem programIssuesItsEventList : Obligations.ProgramIssuesItsEventList := by
  intro rows olmc s ht hv hd hq hp hn hr ho hc
  have ha : whenProgram rows olmc s = none := whenProgram_iff.2 ⟨hv, hd, hq, hp, hn, hr, ho⟩
  refine ⟨_, exec_program_admitted ht ha hc, rfl, ?_, ?_,
    runEnd_first (exec_program_returns ht ha hc) (sequenceEnd_afterStep_programActs hq)⟩
  · rw [afterEvents_evIdx, programEvents_length hr ho, Nat.zero_add]
  · rw [afterEvents_pins]
    exact levels_after_programEvents rows olmc s.pins

/-- Settles O45: between two steps the run is where the next one is taken, and the eight lists of acts in turn are
`PROGRAM`'s. -/
theorem programIsItsEightSteps : Obligations.ProgramIsItsEightSteps := by
  intro rows olmc s ht hv hd hq hp hn hr ho hc
  have hprogram := exec_program_returns ht (whenProgram_iff.2 ⟨hv, hd, hq, hp, hn, hr, ho⟩) hc
  have hs1 := exec_s1_returns ht (admission_s1.2 ⟨hv, hd, hq, hp⟩) (callsReturn_mono hc (by omega))
  have hb1 := between_after_s1 (left := 3 + (7 + (556 * rows.length + (86 + (556 + (2 + (5 + 0))))))) ht
    (callsReturn_mono hc (by omega)) rows olmc
  obtain ⟨hs2, hb2⟩ := hb1.s2
  obtain ⟨hs3, hb3⟩ := hb2.s3
  obtain ⟨hs4, hb4⟩ := hb3.s4 hr
  obtain ⟨hs5, hb5⟩ := hb4.s5 ho
  obtain ⟨hs6, hb6⟩ := hb5.s6
  obtain ⟨hs7, hb7⟩ := hb6.s7
  obtain ⟨hs8, -⟩ := hb7.s8
  have hrest : execAll [.s2, .s3, .s4, .s5, .s6, .s7, .s8]
      (afterStep (s1Acts Config.params.timing) (startProgram rows olmc s)) =
        some (afterStep (programActs Config.params.timing rows olmc) (startProgram rows olmc s)) := by
    simp only [execAll, hs2, hs3, hs4, hs5, hs6, hs7, hs8, afterStep_programActs]
  refine ⟨_, _, hprogram, hs1, ?_, fun hrows holmc => ?_⟩
  · rw [afterStep_s1Acts_latch, hrest]
  · subst hrows holmc
    rw [execAll, hs1]
    exact hrest

/-- Settles O46: each step takes the run to the next `Between`, and its events the lines to the next row of the
table. -/
theorem linesAndStatesAfterEachStep : Obligations.LinesAndStatesAfterEachStep := by
  intro rows olmc s ht hv hd hq hp hn hr ho hc hl
  have hs1 := exec_s1_returns ht (admission_s1.2 ⟨hv, hd, hq, hp⟩) (callsReturn_mono hc (by omega))
  have hb1 := between_after_s1 (left := 3 + (7 + (556 * rows.length + (86 + (556 + (2 + (5 + 0))))))) ht
    (callsReturn_mono hc (by omega)) rows olmc
  obtain ⟨hs2, hb2⟩ := hb1.s2
  obtain ⟨hs3, hb3⟩ := hb2.s3
  obtain ⟨hs4, hb4⟩ := hb3.s4 hr
  obtain ⟨hs5, hb5⟩ := hb4.s5 ho
  obtain ⟨hs6, hb6⟩ := hb5.s6
  obtain ⟨hs7, hb7⟩ := hb6.s7
  obtain ⟨hs8, hb8⟩ := hb7.s8
  have hl1 := levels_after_s1 hl
  have hl2 := levels_after_s2 hl1
  have hl3 := levels_after_s3 hl2
  have hl4 := levels_after_rows hl3 rows
  have hl5 := levels_after_s5 hl4 ho
  have hl6 := levels_after_s6 hl5
  have hl7 := levels_after_s7 hl6
  have hl8 := levels_after_s8 hl7
  refine ⟨_, _, _, _, _, _, _, _, hs1, hs2, hs3, hs4, hs5, hs6, hs7, hs8, rfl, rfl, ⟨rfl, Nat.zero_add _, ?_⟩,
    ⟨hb2.seq, hb2.evIdx, ?_⟩, ⟨hb3.seq, hb3.evIdx, ?_⟩, ⟨hb4.seq, hb4.evIdx, ?_⟩,
    ⟨hb5.seq, hb5.evIdx.trans (by omega), ?_⟩, ⟨hb6.seq, hb6.evIdx.trans (by omega), ?_⟩,
    ⟨hb7.seq, hb7.evIdx.trans (by omega), ?_⟩, ⟨hb8.seq, hb8.evIdx.trans (by omega), ?_⟩⟩ <;>
    simp only [afterStep_pins, eventsOf_s1Acts, eventsOf_s2Acts, eventsOf_s3Acts, eventsOf_s4Acts, eventsOf_s5Acts,
      eventsOf_s6Acts, eventsOf_s7Acts, eventsOf_s8Acts]
  · exact hl1
  · exact hl2
  · exact hl3
  · exact hl4
  · exact hl5
  · exact hl6
  · exact hl7
  · exact hl8

end Sys2Proof.Proofs
end

section
/-! SUPPORT. What does not depend on the data. A measure of events that does not look at DATA_IN's level is counted over
the list of R166 by the bits, the rows and the rest; a run whose acts differ in those levels alone goes the same way,
however its calls end. -/

namespace Sys2Proof.Machine

open Sys2Proof.Safety

/-! ### An event without its bit -/

/-- Every event but a write of DATA_IN stays as it is. -/
theorem withoutData_cases (e : Event) : withoutData e = e ∨ ∃ v, e = .wr .dataIn v := by
  cases e with
  | wr role v =>
    cases role with
    | dataIn => exact .inr ⟨v, rfl⟩
    | _ => exact .inl rfl
  | _ => exact .inl rfl

theorem withoutData_withoutData (e : Event) : withoutData (withoutData e) = withoutData e := by
  obtain he | ⟨v, rfl⟩ := withoutData_cases e
  · rw [he, he]
  · rfl

/-- The level put on DATA_IN does not show in what kind of event it is, nor in how long it waits. -/
theorem eventKind_withoutData (e : Event) :
    isRead (withoutData e) = isRead e ∧ isWait (withoutData e) = isWait e ∧ isWrite (withoutData e) = isWrite e ∧
      waitOf (withoutData e) = waitOf e := by
  obtain he | ⟨v, rfl⟩ := withoutData_cases e
  · rw [he]
    exact ⟨rfl, rfl, rfl, rfl⟩
  · exact ⟨rfl, rfl, rfl, rfl⟩

/-! ### Totals (R165) -/

/-- The events of R166's list that shift no bit and are no row's. -/
def fixedEvents : List Event :=
  s1Events ++ s2Events ++ s3Events ++ [.wr .accessOlmc true] ++ commitEvents ++ [.wr .accessOlmc false] ++
    commitEvents ++ s7Events ++ s8Events

section
variable {f : Event → Nat} (hf : ∀ e, f (withoutData e) = f e)
include hf

theorem sum_map_bitsEvents (bs : Bits) :
    ((bitsEvents bs).map f).sum = bs.length * ((bitEvents false).map f).sum := by
  have hbit (b : Bool) : ((bitEvents b).map f).sum = ((bitEvents false).map f).sum := by
    simp only [bitEvents, List.map_cons, ← hf (.wr .dataIn b), withoutData]
  induction bs with
  | nil => simp [bitsEvents]
  | cons b bs ih =>
    have hcons : bitsEvents (b :: bs) = bitEvents b ++ bitsEvents bs := rfl
    rw [hcons, List.map_append, List.sum_append, hbit, ih, List.length_cons, Nat.succ_mul, Nat.add_comm]

theorem sum_map_rowEvents (r : Config.RowAddr) {data : Bits} (hd : data.length = 132) :
    ((rowEvents r data).map f).sum = 138 * ((bitEvents false).map f).sum + (commitEvents.map f).sum := by
  have ha : (addressOrder r).length = 6 := rfl
  simp only [rowEvents, List.map_append, List.sum_append, sum_map_bitsEvents hf, hd, ha]
  omega

theorem sum_map_rowsEvents (r : Nat) {rows : List Bits} (hr : ∀ x ∈ rows, x.length = 132) :
    ((rowsEvents r rows).map f).sum =
      rows.length * (138 * ((bitEvents false).map f).sum + (commitEvents.map f).sum) := by
  induction rows generalizing r with
  | nil => simp [rowsEvents]
  | cons data rest ih =>
    obtain ⟨hd, hrest⟩ := List.forall_mem_cons.1 hr
    rw [rowsEvents, List.map_append, List.sum_append, sum_map_rowEvents hf _ hd, ih _ hrest, List.length_cons,
      Nat.add_comm, ← Nat.succ_mul]

/-- The whole list: what is fixed, 20 and 138 bits with it, and each row's 138 bits and strobe. -/
theorem sum_map_programEvents {rows : List Bits} {olmc : Bits} (hr : ∀ x ∈ rows, x.length = 132)
    (ho : olmc.length = 20) :
    ((programEvents rows olmc).map f).sum =
      (fixedEvents.map f).sum + 158 * ((bitEvents false).map f).sum +
        rows.length * (138 * ((bitEvents false).map f).sum + (commitEvents.map f).sum) := by
  have hs6 := sum_map_rowEvents hf 59#6 (data := List.replicate 132 false) (by simp)
  simp only [programEvents, s6Events_eq_rowEvents, s5Events, fixedEvents, List.map_append, List.sum_append,
    sum_map_rowsEvents hf 0 hr, sum_map_bitsEvents hf olmc, ho, hs6]
  omega

end

/-- A count of events is such a measure. -/
theorem countP_eq_sum_map (p : Event → Bool) (es : List Event) :
    es.countP p = (es.map fun e => (p e).toNat).sum := by
  induction es with
  | nil => rfl
  | cons e es ih => cases hp : p e <;> simp [hp, ih, Nat.add_comm]

theorem rowFrames_length (r : Nat) (rows : List Bits) : (rowFrames r rows).length = rows.length := by
  induction rows generalizing r with
  | nil => rfl
  | cons data rest ih => rw [rowFrames, List.length_cons, ih, List.length_cons]

/-! ### Two runs of one shape (R166) -/

/-- Two states of runs whose events differ in the levels put on DATA_IN alone. -/
structure SameShape (s s' : State) : Prop where
  trace : s'.trace.map withoutData = s.trace.map withoutData
  seq : s'.seq = s.seq
  evIdx : s'.evIdx = s.evIdx
  env : s'.env = s.env
  draws : s'.draws = s.draws

theorem SameShape.symm {s s' : State} (h : SameShape s s') : SameShape s' s :=
  ⟨h.trace.symm, h.seq.symm, h.evIdx.symm, h.env.symm, h.draws.symm⟩

theorem SameShape.trans {a b c : State} (h : SameShape a b) (h' : SameShape b c) : SameShape a c :=
  ⟨h'.trace.trans h.trace, h'.seq.trans h.seq, h'.evIdx.trans h.evIdx, h'.env.trans h.env, h'.draws.trans h.draws⟩

/-- An act without the bit it puts on DATA_IN. -/
def Act.withoutData : Act → Act
  | .call e => .call (Safety.withoutData e)
  | .setRow x => .setRow x
  | .setCol x => .setCol x
  | .setUstep x => .setUstep x
  | .setSeq x => .setSeq x

/-- The environment's move does not depend on the level put on DATA_IN. -/
theorem moveAt_withoutData (o : Owner) (e : Event) {s s' : State} (h : s'.env = s.env) :
    moveAt o (withoutData e) s' = moveAt o e s := by
  obtain he | ⟨v, rfl⟩ := withoutData_cases e
  · unfold moveAt
    rw [he, h]
  · unfold moveAt
    rw [h]
    cases s.env.head? with
    | none => rfl
    | some m => cases m <;> cases o <;> rfl

/-- Nor does the answer, but for that level. -/
theorem withoutData_answered (e : Event) {s s' : State} (h : s'.draws = s.draws) :
    withoutData (answered (withoutData e) s') = withoutData (answered e s) := by
  obtain he | ⟨v, rfl⟩ := withoutData_cases e
  · unfold answered
    rw [he, h]
  · rfl

theorem drawsOf_withoutData (e : Event) (n : Nat) : drawsOf (withoutData e) n = drawsOf e n := by
  obtain he | ⟨v, rfl⟩ := withoutData_cases e
  · rw [he]
  · rfl

theorem SameShape.returned {s s' : State} (h : SameShape s s') (e : Event) :
    SameShape (returned e (popMove s)) (returned (withoutData e) (popMove s')) where
  trace := by
    have ha := withoutData_answered e (s := popMove s) (s' := popMove s') h.draws
    simp only [Machine.returned, record_trace, List.map_append, List.map_cons, List.map_nil, ha]
    exact congrArg (· ++ _) h.trace
  seq := h.seq
  evIdx := congrArg (· + 1) h.evIdx
  env := congrArg List.tail h.env
  draws := (drawsOf_withoutData e _).trans (congrArg (drawsOf e) h.draws)

theorem SameShape.takeGpioFailure {s s' : State} (h : SameShape s s') (o : Owner) (e : Event) (landed : Bool) :
    SameShape (takeGpioFailure o e landed (popMove s)) (takeGpioFailure o (withoutData e) landed (popMove s')) where
  trace := by
    simp only [takeGpioFailure_trace, List.map_append, List.map_cons, List.map_nil, withoutData_withoutData]
    exact congrArg (· ++ _) h.trace
  seq := congrArg (endedSeq o) h.seq
  evIdx := congrArg (· + 1) h.evIdx
  env := congrArg List.tail h.env
  draws := h.draws

theorem SameShape.takeStop {s s' : State} (h : SameShape s s') (o : Owner) :
    SameShape (takeStop o (popMove s)) (takeStop o (popMove s')) :=
  ⟨h.trace, congrArg (endedSeq o) h.seq, h.evIdx, congrArg List.tail h.env, h.draws⟩

theorem SameShape.place {s s' : State} (h : SameShape s s') (a : Act) : SameShape (place a s) (place a s') := by
  obtain ⟨ht, hq, hi, he, hd⟩ := h
  cases a with
  | setSeq q => exact ⟨ht, rfl, hi, he, hd⟩
  | _ => exact ⟨ht, hq, hi, he, hd⟩

/-- A run goes the same way, and ends the same way, without the bits it puts on DATA_IN. -/
theorem SameShape.perform {s s' : State} (h : SameShape s s') (o : Owner) (acts : List Act) :
    SameShape (perform o acts s).state (perform o (acts.map Act.withoutData) s').state := by
  induction acts generalizing s s' with
  | nil => exact h
  | cons a acts ih =>
    cases a with
    | call e =>
      simp only [List.map_cons, Act.withoutData, Machine.perform, issue, moveAt_withoutData o e h.env]
      cases moveAt o e s with
      | ok => exact ih (h.returned e)
      | fail landed => exact h.takeGpioFailure o e landed
      | stop => exact h.takeStop o
    | setRow x => exact ih (h.place (.setRow x))
    | setCol x => exact ih (h.place (.setCol x))
    | setUstep x => exact ih (h.place (.setUstep x))
    | setSeq x => exact ih (h.place (.setSeq x))

/-! ### The acts of `PROGRAM` without their bits -/

theorem map_withoutData_shiftActs (c : Nat) (bs : Bits) :
    (shiftActs c bs).map Act.withoutData = shiftActs c (List.replicate bs.length false) := by
  induction bs generalizing c with
  | nil => rfl
  | cons b bs ih =>
    simp only [shiftActs, List.length_cons, List.replicate_succ, List.map_cons, List.map_append, ih]
    rfl

/-- Rows of one length shift the same number of bits at the same addresses. -/
theorem map_withoutData_rowsActs (t : Config.Timing) (r : Nat) {rows rows' : List Bits} {n : Nat}
    (hl : rows.length = rows'.length) (hr : ∀ x ∈ rows, x.length = n) (hr' : ∀ x ∈ rows', x.length = n) :
    (rowsActs t r rows).map Act.withoutData = (rowsActs t r rows').map Act.withoutData := by
  induction rows generalizing r rows' with
  | nil => rw [List.eq_nil_of_length_eq_zero hl.symm]
  | cons data rest ih =>
    cases rows' with
    | nil => cases hl
    | cons data' rest' =>
      obtain ⟨hd, hrest⟩ := List.forall_mem_cons.1 hr
      obtain ⟨hd', hrest'⟩ := List.forall_mem_cons.1 hr'
      simp only [rowsActs, fRowActs, shiftRowActs, List.map_append, List.map_cons, map_withoutData_shiftActs, hd, hd',
        ih (r + 1) (Nat.succ.inj hl) hrest hrest']

theorem map_withoutData_programActs (t : Config.Timing) {rows rows' : List Bits} {olmc olmc' : Bits} {n : Nat}
    (hl : rows.length = rows'.length) (hr : ∀ x ∈ rows, x.length = n) (hr' : ∀ x ∈ rows', x.length = n)
    (ho : olmc.length = olmc'.length) :
    (programActs t rows olmc).map Act.withoutData = (programActs t rows' olmc').map Act.withoutData := by
  simp only [programActs, s4Acts, s5Acts, List.map_append, map_withoutData_shiftActs, ho,
    map_withoutData_rowsActs t 0 hl hr hr']

/-- Two admitted `PROGRAM`s of one size, from one state, however their calls end. -/
theorem sameShape_runOf_program {rows rows' : List Bits} {olmc olmc' : Bits} {s : State}
    (hl : rows.length = rows'.length) (ha : whenProgram rows olmc s = none) (ha' : whenProgram rows' olmc' s = none) :
    SameShape (runOf (.program rows olmc) s).state (runOf (.program rows' olmc') s).state := by
  obtain ⟨-, -, -, -, -, hr, ho⟩ := whenProgram_none ha
  obtain ⟨-, -, -, -, -, hr', ho'⟩ := whenProgram_none ha'
  have hstart : SameShape (startProgram rows olmc s) (startProgram rows' olmc' s) := ⟨rfl, rfl, rfl, rfl, rfl⟩
  have hself : SameShape (startProgram rows' olmc' s) (startProgram rows' olmc' s) := ⟨rfl, rfl, rfl, rfl, rfl⟩
  have hrun := hstart.perform .sequence (programActs s.timing rows olmc)
  rw [map_withoutData_programActs s.timing hl hr hr' (ho.trans ho'.symm)] at hrun
  exact hrun.trans (hself.perform .sequence _).symm

/-- What an admitted `PROGRAM` answers has the trace, `seq` and event index its run has left. -/
theorem exec_program_runOf {rows : List Bits} {olmc : Bits} {s t : State} (ha : whenProgram rows olmc s = none)
    (h : exec (.program rows olmc) s = .next t) :
    t.trace = (runOf (.program rows olmc) s).state.trace ∧ t.seq = (runOf (.program rows olmc) s).state.seq ∧
      t.evIdx = (runOf (.program rows olmc) s).state.evIdx := by
  obtain ⟨why, hn, -⟩ | ⟨-, hi, -⟩ | ⟨-, -, ⟨u, hu, rfl⟩ | hu⟩ := exec_next h
  · rw [admission, ha] at hn
    cases hn
  · cases hi
  · rw [runOf, hu]
    exact ⟨rfl, rfl, rfl⟩
  · rw [runOf, hu]
    exact ⟨rfl, rfl, rfl⟩

end Sys2Proof.Machine

namespace Sys2Proof.Proofs

open Sys2Proof.Machine Sys2Proof.Safety

/-- Settles O47: each total is a measure that does not look at DATA_IN's level, so it is its value on the fixed events,
on 158 bits, and on 138 bits and a strobe a row. -/
theorem eventListTotals : Obligations.EventListTotals := by
  intro rows olmc hr ho
  refine ⟨programEvents_length hr ho, ?_, ?_, ?_, ?_, ?_⟩
  · rw [countP_eq_sum_map, sum_map_programEvents (fun e => by simp only [eventKind_withoutData e]) hr ho]
    change 0 + 158 * 1 + rows.length * (138 * 1 + 0) = _
    omega
  · rw [countP_eq_sum_map, sum_map_programEvents (fun e => by simp only [eventKind_withoutData e]) hr ho]
    change 11 + 158 * 0 + rows.length * (138 * 0 + 2) = _
    omega
  · rw [countP_eq_sum_map, sum_map_programEvents (fun e => by simp only [eventKind_withoutData e]) hr ho]
    change 21 + 158 * 3 + rows.length * (138 * 3 + 2) = _
    omega
  · rw [sum_map_programEvents (fun e => by simp only [eventKind_withoutData e]) hr ho]
    change 100000 + 158 * 0 + rows.length * (138 * 0 + 15000) = _
    omega
  · rw [framesOf_programEvents, List.length_append, List.length_append, rowFrames_length]
    simp only [List.length_cons, List.length_nil]
    omega

/-- Settles O50: both runs are of the shape of their common acts. -/
theorem traceShapeIgnoresContent : Obligations.TraceShapeIgnoresContent := by
  intro rows rows' olmc olmc' s t t' hl ha ha' h h'
  have hshape := sameShape_runOf_program hl ha ha'
  obtain ⟨ht, hq, hi⟩ := exec_program_runOf ha h
  obtain ⟨ht', hq', hi'⟩ := exec_program_runOf ha' h'
  rw [ht, hq, hi, ht', hq', hi']
  exact ⟨hshape.trace.symm, hshape.seq.symm, hshape.evIdx.symm⟩

end Sys2Proof.Proofs
end

section
/-! SUPPORT. What ends an operation early, said once: the state its run has reached where the environment ends it before
its `k`-th event (`Reached`). A failing call is `takeGpioFailure` there, a stop is `takeStop`. With them the loader's two
format faults, `Aborted`, and the host's abort. -/

namespace Sys2Proof.Machine

open Sys2Proof.Safety

/-! ### Whose events they are -/

theorem step_issues {i : Instr} (h : isStep i = true) : issues i = true ∧ ownerOf i = .sequence := by
  cases i with
  | s1 | s2 | s3 | s4 | fRow | s5 | s6 | s7 | s8 => exact ⟨rfl, rfl⟩
  | _ => cases h

/-- The steps and the row frame are the sequence's own, so an early end makes them `Aborted`; the primitives are not
(log 13). -/
theorem primitive_or_step_issues {i : Instr} (h : isPrimitive i = true ∨ isStep i = true) (q : Seq) :
    issues i = true ∧ endedSeq (ownerOf i) q = if isStep i then .aborted else q := by
  cases i with
  | setl | wait | xbit | strobe | shiftRow | s1 | s2 | s3 | s4 | fRow | s5 | s6 | s7 | s8 => exact ⟨rfl, rfl⟩
  | _ => exact h.elim nofun nofun

/-! ### The state at the `k`-th event -/

/-- The first event of an operation has the index the operation begins with (log 16). -/
theorem begins_evIdx {i : Instr} (hi : issues i = true) (s : State) : (begins i s).evIdx = firstIndex i s := by
  cases i with
  | ldClear | ldLine | ldSkip | ldPatch | ldEof | ldIoErr | ldRow | ldOlmc | parse | abort => cases hi
  | _ => rfl

/-- What the run of an operation `i`, begun in `s`, has done in `u`, where the environment ends it before its `k`-th event:
the events before it were issued and took effect, and the move that ends the run is used up. -/
structure Reached (i : Instr) (s : State) (k : Nat) (later : List EnvMove) (u : State) : Prop where
  seq : endedSeq (ownerOf i) u.seq = endedSeq (ownerOf i) s.seq
  trace : u.trace = s.trace ++ answeredFrom s.draws ((eventsFor i s).take k)
  pins : u.pins = pinsAfter ((eventsFor i s).take k) s.pins
  evIdx : u.evIdx = firstIndex i s + k
  gpioFault : u.gpioFault = s.gpioFault
  env : u.env = later
  fa : u.fa = s.fa
  ldr : u.ldr = s.ldr
  setupDone : u.setupDone = s.setupDone
  progUsed : u.progUsed = (begins i s).progUsed

/-- The acts before the `k`-th event, their events and their register writes, leave what `Reached` says. -/
theorem reached_afterEvents {i : Instr} {s : State} {k : Nat} {m : EnvMove} {later : List EnvMove} {a : List Act}
    (hi : issues i = true) (hk : k ≤ (eventsFor i s).length)
    (hseq : endedSeq (ownerOf i) (placed a (begins i s)).seq = endedSeq (ownerOf i) s.seq)
    (henv : (afterEvents ((eventsFor i s).take k) (placed a (begins i s))).env = m :: later) :
    Reached i s k later (popMove (afterEvents ((eventsFor i s).take k) (placed a (begins i s)))) := by
  obtain ⟨hpins, htrace, hfa, hldr, hsetup, hfault, hdraws, -⟩ := begins_frame i s
  obtain ⟨q, r, c, u, hp⟩ := placed_writes a (begins i s)
  have hlen : ((eventsFor i s).take k).length = k := List.length_take_of_le hk
  constructor
  case seq => exact hseq
  case env => rw [popMove_env, henv, List.tail_cons]
  all_goals simp [hp, afterEvents_trace, hlen, begins_evIdx hi, hpins, htrace, hfa, hldr, hsetup, hfault, hdraws]

/-- Where the `k`-th call of an admitted operation fails, the fault is taken in the state reached. -/
theorem exec_fails_reached {i : Instr} {s : State} {k : Nat} {e : Event} {landed : Bool} {later : List EnvMove}
    (hev : eventsOf (actsOf i s) = eventsFor i s) (ha : admission i s = none) (hi : issues i = true)
    (hk : (eventsFor i s)[k]? = some e) (hw : isWait e = false)
    (henv : s.env = List.replicate k .ok ++ .fail landed :: later) :
    ∃ u, Reached i s k later u ∧ exec i s = .next (takeGpioFailure (ownerOf i) e landed u) := by
  obtain ⟨a, b, hacts, hexec, hleft⟩ := exec_fails ha hi (hev ▸ hk) hw henv
  rw [hev] at hexec hleft
  refine ⟨_, reached_afterEvents hi (Nat.le_of_lt (List.getElem?_eq_some_iff.1 hk).1) ?_ hleft, hexec⟩
  cases ho : ownerOf i with
  | sequence => rfl
  | command =>
    have hq (q : Seq) : Act.setSeq q ∉ a := fun hmem =>
      setSeq_notMem_actsOf ho s q (hacts ▸ List.mem_append_left _ hmem)
    obtain ⟨-, -, -, -, -, -, -, hbegins⟩ := begins_frame i s
    rw [placed_seq hq, hbegins]

/-- Where an admitted operation of the sequence is stopped before its `k`-th event, the stop is taken in the state
reached. -/
theorem exec_stopped_reached {i : Instr} {s : State} {k : Nat} {later : List EnvMove}
    (hev : eventsOf (actsOf i s) = eventsFor i s) (ha : admission i s = none) (hi : issues i = true)
    (ho : ownerOf i = .sequence) (hk : k < (eventsFor i s).length)
    (henv : s.env = List.replicate k .ok ++ .stop :: later) :
    ∃ u, Reached i s k later u ∧ exec i s = .next (takeStop .sequence u) := by
  obtain ⟨a, hexec, hleft⟩ := exec_stopped ha hi ho (hev ▸ hk) henv
  rw [hev] at hexec hleft
  exact ⟨_, reached_afterEvents hi (Nat.le_of_lt hk) (by rw [ho]; rfl) hleft, hexec⟩

/-! ### The end of a run that ended early (R168) -/

/-- An operation of the sequence that leaves `Aborted` ends its run there, whatever is presented after it. -/
theorem runEnd_sequence_aborted {i : Instr} {s t : State} (ho : ownerOf i = .sequence) (h : exec i s = .next t)
    (hq : t.seq = .aborted) (hn : t.turnedAway = none) (is : List Instr) : runEnd (i :: is) s = some .aborted := by
  have hend : sequenceEnd t = some .aborted := by rw [sequenceEnd, if_pos hq]
  refine runEnd_first h ?_ is
  cases i with
  | program | s1 | s2 | s3 | s4 | fRow | s5 | s6 | s7 | s8 => simpa [endOf, hn] using hend
  | _ => cases ho

/-! ### The PROGRAM line of a stopped run (R187, R222) -/

/-- Whether an event is a write of PROGRAM. -/
def writesProgram : Event → Bool
  | .wr .program _ => true
  | _ => false

theorem level_program_pinEffect {e : Event} (h : writesProgram e = false) (p : Pins) :
    (pinEffect e p).level .program = p.level .program := by
  cases e with
  | dir role d => exact Pins.level_direct ..
  | wr role v =>
    cases role with
    | program => cases h
    | _ => rfl
  | rd role g => rfl
  | wait t => rfl

theorem level_program_pinsAfter {es : List Event} (h : ∀ e ∈ es, writesProgram e = false) (p : Pins) :
    (pinsAfter es p).level .program = p.level .program := by
  induction es generalizing p with
  | nil => rfl
  | cons e es ih =>
    obtain ⟨he, hes⟩ := List.forall_mem_cons.1 h
    rw [pinsAfter_cons, ih hes, level_program_pinEffect he]

/-- The events of R166's list after PROGRAM is driven high and before it is driven low. -/
def programHighEvents (rows : List Bits) (olmc : Bits) : List Event :=
  .wait 5000 :: (s2Events ++ s3Events ++ rowsEvents 0 rows ++ s5Events olmc ++ s6Events ++ s7Events)

theorem programEvents_eq_highEvents (rows : List Bits) (olmc : Bits) :
    programEvents rows olmc = s1Events.take 4 ++ (programHighEvents rows olmc ++ s8Events) := by
  simp [programEvents, programHighEvents, s1Events]

theorem writesProgram_withoutData (e : Event) : writesProgram (withoutData e) = writesProgram e := by
  obtain he | ⟨v, rfl⟩ := withoutData_cases e
  · rw [he]
  · rfl

section
variable {rows : List Bits} {olmc : Bits} (hr : ∀ r ∈ rows, r.length = 132) (ho : olmc.length = 20)
include hr ho

theorem programHighEvents_length : (programHighEvents rows olmc).length = 655 + 556 * rows.length := by
  have h := programEvents_length hr ho
  rw [programEvents_eq_highEvents, List.length_append, List.length_append] at h
  change 4 + (_ + 5) = _ at h
  omega

/-- PROGRAM is written twice in the whole list, by steps 1 and 8. -/
theorem writesProgram_of_mem_highEvents {e : Event} (he : e ∈ programHighEvents rows olmc) :
    writesProgram e = false := by
  have htwo : (programEvents rows olmc).countP writesProgram = 2 := by
    rw [countP_eq_sum_map, sum_map_programEvents (fun e => by rw [writesProgram_withoutData]) hr ho]
    change 2 + 158 * 0 + rows.length * (138 * 0 + 0) = 2
    omega
  rw [programEvents_eq_highEvents, List.countP_append, List.countP_append] at htwo
  change 1 + (_ + 1) = 2 at htwo
  exact Bool.eq_false_iff.2 (List.countP_eq_zero.1 (by omega) e he)

/-- PROGRAM is high from its write in step 1 until its write in step 8. -/
theorem level_program_high {k : Nat} (h4 : 4 ≤ k) (hk : k ≤ 659 + 556 * rows.length) (p : Pins) :
    (pinsAfter ((programEvents rows olmc).take k) p).level .program = true := by
  obtain ⟨j, rfl⟩ := Nat.exists_eq_add_of_le h4
  have hj : j ≤ (programHighEvents rows olmc).length := by rw [programHighEvents_length hr ho]; omega
  have htake : (programEvents rows olmc).take (4 + j) = s1Events.take 4 ++ (programHighEvents rows olmc).take j := by
    rw [programEvents_eq_highEvents, ← List.take_append_of_le_length hj (l₂ := s8Events)]
    exact List.take_length_add_append (l₁ := s1Events.take 4) j
  rw [htake, pinsAfter_append,
    level_program_pinsAfter fun e he => writesProgram_of_mem_highEvents hr ho (List.mem_of_mem_take he)]
  rfl

end

/-! ### The events of `SETUP` -/

/-- A list without reads is answered as it stands. -/
theorem answeredFrom_of_no_read {es : List Event} (h : ∀ e ∈ es, isRead e = false) (n : Nat) :
    answeredFrom n es = es := by
  induction es with
  | nil => rfl
  | cons e es ih =>
    obtain ⟨he, hes⟩ := List.forall_mem_cons.1 h
    cases e with
    | rd role g => cases he
    | _ => rw [answeredFrom, ih hes]

theorem setupEvents_no_read_no_wait : ∀ e ∈ setupEvents, isRead e = false ∧ isWait e = false := by decide

/-! ### Every operation answers (R183) -/

theorem conclude_answers (r : Run) (k : State → State) : ∃ t, conclude r k = .next t := by
  cases r with
  | through s => exact ⟨k s, rfl⟩
  | ended s => exact ⟨s, rfl⟩

theorem exec_answers (i : Instr) (s : State) : ∃ t, exec i s = .next t := by
  cases ha : admission i s with
  | some why => exact ⟨_, exec_turnedAway ha⟩
  | none =>
    cases hi : issues i with
    | false => exact ⟨_, exec_loader ha hi⟩
    | true =>
      rw [exec_eq, ha]
      simpa [admitted, hi] using conclude_answers _ _

/-! ### The two format faults (R180, R181) -/

theorem patch_malformed {line : Line} {s : State} (hw : addressWellFormed (addressField line) = false) :
    patch line s = takeLoaderFault (.formatAddr s.lineNo (addressField line)) s := by
  simp only [patch, hw, if_true]

theorem patch_outOfRange {line : Line} {s : State} (hw : addressWellFormed (addressField line) = true)
    (hr : Config.faLen < decimalValue (addressField line) + (runField line).length) :
    patch line s =
      takeLoaderFault (.formatRange s.lineNo (decimalValue (addressField line)) (runField line).length)
        { s with base := BitVec.ofNat 17 (decimalValue (addressField line)), runLen := (runField line).length } := by
  simp only [patch, hw, Bool.true_eq_false, if_false, if_pos hr]

/-- A record that `LD.PATCH` takes by itself while the parse is open (R112). -/
theorem exec_ldPatch_open {line : Line} {s : State} (hq : s.seq = .idle) (hl : s.ldr = .empty ∨ s.ldr = .loading)
    (hm : line.take 2 = [s.marker.first, s.marker.second]) :
    exec (.ldPatch line) s = .next (patch line { s with ldr := .loading }) := by
  obtain ⟨hvalid, hfault⟩ := Ldr.open_iff.1 hl
  rw [exec_loader (admission_ldPatch.2 ⟨hq, hvalid, hm⟩) rfl, loaderUpdate, takePatch_unfaulted hfault]

/-! ### The host's commands outside a run (R185, R186) -/

theorem step_resetByte {s : State} {rest : List Byte} (h : s.cmd = resetByte :: rest) :
    step s = .next (hostReset { s with cmd := rest }) := by
  simp only [step, fetch, h, if_true]

theorem exec_abort_admitted {s : State} (hq : s.seq = .idle) (hp : s.progUsed = false) :
    exec .abort s = .next (answer .ended s) :=
  exec_loader (i := .abort) (whenAbort_none.2 ⟨hq, hp⟩) rfl

end Sys2Proof.Machine

namespace Sys2Proof.Proofs

open Sys2Proof.Machine Sys2Proof.Safety

/-- Settles O52: the fault is taken in the state the run has reached, and `Aborted` is the first end of its run. -/
theorem gpioFailureAbortsProgram : Obligations.GpioFailureAbortsProgram := by
  intro rows olmc s k e landed later ht ha hk hw henv
  obtain ⟨u, hu, hexec⟩ := exec_fails_reached (eventsOf_actsOf (.program rows olmc) s ht) ha rfl hk hw henv
  have hindex : u.evIdx = k := hu.evIdx.trans (Nat.zero_add k)
  refine ⟨_, hexec, rfl, hu.progUsed, ?_, ?_, ?_, ?_, hu.env, hu.fa, hu.ldr, runEnd_sequence_aborted rfl hexec rfl rfl⟩
  · rw [takeGpioFailure_trace, hu.trace, eventsFor]
  · rw [takeGpioFailure_pins, hu.pins, eventsFor]
  · rw [takeGpioFailure_gpioFault, hindex]
  · rw [takeGpioFailure_reply, hindex]

/-- Settles O53: the fault is taken in the state the run has reached, for `SETUP` in the order of its list. -/
theorem gpioFailureEndsOperation : Obligations.GpioFailureEndsOperation := by
  refine ⟨fun s k landed later hq hk henv => ?_, fun i s k e landed later hkind ht hta hk hw henv => ?_⟩
  · have hk : k < setupEvents.length := hk
    have hnext : setupEvents.take (k + 1) = setupEvents.take k ++ [setupEvents[k]] :=
      List.take_succ_eq_append_getElem hk
    have hasked : answeredFrom s.draws (setupEvents.take k) = setupEvents.take k :=
      answeredFrom_of_no_read (fun e he => (setupEvents_no_read_no_wait e (List.mem_of_mem_take he)).1) _
    obtain ⟨u, hu, hexec⟩ := exec_fails_reached (i := .setup) rfl (whenIdle_none.2 hq) rfl
      (List.getElem?_eq_getElem hk) (setupEvents_no_read_no_wait _ (List.getElem_mem hk)).2 henv
    have hindex : u.evIdx = k := hu.evIdx.trans (Nat.zero_add k)
    refine ⟨_, setupEvents, setupEvents[k], hexec, .refl _, List.getElem?_eq_getElem hk, hu.seq.trans hq, hu.setupDone,
      ?_, ?_, ?_, hu.env, ?_⟩
    · rw [takeGpioFailure_trace, hu.trace, eventsFor, hasked, hnext, List.append_assoc]
    · rw [takeGpioFailure_gpioFault, hindex]
    · rw [takeGpioFailure_reply, hindex]
    · rw [takeGpioFailure_pins, hu.pins, hnext, pinsAfter_append]
      rfl
  · obtain ⟨hi, hended⟩ := primitive_or_step_issues hkind s.seq
    obtain ⟨u, hu, hexec⟩ := exec_fails_reached (eventsOf_actsOf i s ht) (admission_none hta) hi hk hw henv
    refine ⟨_, hexec, hu.seq.trans hended, hu.setupDone, ?_, ?_, ?_, ?_, hu.env, hu.fa, hu.ldr⟩
    · rw [takeGpioFailure_trace, hu.trace]
    · rw [takeGpioFailure_pins, hu.pins]
    · rw [takeGpioFailure_gpioFault, hu.evIdx]
    · rw [takeGpioFailure_reply, hu.evIdx]

/-- Settles O54: the stop is taken in the state the run has reached; PROGRAM is written by steps 1 and 8 alone. -/
theorem stopLeavesAProperPrefix : Obligations.StopLeavesAProperPrefix := by
  refine ⟨fun rows olmc s k later ht ha hk henv => ?_, fun i s k later hstep ht hta hk henv => ?_⟩
  · obtain ⟨u, hu, hexec⟩ := exec_stopped_reached (eventsOf_actsOf (.program rows olmc) s ht) ha rfl rfl hk henv
    obtain ⟨-, -, -, -, -, hr, ho⟩ := whenProgram_none ha
    refine ⟨_, hexec, rfl, hu.trace, hu.pins, hu.gpioFault, runEnd_sequence_aborted rfl hexec rfl rfl,
      fun h4 hlast => ?_⟩
    rw [takeStop_pins, hu.pins]
    exact level_program_high hr ho h4 hlast s.pins
  · obtain ⟨hi, ho⟩ := step_issues hstep
    obtain ⟨u, hu, hexec⟩ := exec_stopped_reached (eventsOf_actsOf i s ht) (admission_none hta) hi ho hk henv
    exact ⟨_, hexec, rfl, hu.trace, hu.pins, hu.gpioFault, hu.env, hu.fa, hu.ldr,
      runEnd_sequence_aborted ho hexec rfl rfl⟩

/-- Settles O10: an operation is turned away, is its update or is a concluded run; of a step's other outcomes none is a
fault. -/
theorem operationsAlwaysAnswer : Obligations.OperationsAlwaysAnswer := by
  refine ⟨exec_answers, fun s f h => ?_⟩
  cases hf : fetch s with
  | operation i s' =>
    obtain ⟨t, ht⟩ := exec_answers i s'
    simp only [step, hf, ht, reduceCtorEq] at h
  | waiting | reset | malformed => simp only [step, hf, reduceCtorEq] at h

/-- Settles O13: the address is checked before anything is written. -/
theorem malformedAddressFaults : Obligations.MalformedAddressFaults := by
  intro line s hq hl hm hbad
  have hw : addressWellFormed (addressField line) = false := Bool.eq_false_iff.2 (mt addressWellFormed_iff.1 hbad)
  rw [exec_ldPatch_open hq hl hm, patch_malformed hw]
  rfl

/-- Settles O14: the range is checked before any cell is written. -/
theorem outOfRangeRecordFaults : Obligations.OutOfRangeRecordFaults := by
  intro line s d0 d1 d2 d3 d4 b hq hl hm hfield hdig hb hrange
  have haddr : addressField line = [d0, d1, d2, d3, d4] := hfield
  have hval : decimalValue (addressField line) = b := by rw [haddr, decimalValue_five, hb]
  have hw : addressWellFormed (addressField line) = true := addressWellFormed_iff.2 (haddr ▸ ⟨rfl, hdig⟩)
  rw [exec_ldPatch_open hq hl hm, patch_outOfRange hw (hval ▸ hrange), hval]
  rfl

/-- Settles O55: in `Aborted` nothing is admitted. -/
theorem abortedIsTerminal : Obligations.AbortedIsTerminal := fun _ h =>
  ⟨fun i => turnedAway_of_not_admitted (admission_aborted i h), fun is => runEnd_aborted is h,
    fun _ hc => ⟨_, step_resetByte hc, rfl⟩⟩

/-- Settles O56: an admitted abort writes the answer alone, and with events of `SETUP` only it is the first end. -/
theorem abortBeforeProgram : Obligations.AbortBeforeProgram := by
  refine fun s => ⟨fun hq hp => ⟨exec_abort_admitted hq hp, fun htrace is => ?_⟩, fun h => ?_⟩
  · have hend : endOf .abort (answer .ended s) = some .userAbort := by
      change abortEnd (answer .ended s) = _
      rw [abortEnd, if_pos ⟨answer_reply .ended s, htrace⟩]
    exact runEnd_first (exec_abort_admitted hq hp) hend is
  · refine turnedAway_of_not_admitted fun ha => ?_
    obtain ⟨hq, hp⟩ := whenAbort_none.1 ha
    exact h.elim (· hq) (by simp [hp])

end Sys2Proof.Proofs
end

section
/-! SUPPORT. The reset state and the fetch. What a fetch reads from a command list is said once for each kind of list
other than the reset byte's, which is `step_resetByte`; a step does what its fetch says. -/

namespace Sys2Proof.Safety

open Sys2Proof.Machine

/-- At reset the registers have their own values, nothing is set up, no run is started and nothing is latched. -/
theorem Inv.reset : Inv State.reset where
  memory := rfl
  cleared := fun _ => rfl
  timing := rfl
  pinsDistinct := rfl
  configured := fun hd => by cases hd
  lines := trivial
  started := fun hn => absurd rfl hn
  latched := rfl

end Sys2Proof.Safety

namespace Sys2Proof.Machine

/-! ### What a fetch reads (R212, R228) -/

theorem fetch_of_cmd_nil {s : State} (hc : s.cmd = []) : fetch s = .waiting := by
  simp only [fetch, hc]

/-- A command list that holds something other than a reset at its head. -/
theorem cmd_eq_cons_of_not_reset {s : State} (hne : s.cmd ≠ []) (hr : s.cmd.head? ≠ some resetByte) :
    ∃ b bs, s.cmd = b :: bs ∧ b ≠ resetByte := by
  obtain ⟨b, bs, hc⟩ := List.exists_cons_of_ne_nil hne
  exact ⟨b, bs, hc, fun hb => hr (by rw [hc, hb, List.head?_cons])⟩

/-- An operation's bytes are not empty: the empty list decodes to nothing. -/
theorem fetch_of_decode_ok {s : State} {i : Instr} {rest : List Byte} (hr : s.cmd.head? ≠ some resetByte)
    (hd : decode s.cmd = .ok (i, rest)) : fetch s = .operation i { s with cmd := rest } := by
  have hne : s.cmd ≠ [] := by
    intro hc
    rw [hc] at hd
    cases hd
  obtain ⟨b, bs, hc, hb⟩ := cmd_eq_cons_of_not_reset hne hr
  rw [hc] at hd
  simp only [fetch, hc, if_neg hb, hd]

theorem fetch_of_decode_error {s : State} {why : Reject} (hne : s.cmd ≠ []) (hr : s.cmd.head? ≠ some resetByte)
    (hd : decode s.cmd = .error why) : fetch s = .malformed why := by
  obtain ⟨b, bs, hc, hb⟩ := cmd_eq_cons_of_not_reset hne hr
  rw [hc] at hd
  simp only [fetch, hc, if_neg hb, hd]

end Sys2Proof.Machine

namespace Sys2Proof.Proofs

open Sys2Proof.Machine Sys2Proof.Safety

/-- Settles O2: each part of the invariant speaks of a register that has its start value. -/
theorem invariantAtReset : Obligations.InvariantAtReset := Inv.reset

/-- Settles O8: the fetch yields the operation, with its bytes taken off. -/
theorem stepRunsDecodedOperation : Obligations.StepRunsDecodedOperation := by
  intro s i rest hr hd
  rw [step, fetch_of_decode_ok hr hd]

/-- Settles O9: the fetch waits, resets or finds the bytes malformed. -/
theorem stepWithoutOperation : Obligations.StepWithoutOperation := by
  refine fun s => ⟨fun hc => ?_, fun rest hc => step_resetByte hc, fun why hne hr hd => ?_⟩
  · rw [step, fetch_of_cmd_nil hc]
  · rw [step, fetch_of_decode_error hne hr hd]

end Sys2Proof.Proofs
end
